-- ==== Sys2Proof/Word.lean ====
section
/-! DEFINITION. The words of the machine: bytes, register words, error codes, and inclusive ranges of numbers. -/

namespace Sys2Proof

/-- A byte is 8 bits (20_memory.md R40). -/
abbrev Byte := BitVec 8

/-- A 64-bit register word (10_state.md R10, R11). -/
abbrev Word := BitVec 64

/-- An exception's error code, or a page-fault code (60_exceptions.md R110, 20_memory.md R55). The spec gives neither a width nor a
definition of the fault code; 32 bits is the model's choice, the family's width (PRESUMED, log 33). -/
abbrev ErrorCode := BitVec 32

/-- An inclusive range of numbers: offsets in a segment, or linear addresses. -/
structure Range where
  lo : Nat
  hi : Nat
deriving DecidableEq, Repr

/-- Whether a number lies in a range. -/
def Range.has (r : Range) (a : Nat) : Bool := decide (r.lo ≤ a) && decide (a ≤ r.hi)

end Sys2Proof
end

