-- ==== Sys2Proof/Machine/Bits.lean ====
section
/-! DEFINITION. Byte order and sign extension (20_memory.md R41, 00_scope.md R8). -/

namespace Sys2Proof.Machine

/-- The `n` bytes of a value, least significant byte first (20_memory.md R41, decision D1). -/
def bytesLE {w : Nat} (n : Nat) (v : BitVec w) : List Byte :=
  (List.range n).map (fun k => v.extractLsb' (8 * k) 8)

/-- The 16-bit value of two bytes, the first of them the least significant. -/
def word16 (b0 b1 : Byte) : BitVec 16 := b0.setWidth 16 ||| b1.setWidth 16 <<< 8

/-- The 32-bit value of four bytes, the first of them the least significant. -/
def word32 (b0 b1 b2 b3 : Byte) : BitVec 32 :=
  b0.setWidth 32 ||| b1.setWidth 32 <<< 8 ||| b2.setWidth 32 <<< 16 ||| b3.setWidth 32 <<< 24

/-- `A:B` of two 32-bit values: A in bits 63:32, B in bits 31:0 (00_scope.md R7). -/
def concat32 (hi lo : BitVec 32) : BitVec 64 := hi.setWidth 64 <<< 32 ||| lo.setWidth 64

/-- `sext_n(v)` (00_scope.md R8). -/
def sext {w : Nat} (n : Nat) (v : BitVec w) : BitVec n := v.signExtend n

/-- Bytes at successive offsets from `off`. -/
def placeAt (off : Nat) : List Byte → List (Nat × Byte)
  | [] => []
  | b :: bs => (off, b) :: placeAt (off + 1) bs

end Sys2Proof.Machine
end

