-- ==== Sys2Proof/Config.lean ====
section
/-! DEFINITION. What an implementation fixes (the parameters of 00_scope.md R4, as plain data that State holds), the operating
modes, and the free values: opaque constants without a body, which nothing can evaluate. -/

namespace Sys2Proof

/-- The five operating modes (10_state.md R25). -/
inductive Mode
  | realAddress
  | protectedMode
  | virtual8086
  | compatibility
  | bits64
deriving DecidableEq, Repr

/-- The default operand and address size of the code segment outside 64-bit mode (10_state.md R25). -/
inductive CodeSize
  | bits16
  | bits32
deriving DecidableEq, Repr

/-- The part of the state a decoder reads: the mode and the code segment's default size (30_encoding.md R67). -/
structure CodeMode where
  mode     : Mode
  codeSize : CodeSize
deriving DecidableEq, Repr

/-- Which of the two encodings is executed: the `form` of 40_xsavec.md R80, R81, used only by the x87 image (R94). -/
inductive Form
  | xsavec
  | xsavec64
deriving DecidableEq, Repr

/-- The five levels of the priority order of 60_exceptions.md R122. `extent` is segment limit, canonical form or 64 KiB. -/
inductive CheckClass
  | ud
  | nm
  | extent
  | alignment
  | page
deriving DecidableEq, Repr

/-- ALIGN_CHECK_ON: the address the 64-byte alignment test is applied to (20_memory.md R42). -/
inductive AlignOn
  | linear
  | effective
deriving DecidableEq, Repr

/-- FAULT_WRITE_POLICY: whether bytes may already be stored when #PF is raised (60_exceptions.md R123). -/
inductive FaultWrite
  | noBytes
  | someBytes
deriving DecidableEq, Repr

/-- UNSAVED_SLOT_POLICY: what the bytes of unsaved slots and images hold afterwards (40_xsavec.md R90). -/
inductive UnsavedSlot
  | unchanged
  | anyValue
deriving DecidableEq, Repr

/-- CANONICAL: which 64-bit addresses are in canonical form (00_scope.md R4, 20_memory.md R54). Every predicate on 64-bit addresses
is some list of ranges. -/
inductive Canonical
  /-- So many implemented linear-address bits, the others a sign extension: the default's reading. -/
  | bits (n : Nat)
  /-- The addresses of a list of ranges. -/
  | ranges (rs : List Range)
deriving DecidableEq, Repr

/-- XCR0_LEGAL: the values XCR0 can hold (00_scope.md R4, 10_state.md R14). Every predicate on 64-bit values is some list. -/
inductive Xcr0Legal
  /-- The default: bit 0 is 1, bit 63 is 0 (decision D18). -/
  | standard
  /-- The values of a list. -/
  | oneOf (vs : List Word)
deriving DecidableEq, Repr

/-- X87Image and SSEImage, the images of the legacy region (00_scope.md R4, 20_memory.md R46). -/
inductive Images
  /-- The default instance of R46 (decision D3). -/
  | standard
  /-- Another pair of images under the laws of R46, numbered `id`: MXCSR at offset `mxcsrAt`, MXCSR_MASK at `maskAt`, the rest
  opaque (log 14). -/
  | other (id mxcsrAt maskAt : Nat)
deriving DecidableEq, Repr

/-- The x87 state, state component 0 (10_state.md R21). MM0 to MM7 alias the data registers and have no storage of their own. -/
structure X87 where
  fcw  : BitVec 16
  fsw  : BitVec 16
  /-- The full tag word: tag j is bits 2j+1:2j, 11 for an empty register. -/
  tags : BitVec 16
  fop  : BitVec 11
  fip  : BitVec 64
  fcs  : BitVec 16
  fdp  : BitVec 64
  fds  : BitVec 16
  /-- ST0 to ST7. -/
  st   : Vector (BitVec 80) 8
deriving DecidableEq, Repr, Inhabited

/-- The default PRIORITY, highest first (60_exceptions.md R122, decision D6). -/
def defaultPriority : List CheckClass := [.ud, .nm, .extent, .alignment, .page]

/-- The constants of an implementation (00_scope.md R4). No step writes them; a statement over every state holds for every
implementation. Components 2 to 62 stand at index i - 2. -/
structure Params where
  /-- CPUID.01H:ECX.XSAVE[bit 26] (10_state.md R17). -/
  cpuidXsave   : Bool
  /-- CPUID.(EAX=0DH,ECX=1):EAX.XSAVEC[bit 1] (10_state.md R17). -/
  cpuidXsavec  : Bool
  /-- CompSize(i), i in 2 to 62 (10_state.md R18). -/
  compSize     : Vector (BitVec 32) 61
  /-- ALIGN64(i), i in 2 to 62 (20_memory.md R47). -/
  align64      : Vector Bool 61
  /-- MXCSR_MASK (10_state.md R19). -/
  mxcsrMask    : BitVec 32
  /-- The modes in which XMM_COUNT is 16; in the others it is 8 (00_scope.md R4). -/
  sixteenXmm   : List Mode
  /-- The misalignments (address mod 64) for which AC_POLICY answers #AC; for the others it answers #GP(0)
  (60_exceptions.md R118). -/
  acMisaligned : List Nat
  /-- ALIGN_CHECK_ON (20_memory.md R42). -/
  alignOn      : AlignOn
  /-- CANONICAL (20_memory.md R54). -/
  canonForm    : Canonical
  /-- XCR0_LEGAL (10_state.md R14). -/
  xcr0Legal    : Xcr0Legal
  /-- X87Image and SSEImage (20_memory.md R46). -/
  images       : Images
  /-- PRIORITY, highest first (60_exceptions.md R122). -/
  priority     : List CheckClass
  /-- FAULT_WRITE_POLICY (60_exceptions.md R123). -/
  faultWrite   : FaultWrite
  /-- UNSAVED_SLOT_POLICY (40_xsavec.md R90). -/
  unsavedSlot  : UnsavedSlot
deriving DecidableEq, Repr

/-- The parameters at reset: the spec's defaults where it gives one, else the values of log 5 (DESIGN CHOICE). -/
def Params.atReset : Params where
  cpuidXsave   := true
  cpuidXsavec  := true
  compSize     := Vector.replicate 61 0
  align64      := Vector.replicate 61 false
  mxcsrMask    := 0x0000FFFF
  sixteenXmm   := [.bits64]
  acMisaligned := []
  alignOn      := .linear
  canonForm    := .bits 48
  xcr0Legal    := .standard
  images       := .standard
  priority     := defaultPriority
  faultWrite   := .someBytes
  unsavedSlot  := .unchanged

/-! The free values (log 10). Those that a step draws afresh take the state's draw counter as their first argument. -/

/-- The byte drawn for an offset of an unsaved slot or image under UNSAVED_SLOT_POLICY = any (40_xsavec.md R90). -/
opaque Config.freeByte : Nat → Nat → Byte

/-- Whether an extent check that fails only for bytes XSAVEC does not write is raised (60_exceptions.md R121). -/
opaque Config.mayRaiseExtent : Nat → Bool

/-- Whether a page fault on bytes XSAVEC does not write is raised (60_exceptions.md R121). -/
opaque Config.mayRaisePage : Nat → Bool

/-- Which of the faulting bytes #PF reports (60_exceptions.md R123). -/
opaque Config.faultPick : Nat → Nat

/-- Whether the byte at an offset was already stored when #PF was raised (60_exceptions.md R123). -/
opaque Config.storedBeforeFault : Nat → Nat → Bool

/-! Free values that depend on the state saved and on the implementation only, so that a repeated XSAVEC stores the same bytes
(20_memory.md R46 law 3, R50; logs 10 and 14). -/

/-- A reserved byte of the default x87 image at an offset; both forms write the same one (20_memory.md R46, 40_xsavec.md R94). -/
opaque Config.reservedByte : X87 → Nat → Byte

/-- Of the images numbered `id`: whether an offset is SSEImage's to fill; the others are X87Image's. -/
opaque Config.sseOffset : Nat → Nat → Bool

/-- Of the images numbered `id`: whether X87Image has a byte at an offset; the same for both forms (40_xsavec.md R94). -/
opaque Config.x87Offset : Nat → X87 → Nat → Bool

/-- Of the images numbered `id`: the byte of X87Image at an offset. -/
opaque Config.x87ImageByte : Nat → X87 → Form → Nat → Byte

/-- Of the images numbered `id`: SSEImage at an offset outside MXCSR and MXCSR_MASK, from the XMM registers, MXCSR, MXCSR_MASK and
the mode. -/
opaque Config.sseImageByte : Nat → Vector (BitVec 128) 16 → BitVec 32 → BitVec 32 → Mode → Nat → Option Byte

/-- The initial configuration of the x87 state: not in the source (10_state.md R20, log 28). -/
opaque Config.initialX87 : Params → X87

/-- A byte of the initial configuration of component i, 2 to 62 (10_state.md R20, log 28). -/
opaque Config.initialCompByte : Params → Nat → Nat → Byte

end Sys2Proof
end

