-- ==== Sys2Proof/Syntax.lean ====
section
/-! DEFINITION. The instructions: one constructor per row of the opcode table (30_encoding.md section 1), with everything its
encoding holds, so that no bit of an encoding is lost. -/

namespace Sys2Proof

/-- The six segment registers (10_state.md R27). -/
inductive SegReg
  | es
  | cs
  | ss
  | ds
  | fs
  | gs
deriving DecidableEq, Repr

/-- A byte before the opcode that is not the REX prefix in force (30_encoding.md R60, R63, R64, R66). -/
inductive LegacyPrefix
  /-- 26, 2E, 36, 3E, 64, 65: a segment override (R66). -/
  | seg (r : SegReg)
  /-- 67: the address-size prefix (R66, R67). -/
  | addrSize
  /-- F0: LOCK (R64). -/
  | lock
  /-- 66, which NP forbids (R63). -/
  | opSize
  /-- F2, which NP forbids (R63). -/
  | repne
  /-- F3, which NP forbids (R63). -/
  | rep
  /-- 40 to 4F in 64-bit mode, followed by another prefix, so not the instruction's REX prefix (R60); `low` is its low half. -/
  | strayRex (low : BitVec 4)
deriving DecidableEq, Repr

/-- The bits R, X and B of the REX prefix (30_encoding.md R62). W is the instruction's constructor. -/
structure Rex where
  r : Bool
  x : Bool
  b : Bool
deriving DecidableEq, Repr

/-- The displacement of a 32-bit or 64-bit form: mod = 00, 01 or 10 (30_encoding.md R68). -/
inductive Disp
  | noDisp
  | disp8 (d : BitVec 8)
  | disp32 (d : BitVec 32)
deriving DecidableEq, Repr

/-- The displacement of a 16-bit form: mod = 00, 01 or 10 (30_encoding.md R69). -/
inductive Disp16
  | noDisp
  | disp8 (d : BitVec 8)
  | disp16 (d : BitVec 16)
deriving DecidableEq, Repr

/-- The memory operand as ModRM, SIB and displacement give it (30_encoding.md R68, R69). Register fields are the three encoded
bits; REX.B and REX.X extend them. -/
inductive MemForm
  /-- 16-bit: mod = 00, rm = 110 (R69). -/
  | direct16 (d : BitVec 16)
  /-- 16-bit: every other form (R69). -/
  | based16 (rm : BitVec 3) (d : Disp16)
  /-- 32 or 64 bits: mod = 00, rm = 101; RIP-relative in 64-bit mode (R68). -/
  | direct (d : BitVec 32)
  /-- 32 or 64 bits: rm not 100, a base register (R68). -/
  | based (rm : BitVec 3) (d : Disp)
  /-- 32 or 64 bits: rm = 100, a SIB byte with a base register (R68). -/
  | sib (scale : BitVec 2) (index : BitVec 3) (base : BitVec 3) (d : Disp)
  /-- 32 or 64 bits: rm = 100, mod = 00, SIB base = 101: no base register, a disp32 follows (R68). -/
  | sibNoBase (scale : BitVec 2) (index : BitVec 3) (d : BitVec 32)
deriving DecidableEq, Repr

/-- The one explicit operand, `ModRM:r/m (w)`, with the prefixes that bear on it (30_encoding.md R60, R65). -/
structure Operand where
  /-- The bytes before the opcode and before the REX prefix in force, in stream order. -/
  prefixes : List LegacyPrefix
  /-- The REX prefix in force, if there is one. -/
  rex      : Option Rex
  form     : MemForm
deriving DecidableEq, Repr

/-- The two rows of the opcode table. -/
inductive Instr
  /-- XSAVEC mem, NP 0F C7 /4 (40_xsavec.md R80). -/
  | xsavec (op : Operand)
  /-- XSAVEC64 mem, NP REX.W + 0F C7 /4 (40_xsavec.md R81). -/
  | xsavec64 (op : Operand)
deriving DecidableEq, Repr

end Sys2Proof
end

