-- ==== Sys2Proof/Machine/Addressing.lean ====
section
/-! DEFINITION. The address size an instruction uses (30_encoding.md R67), and instruction lengths (R71). -/

namespace Sys2Proof

/-- The address sizes of 30_encoding.md R67. -/
inductive AddrSize
  | a16
  | a32
  | a64
deriving DecidableEq, Repr

namespace Machine

/-- The address size by mode, code-segment size and prefix 67 (30_encoding.md R67). -/
def addressSize (cm : CodeMode) (has67 : Bool) : AddrSize :=
  match cm.mode with
  | .bits64 => if has67 then .a32 else .a64
  | .protectedMode | .compatibility =>
    match cm.codeSize with
    | .bits32 => if has67 then .a16 else .a32
    | .bits16 => if has67 then .a32 else .a16
  | .realAddress | .virtual8086 => if has67 then .a32 else .a16

/-- Whether prefix 67 stands among the prefixes (30_encoding.md R66). -/
def has67 (ps : List LegacyPrefix) : Bool := ps.contains .addrSize

/-- Whether the LOCK prefix stands among the prefixes (30_encoding.md R64). -/
def hasLock (ps : List LegacyPrefix) : Bool := ps.contains .lock

/-- Whether a prefix NP forbids stands among the prefixes (30_encoding.md R63). -/
def hasMandatory (ps : List LegacyPrefix) : Bool :=
  ps.contains .opSize || ps.contains .repne || ps.contains .rep

/-- The number of displacement bytes. -/
def dispLength : Disp → Nat
  | .noDisp => 0
  | .disp8 _ => 1
  | .disp32 _ => 4

/-- The number of displacement bytes of a 16-bit form. -/
def disp16Length : Disp16 → Nat
  | .noDisp => 0
  | .disp8 _ => 1
  | .disp16 _ => 2

/-- The number of SIB and displacement bytes after ModRM. -/
def formLength : MemForm → Nat
  | .direct16 _ => 2
  | .based16 _ d => disp16Length d
  | .direct _ => 4
  | .based _ d => dispLength d
  | .sib _ _ _ d => 1 + dispLength d
  | .sibNoBase _ _ _ => 5

/-- The instruction's length L (30_encoding.md R71). -/
def operandLength (op : Operand) : Nat :=
  op.prefixes.length + (if op.rex.isSome then 1 else 0) + 2 + 1 + formLength op.form

/-- The length L of an instruction (30_encoding.md R71). -/
def instrLength : Instr → Nat
  | .xsavec op => operandLength op
  | .xsavec64 op => operandLength op

/-- The explicit operand of an instruction. -/
def instrOperand : Instr → Operand
  | .xsavec op => op
  | .xsavec64 op => op

/-- The form of an instruction (40_xsavec.md R80, R81). -/
def instrForm : Instr → Form
  | .xsavec _ => .xsavec
  | .xsavec64 _ => .xsavec64

/-- Whether the memory form is one of 16-bit addressing (30_encoding.md R69). -/
def formIs16 : MemForm → Bool
  | .direct16 _ => true
  | .based16 _ _ => true
  | .direct _ => false
  | .based _ _ => false
  | .sib _ _ _ _ => false
  | .sibNoBase _ _ _ => false

end Machine
end Sys2Proof
end

