-- ==== Sys2Proof/WellFormed.lean ====
section
/-! DEFINITION. Well-formed instructions: those some byte string of 30_encoding.md R60 to R73 encodes in a given mode. -/

namespace Sys2Proof

/-- The register fields leave room for the forms that have other meanings (30_encoding.md R68, R69). -/
def MemForm.fieldsOk : MemForm → Bool
  | .direct16 _ => true
  | .based16 rm d => !(rm == 6#3 && d == .noDisp)
  | .direct _ => true
  | .based rm d => !(rm == 4#3) && !(rm == 5#3 && d == .noDisp)
  | .sib _ _ base d => !(base == 5#3 && d == .noDisp)
  | .sibNoBase _ _ _ => true

/-- Whether a prefix is a byte 40 to 4F that is not the REX prefix in force. -/
def LegacyPrefix.isStray : LegacyPrefix → Bool
  | .strayRex _ => true
  | _ => false

/-- No byte 40 to 4F stands directly before another (R60: the format has one REX byte). -/
def noRexPair : List LegacyPrefix → Bool
  | [] => true
  | [_] => true
  | p :: q :: ps => !(p.isStray && q.isStray) && noRexPair (q :: ps)

/-- A byte 40 to 4F out of place is followed by a prefix 26 to F3: by no other such byte, and neither by the REX prefix in force nor
by the opcode (R60, log 17). -/
def straysOk (ps : List LegacyPrefix) : Bool := noRexPair ps && !(ps.getLast?.any LegacyPrefix.isStray)

/-- Bytes 40 to 4F are prefixes in 64-bit mode only (R72), and at most one of them stands in one place (R60). -/
def Operand.rexOk (m : Mode) (op : Operand) : Bool :=
  (m == .bits64 || (op.rex.isNone && !op.prefixes.any LegacyPrefix.isStray)) && straysOk op.prefixes

/-- The operand's parts fit together in this mode: REX bytes, the address size of the form (R67) and the register fields. -/
def Operand.shapeOk (cm : CodeMode) (op : Operand) : Bool :=
  op.rexOk cm.mode &&
  (Machine.formIs16 op.form == (Machine.addressSize cm (Machine.has67 op.prefixes) == .a16)) &&
  op.form.fieldsOk

/-- An operand some byte string encodes in this mode: no prefix NP forbids (R63), at most 15 bytes (R71). -/
def Operand.wellFormed (cm : CodeMode) (op : Operand) : Bool :=
  !Machine.hasMandatory op.prefixes && op.shapeOk cm && decide (Machine.operandLength op ≤ 15)

/-- An instruction some byte string encodes in this mode; XSAVEC64 needs 64-bit mode and a REX prefix (R62, R72). -/
def Instr.wellFormed (cm : CodeMode) : Instr → Bool
  | .xsavec op => op.wellFormed cm
  | .xsavec64 op => op.wellFormed cm && cm.mode == .bits64 && op.rex.isSome

end Sys2Proof
end

