-- ==== Sys2Proof/Decode.lean ====
section
/-! DEFINITION. The decoder, total on any bytes (30_encoding.md R60 to R73), the encoder written from the same tables, and the
host's `decodeTableWord`. -/

namespace Sys2Proof

/-- What the decoder answers. Only `instr` has a meaning of its own; each other verdict is a named end. -/
inductive Decoded
  /-- The bytes begin with this instruction. -/
  | instr (i : Instr)
  /-- `0F C7 /4` with a prefix 66, F2 or F3, or with mod = 11: #UD (R63, R65, R73, decision D16); `len` bytes long. -/
  | undefined (len : Nat)
  /-- The first 15 bytes do not hold the whole instruction: longer than 15 bytes (R71, R73). -/
  | tooLong
  /-- The bytes end before the instruction does. -/
  | truncated
  /-- The bytes are not XSAVEC or XSAVEC64: refused by name (R73). -/
  | outOfScope
deriving DecidableEq, Repr

/-- What one byte is while prefixes are being counted (R60). -/
inductive PrefixByte
  | legacy (p : LegacyPrefix)
  | rexByte (low : BitVec 4)
  | other
deriving DecidableEq, Repr

/-- The prefix bytes (R60, R63, R64, R66); 40 to 4F are REX bytes in 64-bit mode only (R62, R72). -/
def classifyByte (m64 : Bool) (b : Byte) : PrefixByte :=
  if b = 0x26#8 then .legacy (.seg .es)
  else if b = 0x2E#8 then .legacy (.seg .cs)
  else if b = 0x36#8 then .legacy (.seg .ss)
  else if b = 0x3E#8 then .legacy (.seg .ds)
  else if b = 0x64#8 then .legacy (.seg .fs)
  else if b = 0x65#8 then .legacy (.seg .gs)
  else if b = 0x67#8 then .legacy .addrSize
  else if b = 0xF0#8 then .legacy .lock
  else if b = 0x66#8 then .legacy .opSize
  else if b = 0xF2#8 then .legacy .repne
  else if b = 0xF3#8 then .legacy .rep
  else if m64 && b.extractLsb' 4 4 == 4#4 then .rexByte (b.extractLsb' 0 4)
  else .other

/-- The prefixes, the REX prefix in force and the bytes from the opcode on. A REX byte is in force only when it comes immediately
before the opcode; one before a prefix 26 to F3 is out of place; one directly before another REX byte matches no format and is left
for the opcode's place, where it is refused (R60, R73, log 17). -/
def scanPrefixes (m64 : Bool) : List Byte → List LegacyPrefix × Option (BitVec 4) × List Byte
  | [] => ([], none, [])
  | b :: bs =>
    match classifyByte m64 b with
    | .other => ([], none, b :: bs)
    | .legacy p =>
      let (ps, rex, rest) := scanPrefixes m64 bs
      (p :: ps, rex, rest)
    | .rexByte low =>
      match scanPrefixes m64 bs with
      | ([], none, rest) => ([], some low, rest)
      | ([], some _, _) => ([], none, b :: bs)
      | (p :: ps, rex, rest) => if p.isStray then ([], none, b :: bs) else (.strayRex low :: p :: ps, rex, rest)

/-- A displacement of 0, 1 or 4 bytes by mod (R68). -/
def parseDisp (md : BitVec 2) (bs : List Byte) : Option Disp :=
  if md = 0#2 then some .noDisp
  else if md = 1#2 then
    match bs with
    | d :: _ => some (.disp8 d)
    | _ => none
  else
    match bs with
    | d0 :: d1 :: d2 :: d3 :: _ => some (.disp32 (Machine.word32 d0 d1 d2 d3))
    | _ => none

/-- A displacement of 0, 1 or 2 bytes by mod (R69). -/
def parseDisp16 (md : BitVec 2) (bs : List Byte) : Option Disp16 :=
  if md = 0#2 then some .noDisp
  else if md = 1#2 then
    match bs with
    | d :: _ => some (.disp8 d)
    | _ => none
  else
    match bs with
    | d0 :: d1 :: _ => some (.disp16 (Machine.word16 d0 d1))
    | _ => none

/-- The memory form with 16-bit addressing (R69). -/
def parseForm16 (md : BitVec 2) (rm : BitVec 3) (bs : List Byte) : Option MemForm :=
  if md = 0#2 ∧ rm = 6#3 then
    match bs with
    | d0 :: d1 :: _ => some (.direct16 (Machine.word16 d0 d1))
    | _ => none
  else (parseDisp16 md bs).map (.based16 rm)

/-- A disp32, least significant byte first (R41, R68). -/
def parseDisp32 : List Byte → Option (BitVec 32)
  | d0 :: d1 :: d2 :: d3 :: _ => some (Machine.word32 d0 d1 d2 d3)
  | _ => none

/-- The SIB form (R68): `scale` is bits 7:6, `index` bits 5:3, `base` bits 2:0. -/
def parseSib (md : BitVec 2) : List Byte → Option MemForm
  | [] => none
  | sb :: bs =>
    if sb.extractLsb' 0 3 = 5#3 ∧ md = 0#2 then
      (parseDisp32 bs).map (.sibNoBase (sb.extractLsb' 6 2) (sb.extractLsb' 3 3))
    else
      (parseDisp md bs).map (.sib (sb.extractLsb' 6 2) (sb.extractLsb' 3 3) (sb.extractLsb' 0 3))

/-- The memory form with 32-bit or 64-bit addressing (R68). -/
def parseForm32 (md : BitVec 2) (rm : BitVec 3) (bs : List Byte) : Option MemForm :=
  if rm = 4#3 then parseSib md bs
  else if rm = 5#3 ∧ md = 0#2 then (parseDisp32 bs).map .direct
  else (parseDisp md bs).map (.based rm)

/-- The memory form by address size (R67 to R69). -/
def parseForm (asz : AddrSize) (md : BitVec 2) (rm : BitVec 3) (bs : List Byte) : Option MemForm :=
  match asz with
  | .a16 => parseForm16 md rm bs
  | .a32 | .a64 => parseForm32 md rm bs

/-- The bits R, X and B of a REX byte's low half: `WRXB` (R62). -/
def rexOf (low : BitVec 4) : Rex := ⟨low.getLsbD 2, low.getLsbD 1, low.getLsbD 0⟩

/-- REX.W selects the form (R62). -/
def makeInstr (ps : List LegacyPrefix) (rex : Option (BitVec 4)) (form : MemForm) : Instr :=
  match rex with
  | none => .xsavec ⟨ps, none, form⟩
  | some low => if low.getLsbD 3 then .xsavec64 ⟨ps, some (rexOf low), form⟩ else .xsavec ⟨ps, some (rexOf low), form⟩

/-- The length of an instruction up to and including ModRM (R71). -/
def lengthToModrm (ps : List LegacyPrefix) (rex : Option (BitVec 4)) : Nat :=
  ps.length + (if rex.isSome then 1 else 0) + 2 + 1

/-- From ModRM on: `mod` is bits 7:6, `reg` bits 5:3, `rm` bits 2:0 (R61); `none` when the bytes end too soon. -/
def decodeModrm (cm : CodeMode) (ps : List LegacyPrefix) (rex : Option (BitVec 4)) (modrm : Byte) (bs : List Byte) :
    Option Decoded :=
  if modrm.extractLsb' 3 3 ≠ 4#3 then some .outOfScope
  else if modrm.extractLsb' 6 2 = 3#2 then some (.undefined (lengthToModrm ps rex))
  else
    match parseForm (Machine.addressSize cm (Machine.has67 ps)) (modrm.extractLsb' 6 2) (modrm.extractLsb' 0 3) bs with
    | none => none
    | some form =>
      if Machine.hasMandatory ps then some (.undefined (lengthToModrm ps rex + Machine.formLength form))
      else some (.instr (makeInstr ps rex form))

/-- From the opcode bytes `0F C7` on (R61). -/
def decodeOpcode (cm : CodeMode) (ps : List LegacyPrefix) (rex : Option (BitVec 4)) : List Byte → Option Decoded
  | [] => none
  | b0 :: bs =>
    if b0 ≠ 0x0F#8 then some .outOfScope
    else
      match bs with
      | [] => none
      | b1 :: bs =>
        if b1 ≠ 0xC7#8 then some .outOfScope
        else
          match bs with
          | [] => none
          | modrm :: bs => decodeModrm cm ps rex modrm bs

/-- The decoder on the bytes given; `none` when they end before the instruction does. -/
def decodeBytes (cm : CodeMode) (bs : List Byte) : Option Decoded :=
  let (ps, rex, rest) := scanPrefixes (cm.mode == .bits64) bs
  decodeOpcode cm ps rex rest

/-- The decoder: it reads at most 15 bytes (R71). -/
def decode (cm : CodeMode) (bs : List Byte) : Decoded :=
  match decodeBytes cm (bs.take 15) with
  | some d => d
  | none => if 15 ≤ bs.length then .tooLong else .truncated

/-! The encoder (30_encoding.md R60 to R69). -/

/-- The byte of a prefix (R60, R63, R64, R66). -/
def prefixByte : LegacyPrefix → Byte
  | .seg .es => 0x26#8
  | .seg .cs => 0x2E#8
  | .seg .ss => 0x36#8
  | .seg .ds => 0x3E#8
  | .seg .fs => 0x64#8
  | .seg .gs => 0x65#8
  | .addrSize => 0x67#8
  | .lock => 0xF0#8
  | .opSize => 0x66#8
  | .repne => 0xF2#8
  | .rep => 0xF3#8
  | .strayRex low => 4#4 ++ low

/-- One bit. -/
def bitOf (b : Bool) : BitVec 1 := BitVec.ofBool b

/-- The REX byte `0100WRXB` (R62). -/
def rexByteOf (w : Bool) (r : Rex) : Byte := (4#4 ++ (bitOf w ++ bitOf r.r)) ++ (bitOf r.x ++ bitOf r.b)

/-- The ModRM byte with reg = 100 (R61). -/
def modrmByte (md : BitVec 2) (rm : BitVec 3) : Byte := (md ++ 4#3) ++ rm

/-- The SIB byte (R68). -/
def sibByte (scale : BitVec 2) (index base : BitVec 3) : Byte := (scale ++ index) ++ base

/-- The mod field of a displacement (R68). -/
def dispMod : Disp → BitVec 2
  | .noDisp => 0#2
  | .disp8 _ => 1#2
  | .disp32 _ => 2#2

/-- The mod field of a 16-bit form's displacement (R69). -/
def disp16Mod : Disp16 → BitVec 2
  | .noDisp => 0#2
  | .disp8 _ => 1#2
  | .disp16 _ => 2#2

/-- The displacement bytes, least significant first (R41, R68). -/
def encodeDisp : Disp → List Byte
  | .noDisp => []
  | .disp8 d => [d]
  | .disp32 d => Machine.bytesLE 4 d

/-- The displacement bytes of a 16-bit form (R41, R69). -/
def encodeDisp16 : Disp16 → List Byte
  | .noDisp => []
  | .disp8 d => [d]
  | .disp16 d => Machine.bytesLE 2 d

/-- ModRM, SIB and displacement (R61, R68, R69). -/
def encodeForm : MemForm → List Byte
  | .direct16 d => modrmByte 0#2 6#3 :: Machine.bytesLE 2 d
  | .based16 rm d => modrmByte (disp16Mod d) rm :: encodeDisp16 d
  | .direct d => modrmByte 0#2 5#3 :: Machine.bytesLE 4 d
  | .based rm d => modrmByte (dispMod d) rm :: encodeDisp d
  | .sib scale index base d => modrmByte (dispMod d) 4#3 :: sibByte scale index base :: encodeDisp d
  | .sibNoBase scale index d => modrmByte 0#2 4#3 :: sibByte scale index 5#3 :: Machine.bytesLE 4 d

/-- The bytes of the REX prefix in force. -/
def encodeRex (w : Bool) : Option Rex → List Byte
  | none => []
  | some r => [rexByteOf w r]

/-- An instruction's bytes in stream order (R60). -/
def encodeOperand (w : Bool) (op : Operand) : List Byte :=
  op.prefixes.map prefixByte ++ (encodeRex w op.rex ++ (0x0F#8 :: 0xC7#8 :: encodeForm op.form))

/-- The bytes of an instruction (R60, R62). -/
def encode : Instr → List Byte
  | .xsavec op => encodeOperand false op
  | .xsavec64 op => encodeOperand true op

/-! The host's table words. The opcode table numbers a row's bits in stream order, the first byte most significant
(`pattern_over` of spec/opcode_table.json). -/

/-- The mode a table word is read in: 64-bit mode, the one mode in which both rows are valid (R72; log 24). -/
def tableMode : CodeMode := ⟨.bits64, .bits32⟩

/-- The `n` bytes of a table word, most significant byte first. -/
def tableBytes : Nat → Nat → List Byte
  | 0, _ => []
  | n + 1, w => BitVec.ofNat 8 (w >>> (8 * n)) :: tableBytes n w

/-- A table word's bytes, with zero bytes up to 15. -/
def tableStream (nbits w : Nat) : List Byte :=
  (tableBytes (nbits / 8) w ++ List.replicate 15 0#8).take 15

/-- The instruction the decoder reads from a table word (log 24). -/
def decodeTableWord (nbits w : Nat) : Option Instr :=
  match decode tableMode (tableStream nbits w) with
  | .instr i => some i
  | _ => none

end Sys2Proof
end

