-- ==== Sys2Proof/Machine/State.lean ====
section
/-! DEFINITION. The state of the machine (10_state.md R31 and the rules it names), the reasons a step can stop, and the state
after reset. INVENTORY.md lists every field with its rule and its reset value. -/

namespace Sys2Proof.Machine

/-- A segment register (10_state.md R27). `accessible` is the oracle SegLimitOK as data: the offsets that may be written through
the segment (20_memory.md R53, log 7). -/
structure Segment where
  selector   : BitVec 16
  base       : Word
  accessible : List Range
deriving DecidableEq, Repr

/-- The six segment registers. -/
structure Segments where
  es : Segment
  cs : Segment
  ss : Segment
  ds : Segment
  fs : Segment
  gs : Segment
deriving DecidableEq, Repr

/-- Linear addresses to which a store page-faults, with the fault code: an entry of the oracle PageFault (20_memory.md R55). -/
structure PageFaultRange where
  range : Range
  code  : ErrorCode
deriving DecidableEq, Repr

/-- Memory that is not ordinary (20_memory.md R50, R57). -/
inductive RegionKind
  | device
  | code
deriving DecidableEq, Repr

/-- A linear address range of device memory or of code. -/
structure Region where
  range : Range
  kind  : RegionKind
deriving DecidableEq, Repr

/-- Memory: (linear address, byte) pairs, addresses strictly rising. An unlisted address has no value (log 6). -/
abbrev Memory := List Host.Cell

/-- The state of the logical processor and its memory (10_state.md R31). -/
structure State where
  /-- RAX, RCX, RDX, RBX, RSP, RBP, RSI, RDI, R8 to R15 (R10, R11). -/
  gpr        : Vector Word 16
  /-- RIP, EIP or IP (R12). -/
  pc         : Word
  /-- RFLAGS (R13). -/
  rflags     : Word
  /-- XCR0 (R14). -/
  xcr0       : Word
  /-- CR0: TS is bit 3, AM is bit 18 (R15, R26). -/
  cr0        : Word
  /-- CR2: the linear address of the last page fault (20_memory.md R55). -/
  cr2        : Word
  /-- CR4: OSXSAVE is bit 18 (R16). -/
  cr4        : Word
  /-- MXCSR (R19). -/
  mxcsr      : BitVec 32
  /-- XINUSE (R20). -/
  xinuse     : Word
  /-- State component 0 (R21). -/
  x87        : X87
  /-- XMM0 to XMM15 (R22). -/
  xmm        : Vector (BitVec 128) 16
  /-- State components 2 to 62 as byte strings, component i at index i - 2 (R23). -/
  comps      : Vector (List Byte) 61
  /-- The operating mode (R25). -/
  mode       : Mode
  /-- The code segment's default size outside 64-bit mode (R25). -/
  codeSize   : CodeSize
  /-- The CPL in the modes where it is not fixed; read it by `cpl` (R26). -/
  cplField   : BitVec 2
  /-- The segment registers (R27). -/
  segs       : Segments
  /-- Memory (R28). -/
  mem        : Memory
  /-- The oracle PageFault for stores at the current CPL, as data (20_memory.md R55, log 7). -/
  pageFaults : List PageFaultRange
  /-- The memory that is not ordinary (20_memory.md R50, R57, log 22). -/
  regions    : List Region
  /-- The constants of the implementation (00_scope.md R4). -/
  params     : Params
  /-- The model's own: the linear addresses of the instruction bytes run so far, which no later XSAVEC of the run may store over
  (20_memory.md R57, log 22). -/
  codeSeen   : List Nat
  /-- The model's own: the linear ranges of the operands so far, from which no later instruction of the run may be fetched
  (20_memory.md R57, log 22). -/
  areasWritten : List Range
  /-- The model's own: how many times free values have been drawn (log 10). -/
  draws      : Nat
deriving DecidableEq, Repr

/-- The six exceptions (60_exceptions.md R110). Each is raised by XSAVEC and XSAVEC64 and by `step` for the encodings the spec
sends to it; stopping there is the spec's own outcome (R123, R124), so it is safe. -/
inductive Exception
  /-- Invalid opcode: R111, and the encodings of 30_encoding.md R63 and R65. -/
  | ud
  /-- Device not available: R112. -/
  | nm
  /-- Stack-segment fault: R115, R117. -/
  | ss
  /-- General protection: R113, R114, R117, R119, and 30_encoding.md R71. -/
  | gp
  /-- Page fault: R116. -/
  | pf
  /-- Alignment check: R118. -/
  | ac
deriving DecidableEq, Repr

/-- The reasons the machine stops with a fault. -/
inductive Fault
  /-- The fault outcome of 60_exceptions.md R123: the exception's mnemonic, its error code if it has one, and the state at the
  fault. Raised by both instructions and by `step`. Safe: the spec runs no handler (R124). -/
  | exception (x : Exception) (code : Option ErrorCode) (s : State)
  /-- `step` needs an instruction byte at this linear address and memory lists none (log 6). Safe: nothing goes on. -/
  | fetchAbsent (address : Nat)
deriving DecidableEq, Repr

/-- The reasons a step gives no meaning. -/
inductive Refusal
  /-- An instruction without a meaning yet; raised by `exec` only, and no arm raises it now. Safe. -/
  | notModelled (mnemonic : String)
  /-- The bytes at pc are no encoding of this spec: another instruction (30_encoding.md R73). Raised by `step`. Safe. -/
  | outOfScope
  /-- XSAVEC64 outside 64-bit mode, which no byte string encodes (30_encoding.md R72, 93 U7). Raised by XSAVEC64. Safe. -/
  | notEncodable
  /-- The operand wraps around 2^32 in protected, compatibility or virtual-8086 mode (20_memory.md R56, decision D22). Raised by both
  instructions. Safe. -/
  | addressWrap
  /-- pc + L wraps around the mode's width (10_state.md R12, decision D20). Raised by both instructions, and by `step` for an
  instruction that runs past the last pc. Safe. -/
  | pcWrap
  /-- The operand touches device memory or code, or the instruction at pc stands where an XSAVEC of the run stored (20_memory.md R50,
  R57, decision D14). Raised by both instructions and by `step`. Safe. -/
  | notOrdinary (kind : RegionKind)
deriving DecidableEq, Repr

/-- What a step or a meaning answers. -/
abbrev Outcome := Host.Outcome State Fault Refusal

/-- A segment at reset: selector and base, and the limit FFFFH (log 2, PRESUMED). -/
def Segment.atReset (selector : BitVec 16) (base : Word) : Segment := ⟨selector, base, [⟨0, 0xFFFF⟩]⟩

/-- The state after reset (10_state.md R30): MXCSR is the source's initial value; the general-knowledge column of R30 gives XCR0,
CR0, CR4, EFLAGS, FCW, the XMM registers, the mode, the CPL and CS:IP (log 1, PRESUMED); the family's values are log 2
(PRESUMED); the model's choices are logs 3 to 7, 10 and 22 (DESIGN CHOICE): among them that no linear address is device memory or
declared code (`regions`) and none page-faults (`pageFaults`), on which the spec is silent (log 7). -/
def State.reset : State where
  gpr        := Vector.replicate 16 0
  pc         := 0xFFF0
  rflags     := 0x00000002
  xcr0       := 0x0000000000000001
  cr0        := 0x60000010
  cr2        := 0
  cr4        := 0
  mxcsr      := 0x1F80
  xinuse     := 0x7FFFFFFFFFFFFFFF
  x87        := { fcw := 0x0040, fsw := 0, tags := 0x5555, fop := 0, fip := 0, fcs := 0, fdp := 0, fds := 0,
                  st := Vector.replicate 8 0 }
  xmm        := Vector.replicate 16 0
  comps      := Vector.replicate 61 []
  mode       := .realAddress
  codeSize   := .bits16
  cplField   := 0
  segs       := { es := Segment.atReset 0 0, cs := Segment.atReset 0xF000 0xFFFF0000, ss := Segment.atReset 0 0,
                  ds := Segment.atReset 0 0, fs := Segment.atReset 0 0, gs := Segment.atReset 0 0 }
  mem        := []
  pageFaults := []
  regions    := []
  params     := Params.atReset
  codeSeen   := []
  areasWritten := []
  draws      := 0

end Sys2Proof.Machine
end

