-- ==== Sys2Proof/Machine/Flags.lean ====
section
/-! DEFINITION. The flag and control bits XSAVEC reads (10_state.md R13, R15, R16, R26). It writes none: "Flags Affected: None."
(R13), so there is no flag computation. -/

namespace Sys2Proof.Machine

/-- CR0.TS, bit 3 (R15). -/
def crTs (s : State) : Bool := s.cr0.getLsbD 3

/-- CR4.OSXSAVE, bit 18 (R16). -/
def crOsxsave (s : State) : Bool := s.cr4.getLsbD 18

/-- AC_ENABLED: CR0.AM, bit 18, and EFLAGS.AC, bit 18 (R26). -/
def acEnabled (s : State) : Bool := s.cr0.getLsbD 18 && s.rflags.getLsbD 18

/-- The current privilege level: 0 in real-address mode, 3 in virtual-8086 mode (R26). -/
def cpl (s : State) : BitVec 2 :=
  match s.mode with
  | .realAddress => 0
  | .virtual8086 => 3
  | .protectedMode | .compatibility | .bits64 => s.cplField

/-- XCR0_LEGAL (00_scope.md R4, 10_state.md R14): by default bit 0 is 1 and bit 63 is 0. -/
def legalXcr0 : Xcr0Legal → Word → Bool
  | .standard, v => v.getLsbD 0 && !v.getLsbD 63
  | .oneOf vs, v => vs.contains v

end Sys2Proof.Machine
end

