-- ==== Sys2Proof/Machine/Ops.lean ====
section
/-! DEFINITION. The shared operations over memory, registers and the instruction stream, and taking an exception. -/

namespace Sys2Proof.Machine

/-! Memory (20_memory.md R40). -/

/-- The byte at a linear address, if memory lists one. -/
def Memory.read : Memory → Nat → Option Byte
  | [], _ => none
  | (k, b) :: m, a => if a = k then some b else Memory.read m a

/-- Memory with one byte written, addresses kept in rising order. -/
def Memory.write : Memory → Nat → Byte → Memory
  | [], a, v => [(a, v)]
  | (k, b) :: m, a, v =>
    if a < k then (a, v) :: (k, b) :: m
    else if a = k then (a, v) :: m
    else (k, b) :: Memory.write m a v

/-- The canonical form: addresses strictly rising, all of them linear addresses below 2^64. An unlisted address has no value, so
no entry equals what an unlisted address reads as. -/
abbrev Memory.wf (m : Memory) : Prop :=
  m.Pairwise (fun x y => x.1 < y.1) ∧ ∀ c ∈ m, c.1 < 2 ^ 64

/-- Bytes stored at offsets, `MemWriteBytes` (00_scope.md R8); `addr` gives an offset's linear address. -/
def storeAll (m : Memory) (addr : Nat → Nat) (ws : List (Nat × Byte)) : Memory :=
  ws.foldl (fun m w => Memory.write m (addr w.1) w.2) m

/-- `n` bytes from an offset on as one number, least significant byte first, `MemRead` (00_scope.md R8); `none` when memory lists
one of them not. `addr` gives an offset's linear address. -/
def readAt (m : Memory) (addr : Nat → Nat) (off : Nat) : Nat → Option Nat
  | 0 => some 0
  | n + 1 =>
    match Memory.read m (addr off), readAt m addr (off + 1) n with
    | some b, some v => some (b.toNat + 256 * v)
    | _, _ => none

/-- `n` bytes from a linear address on as one number. -/
def Memory.readLE (m : Memory) (a n : Nat) : Option Nat := readAt m id a n

/-! Registers. -/

/-- A general register by its four-bit number (10_state.md R11). -/
def readGpr (s : State) (n : BitVec 4) : Word := s.gpr[n.toNat]'(n.isLt)

/-- The segment register of a name (10_state.md R27). -/
def segment (s : State) : SegReg → Segment
  | .es => s.segs.es
  | .cs => s.segs.cs
  | .ss => s.segs.ss
  | .ds => s.segs.ds
  | .fs => s.segs.fs
  | .gs => s.segs.gs

/-- SegBase: in 64-bit mode 0 but for FS and GS (10_state.md R27, 30_encoding.md R70). -/
def segBase (s : State) (r : SegReg) : Nat :=
  if s.mode = .bits64 then
    match r with
    | .fs => s.segs.fs.base.toNat
    | .gs => s.segs.gs.base.toNat
    | .es | .cs | .ss | .ds => 0
  else (segment s r).base.toNat

/-- The width of linear addresses: 64 bits in 64-bit mode, else 32 (20_memory.md R40). -/
def linearWidth (m : Mode) : Nat := if m = .bits64 then 64 else 32

/-- The width of the instruction pointer: RIP, EIP or IP (10_state.md R12). -/
def pcWidth : Mode → Nat
  | .bits64 => 64
  | .realAddress => 16
  | .protectedMode | .compatibility | .virtual8086 => 32

/-- The state with its free values drawn (log 10). -/
def tick (s : State) : State := { s with draws := s.draws + 1 }

/-- The mode and code size a decoder reads. -/
def codeMode (s : State) : CodeMode := ⟨s.mode, s.codeSize⟩

/-! Fetching (20_memory.md R40, 30_encoding.md R60). -/

/-- The linear address of the code byte `k` bytes after pc, through CS (20_memory.md R40). -/
def codeAddress (s : State) (k : Nat) : Nat :=
  (segBase s .cs + s.pc.toNat + k) % 2 ^ linearWidth s.mode

/-- At most `n` instruction bytes from `k` bytes after pc on, as far as memory lists them and pc does not wrap. -/
def fetchFrom (s : State) : Nat → Nat → List Byte
  | 0, _ => []
  | n + 1, k =>
    if s.pc.toNat + k < 2 ^ pcWidth s.mode then
      match Memory.read s.mem (codeAddress s k) with
      | some b => b :: fetchFrom s n (k + 1)
      | none => []
    else []

/-- The bytes a decoder is given: at most 15 (30_encoding.md R71). -/
def fetchBytes (s : State) : List Byte := fetchFrom s 15 0

/-- Bytes stored one after the other where the instruction stream is fetched. -/
def storeCode (s : State) (bs : List Byte) : Memory := storeAll s.mem (codeAddress s) (placeAt 0 bs)

/-- Whether one of the `n` code bytes from pc on lies in the operand of an XSAVEC this run executed: a run the spec gives no meaning
(20_memory.md R57, log 22). -/
def overwritten (s : State) (n : Nat) : Bool :=
  (List.range n).any (fun k => s.areasWritten.any (·.has (codeAddress s k)))

/-! Taking an exception (60_exceptions.md R123): the step ends in the mnemonic, the error code and the state at the fault. The
spec delivers no exception and returns from none (R124, R125). -/

/-- Raise an exception; `s` is the state at the fault. -/
def takeException (x : Exception) (code : Option ErrorCode) (s : State) : Outcome := .fault (.exception x code s)

/-- The error code 0, which no exception carries in real-address mode (60_exceptions.md R110). -/
def zeroCode (m : Mode) : Option ErrorCode := if m = .realAddress then none else some 0

/-- The vector number, informative only (60_exceptions.md R110). -/
def vectorOf : Exception → Nat
  | .ud => 6
  | .nm => 7
  | .ss => 12
  | .gp => 13
  | .pf => 14
  | .ac => 17

end Sys2Proof.Machine
end

