-- ==== Sys2Proof/Machine/Operands.lean ====
section
/-! DEFINITION. Operand assembly: the effective address (30_encoding.md R68, R69), the segment (R70) and the linear address
(20_memory.md R40). -/

namespace Sys2Proof.Machine

/-- Where the operand lies: its segment, its effective address and the linear address of byte 0 of the XSAVE area. -/
structure Target where
  seg  : SegReg
  ea   : Nat
  area : Nat
deriving DecidableEq, Repr

/-- The general register of a three-bit field extended by a REX bit (R62, R68). -/
def regOf (s : State) (ext : Bool) (field : BitVec 3) : Word := readGpr s (BitVec.ofBool ext ++ field)

/-- REX.B, 0 without REX (R68). -/
def rexB (op : Operand) : Bool := op.rex.any (·.b)

/-- REX.X, 0 without REX (R68). -/
def rexX (op : Operand) : Bool := op.rex.any (·.x)

/-- A displacement, sign-extended (R68). -/
def dispValue : Disp → Word
  | .noDisp => 0
  | .disp8 d => sext 64 d
  | .disp32 d => sext 64 d

/-- A 16-bit form's displacement, sign-extended; only its low 16 bits are used (R69). -/
def disp16Value : Disp16 → Word
  | .noDisp => 0
  | .disp8 d => sext 64 d
  | .disp16 d => sext 64 d

/-- The register part of a 16-bit form by rm: BX is register 3, BP 5, SI 6, DI 7 (R69). -/
def base16 (s : State) (rm : BitVec 3) : Word :=
  match rm.toNat with
  | 0 => readGpr s 3 + readGpr s 6
  | 1 => readGpr s 3 + readGpr s 7
  | 2 => readGpr s 5 + readGpr s 6
  | 3 => readGpr s 5 + readGpr s 7
  | 4 => readGpr s 6
  | 5 => readGpr s 7
  | 6 => readGpr s 5
  | _ => readGpr s 3

/-- The index part of a SIB form: 0 when `X:index = 0100b`, all four bits looked at (R68). -/
def indexPart (s : State) (x : Bool) (scale : BitVec 2) (index : BitVec 3) : Word :=
  if x = false ∧ index = 4#3 then 0 else regOf s x index <<< scale.toNat

/-- The address size of the operand's form: 16 for a form of R69, else 64 or 32 bits (R67, R68). -/
def addressBits (m : Mode) (op : Operand) : Nat :=
  if formIs16 op.form then 16 else if m = .bits64 ∧ has67 op.prefixes = false then 64 else 32

/-- The sum of R68 or R69 before it is cut to the address size. `next` is `pc + L`, the base of the RIP-relative form. -/
def addressSum (s : State) (op : Operand) (next : Word) : Word :=
  match op.form with
  | .direct16 d => sext 64 d
  | .based16 rm d => base16 s rm + disp16Value d
  | .direct d => if s.mode = .bits64 then next + sext 64 d else sext 64 d
  | .based rm d => regOf s (rexB op) rm + dispValue d
  | .sib scale index base d => regOf s (rexB op) base + indexPart s (rexX op) scale index + dispValue d
  | .sibNoBase scale index d => sext 64 d + indexPart s (rexX op) scale index

/-- The effective address: the sum modulo 2 to the address size, zero-extended (R68, R69). -/
def effectiveAddress (s : State) (op : Operand) (len : Nat) : Nat :=
  (addressSum s op (s.pc + BitVec.ofNat 64 len)).toNat % 2 ^ addressBits s.mode op

/-- The default segment: SS for a base register SP or BP (not R12 or R13), else DS (R70). -/
def defaultSegment (op : Operand) : SegReg :=
  match op.form with
  | .direct16 _ => .ds
  | .based16 rm d => if rm = 2#3 ∨ rm = 3#3 ∨ (rm = 6#3 ∧ d ≠ .noDisp) then .ss else .ds
  | .direct _ => .ds
  | .based rm d => if rexB op = false ∧ rm = 5#3 ∧ d ≠ .noDisp then .ss else .ds
  | .sib _ _ base d => if rexB op = false ∧ (base = 4#3 ∨ (base = 5#3 ∧ d ≠ .noDisp)) then .ss else .ds
  | .sibNoBase _ _ _ => .ds

/-- The segment a prefix names. -/
def overrideOf : LegacyPrefix → Option SegReg
  | .seg r => some r
  | .addrSize | .lock | .opSize | .repne | .rep | .strayRex _ => none

/-- FS and GS are the overrides that change the base in 64-bit mode (R70). -/
def isFsGs (r : SegReg) : Bool := r == .fs || r == .gs

/-- The operand's segment (R66, R70): the last override wins; in 64-bit mode 26, 2E and 3E are ignored, and 36 only makes the
operand one that references SS (log 18). -/
def operandSegment (m : Mode) (op : Operand) : SegReg :=
  let ovs := op.prefixes.filterMap overrideOf
  if m = .bits64 then
    match (ovs.filter isFsGs).getLast? with
    | some r => r
    | none => if ovs.contains .ss then .ss else defaultSegment op
  else ovs.getLast?.getD (defaultSegment op)

/-- The linear address of byte 0 of the area: base + EA, cut to the mode's linear width (20_memory.md R40). -/
def linearAddress (s : State) (r : SegReg) (ea : Nat) : Nat := (segBase s r + ea) % 2 ^ linearWidth s.mode

/-- The operand resolved in a state; `len` is the instruction's length L. -/
def resolve (s : State) (op : Operand) (len : Nat) : Target :=
  let r := operandSegment s.mode op
  let ea := effectiveAddress s op len
  ⟨r, ea, linearAddress s r ea⟩

/-- The linear address of the operand's byte at offset k, `Area + k` (20_memory.md R40, R56): in real-address mode, where no wrap is
refused, a linear address is cut to 32 bits; in the other modes outside 64-bit mode a sum beyond 2^32 is refused. -/
def byteAddress (s : State) (t : Target) (k : Nat) : Nat :=
  if s.mode = .realAddress then (t.area + k) % 2 ^ 32 else t.area + k

/-- Whether the operand has a byte of its own at offset k: its linear address is below 2^64 and no lower offset has it. -/
def hasByte (s : State) (t : Target) (k : Nat) : Bool :=
  decide (byteAddress s t k < 2 ^ 64) && (s.mode != .realAddress || decide (k < 2 ^ 32))

end Sys2Proof.Machine
end

