-- ==== Sys2Proof/Machine/Area.lean ====
section
/-! DEFINITION. What XSAVEC stores, and where in the XSAVE area: the masks (40_xsavec.md R82 to R84), the images of the legacy
region (20_memory.md R46), the compacted layout (R47) and the footprint (R48). -/

namespace Sys2Proof.Machine

/-- InstructionMask: EDX:EAX; RAX is register 0, RDX is register 2 (40_xsavec.md R82). -/
def instructionMask (s : State) : BitVec 64 := concat32 ((readGpr s 2).setWidth 32) ((readGpr s 0).setWidth 32)

/-- RFBM (40_xsavec.md R83). -/
def rfbm (s : State) : BitVec 64 := s.xcr0 &&& instructionMask s

/-- TO_BE_SAVED (40_xsavec.md R84). -/
def toBeSaved (s : State) : BitVec 64 :=
  if s.mxcsr ≠ 0x1F80 ∧ (rfbm s).getLsbD 1 = true then (rfbm s &&& s.xinuse) ||| 2 else rfbm s &&& s.xinuse

/-- The value of XCOMP_BV (40_xsavec.md R89). -/
def xcompBv (s : State) : BitVec 64 := rfbm s ||| 0x8000000000000000

/-! The compacted layout (20_memory.md R47). -/

/-- The components of the extended region, 2 to 62. -/
def componentIds : List Nat := List.range' 2 61

/-- CompSize(i) (10_state.md R18). -/
def compSize (p : Params) (i : Nat) : Nat := (p.compSize[i - 2]?.getD 0).toNat

/-- The offset of component i's slot when the running offset is `off`: the ALIGN64 step (20_memory.md R47). -/
def slotOffset (p : Params) (i off : Nat) : Nat :=
  if p.align64[i - 2]?.getD false then 64 * ((off + 63) / 64) else off

/-- A component's slot. -/
structure Slot where
  comp   : Nat
  offset : Nat
deriving DecidableEq, Repr

/-- The slots of the requested components of a list, from a running offset on (20_memory.md R47). -/
def slotsFrom (p : Params) (mask : BitVec 64) : List Nat → Nat → List Slot
  | [], _ => []
  | i :: is, off =>
    if mask.getLsbD i then ⟨i, slotOffset p i off⟩ :: slotsFrom p mask is (slotOffset p i off + compSize p i)
    else slotsFrom p mask is off

/-- The running offset after a list of components (20_memory.md R47). -/
def endFrom (p : Params) (mask : BitVec 64) : List Nat → Nat → Nat
  | [], off => off
  | i :: is, off =>
    if mask.getLsbD i then endFrom p mask is (slotOffset p i off + compSize p i) else endFrom p mask is off

/-- Layout(RFBM): every slot (20_memory.md R47). -/
def slots (s : State) : List Slot := slotsFrom s.params (rfbm s) componentIds 576

/-- AreaSize(RFBM) (20_memory.md R47). -/
def areaSize (s : State) : Nat := endFrom s.params (rfbm s) componentIds 576

/-! The images' default instance (20_memory.md R46, decision D3). -/

/-- A reserved byte of the x87 image at its offset (log 10). -/
def reserved (s : State) (off : Nat) : Nat × Byte := (off, Config.reservedByte s.x87 off)

/-- Whether register j of the x87 stack is not empty: its two-bit tag is not 11. -/
def tagUsed (tags : BitVec 16) (j : Nat) : Bool := tags.extractLsb' (2 * j) 2 != 3

/-- FTW, the abridged tag word: bit j is 1 when register j is not empty (log 14). -/
def abridgedTags (tags : BitVec 16) : Byte :=
  (List.range 8).foldl (fun v j => if tagUsed tags j then v ||| (1#8 <<< j) else v) 0

/-- One data register's slot: ten bytes of ST(k) and six reserved bytes. -/
def stImage (s : State) (k : Nat) : List (Nat × Byte) :=
  placeAt (32 + 16 * k) (bytesLE 10 (s.x87.st[k]?.getD 0)) ++ (List.range' (32 + 16 * k + 10) 6).map (reserved s)

/-- The last instruction and data pointers, offsets 8 to 23, the one difference between the forms (20_memory.md R46,
40_xsavec.md R94). -/
def pointerImage (s : State) : Form → List (Nat × Byte)
  | .xsavec64 => placeAt 8 (bytesLE 8 s.x87.fip) ++ placeAt 16 (bytesLE 8 s.x87.fdp)
  | .xsavec =>
    placeAt 8 (bytesLE 4 (s.x87.fip.setWidth 32)) ++ placeAt 12 (bytesLE 2 s.x87.fcs) ++ [reserved s 14, reserved s 15] ++
    (placeAt 16 (bytesLE 4 (s.x87.fdp.setWidth 32)) ++ placeAt 20 (bytesLE 2 s.x87.fds) ++ [reserved s 22, reserved s 23])

/-- FOP in bytes 7:6; the field's five bits above the 11-bit opcode are free (log 14). -/
def fopImage (s : State) : List (Nat × Byte) :=
  placeAt 6 (bytesLE 2 ((Config.reservedByte s.x87 7).extractLsb' 3 5 ++ s.x87.fop : BitVec 16))

/-- The default X87Image(s, form). -/
def standardX87 (s : State) (form : Form) : List (Nat × Byte) :=
  placeAt 0 (bytesLE 2 s.x87.fcw) ++ placeAt 2 (bytesLE 2 s.x87.fsw) ++ [(4, abridgedTags s.x87.tags), reserved s 5] ++
  fopImage s ++ pointerImage s form ++ (List.range 8).flatMap (stImage s)

/-- XMM_COUNT(mode) (00_scope.md R4). -/
def xmmCount (s : State) : Nat := if s.params.sixteenXmm.contains s.mode then 16 else 8

/-- The default SSEImage(s, mode): MXCSR, MXCSR_MASK and the XMM registers. -/
def standardSse (s : State) : List (Nat × Byte) :=
  placeAt 24 (bytesLE 4 s.mxcsr) ++ placeAt 28 (bytesLE 4 s.params.mxcsrMask) ++
  (List.range (xmmCount s)).flatMap (fun k => placeAt (160 + 16 * k) (bytesLE 16 (s.xmm[k]?.getD 0)))

/-! The images as parameters, under the laws of 20_memory.md R46 (log 14). -/

/-- Images other than the default: their number and where MXCSR and MXCSR_MASK stand. -/
structure OtherImages where
  id      : Nat
  mxcsrAt : Nat
  maskAt  : Nat
deriving DecidableEq, Repr

/-- The parameter's images, when they are others than the default and MXCSR and MXCSR_MASK fit into offsets 0 to 463 apart from each
other (laws 2 and 4); a parameter whose fields do not fit means the default. -/
def otherImages (p : Params) : Option OtherImages :=
  match p.images with
  | .standard => none
  | .other id m q => if m + 4 ≤ 464 ∧ q + 4 ≤ 464 ∧ (m + 4 ≤ q ∨ q + 4 ≤ m) then some ⟨id, m, q⟩ else none

/-- Where MXCSR stands in the legacy region (law 4). -/
def mxcsrOffset (p : Params) : Nat := ((otherImages p).map (·.mxcsrAt)).getD 24

/-- Where MXCSR_MASK stands in the legacy region (law 4). -/
def maskOffset (p : Params) : Nat := ((otherImages p).map (·.maskAt)).getD 28

/-- Whether an offset lies in a four-byte field. -/
def inField (field k : Nat) : Bool := decide (field ≤ k) && decide (k < field + 4)

/-- An SSEImage other than the default at one offset. -/
def otherSseAt (s : State) (o : OtherImages) (k : Nat) : Option (Nat × Byte) :=
  if inField o.mxcsrAt k then some (k, s.mxcsr.extractLsb' (8 * (k - o.mxcsrAt)) 8)
  else if inField o.maskAt k then some (k, s.params.mxcsrMask.extractLsb' (8 * (k - o.maskAt)) 8)
  else if Config.sseOffset o.id k then
    (Config.sseImageByte o.id s.xmm s.mxcsr s.params.mxcsrMask s.mode k).map (fun b => (k, b))
  else none

/-- An X87Image other than the default at one offset: none that is SSEImage's to fill (law 2). -/
def otherX87At (s : State) (form : Form) (o : OtherImages) (k : Nat) : Option (Nat × Byte) :=
  if inField o.mxcsrAt k || inField o.maskAt k || Config.sseOffset o.id k then none
  else if Config.x87Offset o.id s.x87 k then some (k, Config.x87ImageByte o.id s.x87 form k)
  else none

/-- X87Image(s, form) (20_memory.md R46). -/
def x87Image (s : State) (form : Form) : List (Nat × Byte) :=
  match otherImages s.params with
  | none => standardX87 s form
  | some o => (List.range 464).filterMap (otherX87At s form o)

/-- SSEImage(s, mode) (20_memory.md R46). -/
def sseImage (s : State) : List (Nat × Byte) :=
  match otherImages s.params with
  | none => standardSse s
  | some o => (List.range 464).filterMap (otherSseAt s o)

/-- CompImage(i, s): exactly CompSize(i) bytes (10_state.md R23, log 27). -/
def compImage (s : State) (i : Nat) : List Byte :=
  (List.range (compSize s.params i)).map (fun k => ((s.comps[i - 2]?.getD [])[k]?).getD 0)

/-! The stores (40_xsavec.md R85 to R89) as offsets in the area with their bytes. -/

/-- StoreX87 (40_xsavec.md R85). -/
def storeX87 (s : State) (form : Form) : List (Nat × Byte) :=
  if (toBeSaved s).getLsbD 0 then x87Image s form else []

/-- StoreSSE (40_xsavec.md R86). -/
def storeSse (s : State) : List (Nat × Byte) :=
  if (toBeSaved s).getLsbD 1 then sseImage s else []

/-- The store of one slot: only when the component is to be saved (40_xsavec.md R87). -/
def storeSlot (s : State) (sl : Slot) : List (Nat × Byte) :=
  if (toBeSaved s).getLsbD sl.comp then placeAt sl.offset (compImage s sl.comp) else []

/-- StoreExtended (40_xsavec.md R87). -/
def storeExtended (s : State) : List (Nat × Byte) := (slots s).flatMap (storeSlot s)

/-- XSTATE_BV at offset 512 (40_xsavec.md R88) and XCOMP_BV at offset 520 (R89). -/
def storeHeader (s : State) : List (Nat × Byte) :=
  placeAt 512 (bytesLE 8 (toBeSaved s)) ++ placeAt 520 (bytesLE 8 (xcompBv s))

/-- Every store of one XSAVEC; the offsets are the footprint W (20_memory.md R48). -/
def stores (s : State) (form : Form) : List (Nat × Byte) :=
  storeX87 s form ++ storeSse s ++ storeExtended s ++ storeHeader s

/-- The offsets whose bytes UNSAVED_SLOT_POLICY = any leaves open: images and requested slots of components that are not saved
(40_xsavec.md R90, log 13). -/
def unsavedOffsets (s : State) (form : Form) : List Nat :=
  (if (toBeSaved s).getLsbD 0 then [] else (x87Image s form).map Prod.fst) ++
  (if (toBeSaved s).getLsbD 1 then [] else (sseImage s).map Prod.fst) ++
  (slots s).flatMap (fun sl =>
    if (toBeSaved s).getLsbD sl.comp then [] else List.range' sl.offset (compSize s.params sl.comp))

/-- The free bytes of unsaved slots and images under the policy `any`, at the offsets that have a byte of their own. -/
def unsavedBytes (s : State) (form : Form) (t : Target) : List (Nat × Byte) :=
  match s.params.unsavedSlot with
  | .unchanged => []
  | .anyValue => ((unsavedOffsets s form).filter (hasByte s t)).map (fun k => (k, Config.freeByte s.draws k))

end Sys2Proof.Machine
end

