-- ==== Sys2Proof/Machine/Checks.lean ====
section
/-! DEFINITION. The exception conditions, their priority (60_exceptions.md R111 to R122) and what the spec refuses. -/

namespace Sys2Proof.Machine

/-- An exception to report: its mnemonic, its error code and the linear address CR2 records (60_exceptions.md R110). -/
structure Raised where
  x      : Exception
  code   : Option ErrorCode
  record : Option Word
deriving DecidableEq, Repr

/-- UD_condition (60_exceptions.md R111). -/
def udCondition (s : State) (op : Operand) : Bool :=
  !crOsxsave s || hasLock op.prefixes || !s.params.cpuidXsave || !s.params.cpuidXsavec

/-- SegLimitOK for one byte: the offset may be written through the segment (20_memory.md R53). -/
def segOffsetOk (g : Segment) (off : Nat) : Bool := g.accessible.any (·.has off)

/-- CANONICAL (20_memory.md R54), false beyond the 64-bit addresses (R56); with `n` implemented bits, bits 63 to n-1 are all zero or
all one. -/
def canonical (c : Canonical) (a : Nat) : Bool :=
  decide (a < 2 ^ 64) &&
  match c with
  | .bits n => decide (a < 2 ^ (n - 1)) || decide (2 ^ 64 - 2 ^ (n - 1) ≤ a)
  | .ranges rs => rs.any (·.has a)

/-- PageFault(la, write) (20_memory.md R55). -/
def pageFault (s : State) (la : Nat) : Option ErrorCode := (s.pageFaults.find? (·.range.has la)).map (·.code)

/-- Whether the byte at offset k passes the mode's limit, 64 KiB or canonical check (60_exceptions.md R113, R115, R117, R119). -/
def extentOk (s : State) (t : Target) (k : Nat) : Bool :=
  match s.mode with
  | .realAddress => decide (t.ea + k ≤ 0xFFFF)
  | .bits64 => canonical s.params.canonForm (byteAddress s t k)
  | .protectedMode | .compatibility | .virtual8086 => segOffsetOk (segment s t.seg) (t.ea + k)

/-- Whether the byte at offset k page-faults; never in real-address mode (60_exceptions.md R116). -/
def pageBad (s : State) (t : Target) (k : Nat) : Bool :=
  s.mode != .realAddress && (pageFault s (byteAddress s t k)).isSome

/-- The exception of a failed extent check: #GP, or #SS(0) through SS outside real-address mode (60_exceptions.md R113, R115, R117,
R119). -/
def extentException (s : State) (t : Target) : Raised :=
  if s.mode = .realAddress then ⟨.gp, none, none⟩
  else if t.seg = .ss then ⟨.ss, some 0, none⟩
  else ⟨.gp, some 0, none⟩

/-- The limit, canonical or 64 KiB check over the checked extent: a byte of W that fails must raise, one of Operand alone may
(60_exceptions.md R121, log 11). -/
def extentCheck (s : State) (form : Form) (t : Target) : Option Raised :=
  if (stores s form).any (fun w => !extentOk s t w.1) ||
      ((List.range (areaSize s)).any (fun k => !extentOk s t k) && Config.mayRaiseExtent s.draws) then
    some (extentException s t)
  else none

/-- The address the alignment test is applied to (20_memory.md R42). -/
def alignedAddress (s : State) (t : Target) : Nat :=
  match s.params.alignOn with
  | .linear => t.area
  | .effective => t.ea

/-- Misalignment: #GP, or by AC_POLICY #AC(0) when alignment checking is enabled and CPL = 3 (60_exceptions.md R114, R118). -/
def alignmentCheck (s : State) (t : Target) : Option Raised :=
  if alignedAddress s t % 64 = 0 then none
  else if s.mode ≠ .realAddress ∧ acEnabled s = true ∧ cpl s = 3 ∧
      s.params.acMisaligned.contains (alignedAddress s t % 64) = true then
    some ⟨.ac, some 0, none⟩
  else some ⟨.gp, zeroCode s.mode, none⟩

/-- The faulting bytes of the checked extent: linear address and fault code. -/
def faultingBytes (s : State) (t : Target) : List (Nat × ErrorCode) :=
  if s.mode = .realAddress then []
  else (List.range (areaSize s)).filterMap (fun k => (pageFault s (byteAddress s t k)).map (fun c => (byteAddress s t k, c)))

/-- Page faults: a byte of W that faults must raise, one of Operand alone may (60_exceptions.md R121); the code and CR2 are those
of some faulting byte (R123). -/
def pageCheck (s : State) (form : Form) (t : Target) : Option Raised :=
  match faultingBytes s t with
  | [] => none
  | b :: bs =>
    if (stores s form).any (fun w => pageBad s t w.1) || Config.mayRaisePage s.draws then
      let p := ((b :: bs)[Config.faultPick s.draws % (bs.length + 1)]?).getD b
      some ⟨.pf, some p.2, some (BitVec.ofNat 64 p.1)⟩
    else none

/-- The check of one priority level (60_exceptions.md R122). -/
def check (s : State) (form : Form) (op : Operand) (t : Target) : CheckClass → Option Raised
  | .ud => if udCondition s op then some ⟨.ud, none, none⟩ else none
  | .nm => if crTs s then some ⟨.nm, none, none⟩ else none
  | .extent => extentCheck s form t
  | .alignment => alignmentCheck s t
  | .page => pageCheck s form t

/-- The exception reported: the first that applies in the order PRIORITY; levels an order leaves out come last
(60_exceptions.md R122, log 15). -/
def reported (s : State) (form : Form) (op : Operand) (t : Target) : Option Raised :=
  (s.params.priority ++ defaultPriority).findSome? (check s form op t)

/-- Whether the operand wraps around 2^32 in a mode where the spec refuses it: real-address and 64-bit mode have fault rules for a
wrap (20_memory.md R56, decision D22). -/
def wraps (s : State) (t : Target) : Bool :=
  s.mode != .realAddress && s.mode != .bits64 && decide (2 ^ 32 < t.area + areaSize s)

/-- The operand's linear addresses, as one range, or as two where they pass 2^32 in real-address mode. -/
def spans (s : State) (t : Target) : List Range :=
  if s.mode = .realAddress ∧ 2 ^ 32 < t.area + areaSize s then
    [⟨t.area, 2 ^ 32 - 1⟩, ⟨0, min (t.area + areaSize s - 2 ^ 32) (2 ^ 32) - 1⟩]
  else [⟨t.area, t.area + areaSize s - 1⟩]

/-- Whether a linear address lies in the operand. -/
def inOperand (s : State) (t : Target) (a : Nat) : Bool := (spans s t).any (·.has a)

/-- Whether a range meets the operand. -/
def meetsOperand (s : State) (t : Target) (r : Range) : Bool :=
  (spans s t).any (fun q => decide (max r.lo q.lo ≤ min r.hi q.hi))

/-- Whether the operand touches the instruction's own bytes or those of an instruction run before (20_memory.md R57). -/
def onCode (s : State) (t : Target) (len : Nat) : Bool :=
  (List.range len).any (fun k => inOperand s t (codeAddress s k)) || s.codeSeen.any (inOperand s t)

/-- What the spec gives no meaning: a wrapped operand (20_memory.md R56), an operand in device memory or code (R50, R57). -/
def operandRefusal (s : State) (t : Target) (len : Nat) : Option Refusal :=
  if wraps s t then some .addressWrap
  else
    match s.regions.find? (fun r => meetsOperand s t r.range) with
    | some r => some (.notOrdinary r.kind)
    | none => if onCode s t len then some (.notOrdinary .code) else none

end Sys2Proof.Machine
end

