-- ==== Sys2Proof/Machine/Xsavec.lean ====
section
/-! DEFINITION. The two instructions (40_xsavec.md R80, R81) over one shared operation. -/

namespace Sys2Proof.Machine

/-- Whether a store of W had already happened when #PF was raised: a byte that does not itself page-fault, by
FAULT_WRITE_POLICY (60_exceptions.md R123, log 12). -/
def storedAtFault (s : State) (t : Target) (k : Nat) : Bool :=
  s.params.faultWrite == .someBytes && hasByte s t k && !pageBad s t k && Config.storedBeforeFault s.draws k

/-- The state at a fault (60_exceptions.md R123): nothing changes, but for #PF, where bytes of W may already be stored and CR2
records the address (R110, log 9). -/
def faultState (s : State) (form : Form) (t : Target) (r : Raised) : State :=
  match r.record with
  | none => tick s
  | some la =>
    { tick s with
      cr2 := la
      mem := storeAll s.mem (byteAddress s t) ((stores s form).filter (fun w => storedAtFault s t w.1))
      areasWritten := spans s t ++ s.areasWritten }

/-- The linear addresses of the code bytes of an instruction at pc. -/
def codeBytes (s : State) (len : Nat) : List Nat := (List.range len).map (codeAddress s)

/-- The state after completion: the stores, then pc + L (40_xsavec.md R85 to R91); the run's code and operands are kept for
20_memory.md R57 (log 22). -/
def completed (s : State) (form : Form) (t : Target) (len : Nat) : State :=
  { tick s with
    mem := storeAll s.mem (byteAddress s t) (stores s form ++ unsavedBytes s form t)
    pc  := s.pc + BitVec.ofNat 64 len
    codeSeen := codeBytes s len ++ s.codeSeen
    areasWritten := spans s t ++ s.areasWritten }

/-- When no exception applies: completion, unless the spec refuses the operand or pc + L wraps (10_state.md R12). -/
def complete (s : State) (form : Form) (t : Target) (len : Nat) : Outcome :=
  match operandRefusal s t len with
  | some q => .refused q
  | none => if 2 ^ pcWidth s.mode ≤ s.pc.toNat + len then .refused .pcWrap else .next (completed s form t len)

/-- When an exception is reported. A page fault leaves stores behind, so an operand the spec refuses is refused first (log 20). -/
def raise (s : State) (form : Form) (t : Target) (len : Nat) (r : Raised) : Outcome :=
  match r.record, operandRefusal s t len with
  | some _, some q => .refused q
  | _, _ => takeException r.x r.code (faultState s form t r)

/-- XSAVEC_common(form, seg, EA, L) (40_xsavec.md R80): every check before any store (R92). -/
def xsavecCommon (form : Form) (op : Operand) (len : Nat) (s : State) : Outcome :=
  match reported s form op (resolve s op len) with
  | some r => raise s form (resolve s op len) len r
  | none => complete s form (resolve s op len) len

/-- XSAVEC mem (40_xsavec.md R80). -/
def execXsavec (op : Operand) (s : State) : Outcome := xsavecCommon .xsavec op (instrLength (.xsavec op)) s

/-- XSAVEC64 mem, in 64-bit mode only (40_xsavec.md R81, 30_encoding.md R72). -/
def execXsavec64 (op : Operand) (s : State) : Outcome :=
  if s.mode = .bits64 then xsavecCommon .xsavec64 op (instrLength (.xsavec64 op)) s else .refused .notEncodable

end Sys2Proof.Machine
end

