-- ==== Sys2Proof/Machine/Dispatch.lean ====
section
/-! DEFINITION. One arm per instruction: the meaning of each row of the opcode table. -/

namespace Sys2Proof.Machine

def exec (i : Instr) (s : State) : Host.Outcome State Fault Refusal :=
  match i with
  | .xsavec op => Sys2Proof.Machine.execXsavec op s
  | .xsavec64 op => Sys2Proof.Machine.execXsavec64 op s

end Sys2Proof.Machine
end

