-- ==== Sys2Proof/Machine/Fetch.lean ====
section
/-! DEFINITION. What the machine does with the bytes at pc: run the decoded instruction, raise an exception, or stop by name. -/

namespace Sys2Proof.Machine

/-- When the bytes end before the instruction does: it runs past the last pc of the mode, which the spec does not model
(10_state.md R12, log 21), or memory lists no such byte (log 6). -/
def fetchEnd (s : State) (n : Nat) : Outcome :=
  if s.pc.toNat + n < 2 ^ pcWidth s.mode then .fault (.fetchAbsent (codeAddress s n)) else .refused .pcWrap

/-- What the `n` bytes of code at pc mean, unless an XSAVEC of the run stored over them (20_memory.md R57, log 22). -/
def unlessOverwritten (s : State) (n : Nat) (o : Outcome) : Outcome :=
  if overwritten s n then .refused (.notOrdinary .code) else o

/-- The outcome of a decoder's verdict: #UD for the encodings of 30_encoding.md R63 and R65, #GP(0) beyond 15 bytes (R71). -/
def runDecoded (s : State) : Decoded → Outcome
  | .instr i => unlessOverwritten s (instrLength i) (exec i s)
  | .undefined len => unlessOverwritten s len (takeException .ud none (tick s))
  | .tooLong => unlessOverwritten s 15 (takeException .gp (zeroCode s.mode) (tick s))
  | .truncated => fetchEnd s (fetchBytes s).length
  | .outOfScope => .refused .outOfScope

/-- A table word placed where the next instruction is fetched, in the mode table words are read in, as code no XSAVEC has stored over
(log 24). -/
def placeTableWord (s : State) (nbits w : Nat) : State :=
  let s64 : State := { s with mode := tableMode.mode, areasWritten := [] }
  { s64 with mem := storeCode s64 (tableStream nbits w) }

end Sys2Proof.Machine
end

