-- ==== Sys2Proof/Machine/Step.lean ====
section
/-! DEFINITION. One step: fetch at pc, decode, run (30_encoding.md R60, 70_reset_and_hazards.md R145). -/

namespace Sys2Proof.Machine

/-- One step of the machine. -/
def step (s : State) : Host.Outcome State Fault Refusal :=
  runDecoded s (decode (codeMode s) (fetchBytes s))

/-- A state whose next step fetches and runs the instruction of a table word: its bytes, then zeros, at pc, in 64-bit mode
(log 24). -/
def State.withFetchWord (s : State) (nbits w : Nat) : State := placeTableWord s nbits w

end Sys2Proof.Machine
end

