-- ==== Sys2Proof/Safety.lean ====
section
/-! DEFINITION. What a safe run is: the launch premises of 70_reset_and_hazards.md R142, the end of a run (R145), and the
invariant every step keeps. -/

namespace Sys2Proof.Machine

/-- Where an instruction's operand lies. -/
def targetOf (i : Instr) (s : State) : Target := resolve s (instrOperand i) (instrLength i)

/-- XSAVEC64 exists in 64-bit mode only (30_encoding.md R72). -/
def ModeOk (i : Instr) (s : State) : Prop := instrForm i = .xsavec64 → s.mode = .bits64

/-- Premise `Enabled`: points 1 to 3 of R140. -/
def Enabled (s : State) : Prop :=
  s.params.cpuidXsave = true ∧ s.params.cpuidXsavec = true ∧ crOsxsave s = true ∧ crTs s = false

/-- No LOCK prefix: point 7 of R140. -/
def NoLock (i : Instr) : Prop := hasLock (instrOperand i).prefixes = false

/-- Premise `LegalXCR0`: XCR0_LEGAL(XCR0) (10_state.md R14). -/
def LegalXCR0 (s : State) : Prop := legalXcr0 s.params.xcr0Legal s.xcr0 = true

/-- The initial configuration of component i, CompSize(i) bytes of the implementation (10_state.md R20, R23, log 28). -/
def initialComp (p : Params) (i : Nat) : List Byte := (List.range (compSize p i)).map (Config.initialCompByte p i)

/-- Premise `XinuseSound`: XINUSE[i] = 0 implies component i is in its initial configuration, MXCSR excepted (10_state.md R20). -/
def XinuseSound (s : State) : Prop :=
  (s.xinuse.getLsbD 0 = false → s.x87 = Config.initialX87 s.params) ∧
  (s.xinuse.getLsbD 1 = false → s.xmm = Vector.replicate 16 0) ∧
  ∀ i ∈ componentIds, s.xinuse.getLsbD i = false → compImage s i = initialComp s.params i

/-- Premise `AreaAligned`: linear and effective address are multiples of 64, so that ALIGN_CHECK_ON does not matter. -/
def AreaAligned (t : Target) : Prop := t.area % 64 = 0 ∧ t.ea % 64 = 0

/-- Premise `AreaAccessible`: every byte of Area + Operand passes the limit, canonical, 64 KiB and paging checks. -/
def AreaAccessible (s : State) (t : Target) : Prop :=
  ∀ k < areaSize s, extentOk s t k = true ∧ pageBad s t k = false

/-- Premise `AreaNoWrap`: the area does not wrap around the address width: 2^16 effective in real-address mode, else 2^32 or 2^64
linear (20_memory.md R56). -/
def AreaNoWrap (s : State) (t : Target) : Prop :=
  if s.mode = .realAddress then t.ea + areaSize s ≤ 2 ^ 16 else t.area + areaSize s ≤ 2 ^ linearWidth s.mode

/-- Premise `AreaOrdinary` at one instruction: no byte of the area is device memory, declared code, or code this run has fetched, the
instruction itself included (20_memory.md R50, R57). For the code the run fetches later see `OffProgram`. -/
def AreaOrdinary (s : State) (t : Target) (len : Nat) : Prop :=
  (∀ r ∈ s.regions, meetsOperand s t r.range = false) ∧ onCode s t len = false

/-- `pc + L` does not wrap (10_state.md R12). -/
def PcFits (s : State) (len : Nat) : Prop := s.pc.toNat + len < 2 ^ pcWidth s.mode

/-- Premise `CodeWellFormed`: the bytes at pc are those of a well-formed instruction, no XSAVEC of the run stored over them (R57), and
`pc + L` does not wrap. -/
def CodeWellFormed (s : State) (i : Instr) : Prop :=
  i.wellFormed (codeMode s) = true ∧ PcFits s (instrLength i) ∧ overwritten s (instrLength i) = false ∧
  ∀ k < instrLength i, Memory.read s.mem (codeAddress s k) = (encode i)[k]?

/-- The launch premises under which an instruction completes (R140, R142). `NoDebug` has nothing to constrain: the state holds no
breakpoint and no pending interrupt (log 25). -/
def Launch (s : State) (i : Instr) : Prop :=
  ModeOk i s ∧ Enabled s ∧ NoLock i ∧ AreaAligned (targetOf i s) ∧ AreaAccessible s (targetOf i s) ∧
  AreaNoWrap s (targetOf i s) ∧ AreaOrdinary s (targetOf i s) (instrLength i) ∧ PcFits s (instrLength i)

/-- A safe step: it ends in a next state. -/
def SafeStep (s : State) : Prop := ∃ t, step s = .next t

/-! Programs and runs (R145). -/

/-- A program: XSAVEC and XSAVEC64 instructions back to back from the address `base` on. -/
structure Program where
  base   : Word
  instrs : List Instr
deriving DecidableEq, Repr

/-- The program's byte string. -/
def Program.bytes (p : Program) : List Byte := p.instrs.flatMap encode

/-- Where the program ends: base + length of the byte string. -/
def Program.stop (p : Program) : Word := p.base + BitVec.ofNat 64 p.bytes.length

/-- A run of the program starts here: pc = base, the byte string stands in memory from pc on, through CS, every instruction is
well-formed, the program does not wrap, and nothing has stored over it. -/
def Program.StartsIn (p : Program) (s : State) : Prop :=
  s.pc = p.base ∧ (∀ i ∈ p.instrs, i.wellFormed (codeMode s) = true) ∧
  s.pc.toNat + p.bytes.length < 2 ^ pcWidth s.mode ∧ overwritten s p.bytes.length = false ∧
  ∀ k < p.bytes.length, Memory.read s.mem (codeAddress s k) = p.bytes[k]?

/-- The linear addresses of the program's bytes, from a state whose pc is the base. -/
def Program.addresses (p : Program) (s : State) : List Nat := codeBytes s p.bytes.length

/-- Premise `AreaOrdinary`, for the code the run has yet to fetch: the operand misses every one of the program's bytes (R57). -/
def OffProgram (code : List Nat) (s : State) (t : Target) : Prop := ∀ a ∈ code, inOperand s t a = false

/-- Instructions run one after the other, without fetching. -/
def execAll : List Instr → State → Outcome
  | [], s => .next s
  | i :: is, s =>
    match exec i s with
    | .next t => execAll is t
    | .fault f => .fault f
    | .refused q => .refused q

/-- The premises of R142 at every instruction of a list, run one after the other. -/
def LaunchAll (code : List Nat) : List Instr → State → Prop
  | [], _ => True
  | i :: is, s =>
    Launch s i ∧ OffProgram code s (targetOf i s) ∧ ∀ t, exec i s = .next t → LaunchAll code is t

/-- How a run stands. Only `final` is a final state (R145). -/
inductive RunResult
  /-- pc = base + length of the byte string. -/
  | final (s : State)
  /-- The run ended with a fault outcome, which is not a final state. -/
  | faulted (f : Fault)
  /-- The model gives the run no meaning. -/
  | refused (q : Refusal)
  /-- Not ended after the steps allowed. -/
  | running (s : State)
deriving DecidableEq, Repr

/-- The run of a program for at most `fuel` steps. -/
def Program.run (p : Program) : Nat → State → RunResult
  | 0, s => if s.pc = p.stop then .final s else .running s
  | fuel + 1, s =>
    if s.pc = p.stop then .final s
    else
      match step s with
      | .next t => p.run fuel t
      | .fault f => .faulted f
      | .refused q => .refused q

/-- The invariant every step keeps: memory in canonical form, pc inside the mode's width, a legal XCR0, a sound XINUSE. -/
def Inv (s : State) : Prop :=
  Memory.wf s.mem ∧ s.pc.toNat < 2 ^ pcWidth s.mode ∧ LegalXCR0 s ∧ XinuseSound s

/-- The default order of the exceptions (60_exceptions.md R122, decision D6). -/
def DefaultOrder (s : State) : Prop := s.params.priority = defaultPriority

end Sys2Proof.Machine
end

