-- ==== Sys2Proof/Certificates/Slice0/Obligations.lean ====
section
/-! DEFINITION. The statements for the provers. Every statement is about an arbitrary state, so it holds for every value of the
implementation's constants (`State.params`), of the oracles and of the draw counter, unless it says otherwise. -/

open Sys2Proof Sys2Proof.Machine

/-! ## Encoding -/

/-- 30_encoding.md R60 to R71: the decoder reads back every well-formed instruction from its bytes, whatever follows them, in every
mode. -/
def Obligations.DecodeReadsBackEncoding : Prop :=
  ∀ (cm : CodeMode) (i : Instr) (rest : List Byte), i.wellFormed cm = true → decode cm (encode i ++ rest) = .instr i

/-- 30_encoding.md R60 to R73: what the decoder accepts is a well-formed instruction, and the bytes begin with its encoding, so no
two byte strings of one length mean the same instruction and no other string is accepted. -/
def Obligations.DecodedBytesAreTheEncoding : Prop :=
  ∀ (cm : CodeMode) (bs : List Byte) (i : Instr), decode cm bs = .instr i →
    i.wellFormed cm = true ∧ ∃ rest, bs = encode i ++ rest

/-- 30_encoding.md section 6 and 95_test_vectors.md section 2.5, and for the last six the tables of R67, R68 and R69 (`0F C7 27` is
`[bx]` with 16-bit addressing, `[edi]` with 32-bit): words written out from the spec decode to what they stand for. -/
def Obligations.WorkedEncodingsDecode : Prop :=
  decode ⟨.bits64, .bits32⟩ [0x0F, 0xC7, 0x27] = .instr (.xsavec ⟨[], none, .based 7 .noDisp⟩) ∧
  decode ⟨.bits64, .bits32⟩ [0x48, 0x0F, 0xC7, 0x66, 0x40] =
    .instr (.xsavec64 ⟨[], some ⟨false, false, false⟩, .based 6 (.disp8 0x40)⟩) ∧
  decode ⟨.bits64, .bits32⟩ [0x49, 0x0F, 0xC7, 0x24, 0x24] =
    .instr (.xsavec64 ⟨[], some ⟨false, false, true⟩, .sib 0 4 4 .noDisp⟩) ∧
  decode ⟨.bits64, .bits32⟩ [0x64, 0x0F, 0xC7, 0xA4, 0xCB, 0x00, 0x01, 0x00, 0x00] =
    .instr (.xsavec ⟨[.seg .fs], none, .sib 3 1 3 (.disp32 0x100)⟩) ∧
  decode ⟨.realAddress, .bits16⟩ [0x0F, 0xC7, 0x26, 0x00, 0x80] = .instr (.xsavec ⟨[], none, .direct16 0x8000⟩) ∧
  decode ⟨.protectedMode, .bits32⟩ [0x0F, 0xC7, 0x25, 0x00, 0x20, 0x40, 0x00] =
    .instr (.xsavec ⟨[], none, .direct 0x00402000⟩) ∧
  decode ⟨.virtual8086, .bits16⟩ [0x0F, 0xC7, 0x27] = .instr (.xsavec ⟨[], none, .based16 7 .noDisp⟩) ∧
  decode ⟨.protectedMode, .bits16⟩ [0x0F, 0xC7, 0x27] = .instr (.xsavec ⟨[], none, .based16 7 .noDisp⟩) ∧
  decode ⟨.compatibility, .bits16⟩ [0x67, 0x0F, 0xC7, 0x27] = .instr (.xsavec ⟨[.addrSize], none, .based 7 .noDisp⟩) ∧
  decode ⟨.protectedMode, .bits32⟩ [0x67, 0x0F, 0xC7, 0x27] = .instr (.xsavec ⟨[.addrSize], none, .based16 7 .noDisp⟩) ∧
  decode ⟨.compatibility, .bits32⟩ [0x0F, 0xC7, 0x27] = .instr (.xsavec ⟨[], none, .based 7 .noDisp⟩) ∧
  decode ⟨.realAddress, .bits16⟩ [0x67, 0x0F, 0xC7, 0x27] = .instr (.xsavec ⟨[.addrSize], none, .based 7 .noDisp⟩)

/-- 30_encoding.md R62, R72, 93 U7: XSAVEC64 exists in 64-bit mode only: the decoder answers it nowhere else, a byte 40 to 4F is another
instruction there, and (log 23) XSAVEC64 itself is refused by name outside 64-bit mode. -/
def Obligations.Xsavec64OnlyInLongMode : Prop :=
  (∀ (cm : CodeMode) (bs : List Byte) (op : Operand), decode cm bs = .instr (.xsavec64 op) → cm.mode = .bits64) ∧
  (∀ (cm : CodeMode) (low : BitVec 4) (bs : List Byte), cm.mode ≠ .bits64 → decode cm ((4#4 ++ low) :: bs) = .outOfScope) ∧
  (∀ (op : Operand) (s : State), s.mode ≠ .bits64 → exec (.xsavec64 op) s = .refused .notEncodable)

/-- 30_encoding.md R63, R65, R73 (decision D16): `0F C7 /4` with a prefix 66, F2 or F3, and the register form mod = 11, behind every
list of prefixes and with or without REX, raise #UD with no error code, whatever the control bits are (log 19); code an XSAVEC of the
run stored over is refused instead (log 22). -/
def Obligations.UndefinedEncodingsRaiseUd : Prop :=
  (∀ (s : State) (w : Bool) (op : Operand) (rest : List Byte), op.shapeOk (codeMode s) = true →
    hasMandatory op.prefixes = true → fetchBytes s = encodeOperand w op ++ rest → overwritten s (operandLength op) = false →
    step s = .fault (.exception .ud none (tick s))) ∧
  (∀ (s : State) (w : Bool) (op : Operand) (rm : BitVec 3) (rest : List Byte), op.rexOk s.mode = true →
    fetchBytes s = op.prefixes.map prefixByte ++ (encodeRex w op.rex ++ 0x0F#8 :: 0xC7#8 :: modrmByte 3#2 rm :: rest) →
    overwritten s (op.prefixes.length + (encodeRex w op.rex).length + 3) = false →
    step s = .fault (.exception .ud none (tick s)))

/-- 30_encoding.md R71, R73: an instruction longer than 15 bytes raises #GP instead of executing, with error code 0, and none in
real-address mode (60_exceptions.md R110, log 16); code an XSAVEC of the run stored over is refused instead (log 22). -/
def Obligations.OverlongInstructionRaisesGp : Prop :=
  ∀ (s : State) (i : Instr), (instrOperand i).shapeOk (codeMode s) = true →
    (instrForm i = .xsavec64 → s.mode = .bits64 ∧ (instrOperand i).rex.isSome = true) →
    15 < instrLength i → fetchBytes s = (encode i).take 15 → overwritten s 15 = false →
    step s = .fault (.exception .gp (zeroCode s.mode) (tick s))

/-- 30_encoding.md R73: `0F C7 /r` with reg other than 4 is another instruction, refused by name, behind every list of prefixes and
with or without REX. -/
def Obligations.OtherGroupMembersRefused : Prop :=
  ∀ (s : State) (w : Bool) (op : Operand) (modrm : Byte) (rest : List Byte), op.rexOk s.mode = true →
    modrm.extractLsb' 3 3 ≠ 4#3 →
    fetchBytes s = op.prefixes.map prefixByte ++ (encodeRex w op.rex ++ 0x0F#8 :: 0xC7#8 :: modrm :: rest) →
    step s = .refused .outOfScope

/-! ## The step -/

/-- A step runs the decoded instruction: when the decoder reads i from the bytes at pc, step is exec of i; where an XSAVEC of the run
stored over those bytes, the step is refused by name instead (20_memory.md R57, log 22). -/
def Obligations.StepRunsDecodedInstr : Prop :=
  ∀ (s : State) (i : Instr), decode (codeMode s) (fetchBytes s) = .instr i →
    (overwritten s (instrLength i) = false → step s = exec i s) ∧
    (overwritten s (instrLength i) = true → step s = .refused (.notOrdinary .code))

/-- When memory holds the encoding of a well-formed instruction from pc on, through CS, step is exec of it
(70_reset_and_hazards.md R142, premise CodeWellFormed). -/
def Obligations.StepRunsInstructionAtPc : Prop :=
  ∀ (s : State) (i : Instr), CodeWellFormed s i → step s = exec i s

/-- A whole-machine rule (10_state.md R29, 70_reset_and_hazards.md R146): a step that goes on ran XSAVEC or XSAVEC64, moved pc past
it, and changed nothing else but memory and the model's own fields: the draw counter (log 10) and the record of the run's code and
operands (log 22). -/
def Obligations.StepChangesOnlyPcAndMemory : Prop :=
  ∀ (s t : State), step s = .next t →
    ∃ i : Instr, decode (codeMode s) (fetchBytes s) = .instr i ∧ t.pc = s.pc + BitVec.ofNat 64 (instrLength i) ∧
      s.pc.toNat + instrLength i < 2 ^ pcWidth s.mode ∧
      t = { s with
        pc := t.pc, mem := t.mem, draws := s.draws + 1, codeSeen := codeBytes s (instrLength i) ++ s.codeSeen
        areasWritten := spans s (targetOf i s) ++ s.areasWritten }

/-! ## Completion -/

/-- 40_xsavec.md R80, 70_reset_and_hazards.md R140: under the launch premises XSAVEC completes: its stores are done and pc moves on
by L; nothing else changes but the model's own fields: the draw counter (log 10) and the record of the run's code and operands
(log 22). -/
def Obligations.XsavecCompletes : Prop :=
  ∀ (op : Operand) (s : State), Launch s (.xsavec op) →
    exec (.xsavec op) s = .next { s with
      mem := storeAll s.mem (byteAddress s (targetOf (.xsavec op) s))
        (stores s .xsavec ++ unsavedBytes s .xsavec (targetOf (.xsavec op) s))
      pc := s.pc + BitVec.ofNat 64 (instrLength (.xsavec op))
      codeSeen := codeBytes s (instrLength (.xsavec op)) ++ s.codeSeen
      areasWritten := spans s (targetOf (.xsavec op) s) ++ s.areasWritten
      draws := s.draws + 1 }

/-- 40_xsavec.md R81, 70_reset_and_hazards.md R140: the same of XSAVEC64. -/
def Obligations.Xsavec64Completes : Prop :=
  ∀ (op : Operand) (s : State), Launch s (.xsavec64 op) →
    exec (.xsavec64 op) s = .next { s with
      mem := storeAll s.mem (byteAddress s (targetOf (.xsavec64 op) s))
        (stores s .xsavec64 ++ unsavedBytes s .xsavec64 (targetOf (.xsavec64 op) s))
      pc := s.pc + BitVec.ofNat 64 (instrLength (.xsavec64 op))
      codeSeen := codeBytes s (instrLength (.xsavec64 op)) ++ s.codeSeen
      areasWritten := spans s (targetOf (.xsavec64 op) s) ++ s.areasWritten
      draws := s.draws + 1 }

/-! ## The masks -/

/-- 40_xsavec.md R82: the instruction mask is EDX:EAX; the upper halves of RDX and RAX, and every other register, have no part in
it. -/
def Obligations.InstructionMaskIsEdxEax : Prop :=
  (∀ s : State, (instructionMask s).extractLsb' 32 32 = (readGpr s 2).extractLsb' 0 32 ∧
    (instructionMask s).extractLsb' 0 32 = (readGpr s 0).extractLsb' 0 32) ∧
  (∀ s s' : State, (readGpr s 2).extractLsb' 0 32 = (readGpr s' 2).extractLsb' 0 32 →
    (readGpr s 0).extractLsb' 0 32 = (readGpr s' 0).extractLsb' 0 32 → instructionMask s = instructionMask s')

/-- 40_xsavec.md R83, 10_state.md R10: RFBM is XCR0 AND the mask, and the mask bears on an execution only through RFBM: with the same
RFBM and the same operand address, the same exceptions apply and the same bytes are stored. -/
def Obligations.MaskActsOnlyThroughRfbm : Prop :=
  (∀ (s : State) (k : Nat), (rfbm s).getLsbD k = (s.xcr0.getLsbD k && (instructionMask s).getLsbD k)) ∧
  (∀ (i : Instr) (s : State) (regs : Vector Word 16), rfbm { s with gpr := regs } = rfbm s →
    targetOf i { s with gpr := regs } = targetOf i s →
    reported { s with gpr := regs } (instrForm i) (instrOperand i) (targetOf i { s with gpr := regs }) =
        reported s (instrForm i) (instrOperand i) (targetOf i s) ∧
      stores { s with gpr := regs } (instrForm i) = stores s (instrForm i) ∧
      areaSize { s with gpr := regs } = areaSize s)

/-- 40_xsavec.md R84: component i is saved if and only if TO_BE_SAVED[i] = 1, with the MXCSR exception for component 1. -/
def Obligations.ToBeSavedBits : Prop :=
  ∀ s : State,
    (∀ k, k ≠ 1 → (toBeSaved s).getLsbD k = ((rfbm s).getLsbD k && s.xinuse.getLsbD k)) ∧
    (toBeSaved s).getLsbD 1 = ((rfbm s).getLsbD 1 && (s.xinuse.getLsbD 1 || s.mxcsr != 0x1F80)) ∧
    (∀ form w, w ∈ x87Image s form → (w ∈ stores s form ↔ (toBeSaved s).getLsbD 0 = true)) ∧
    (∀ form w, w ∈ sseImage s → (w ∈ stores s form ↔ (toBeSaved s).getLsbD 1 = true)) ∧
    (∀ form, ∀ sl ∈ slots s, ∀ w ∈ placeAt sl.offset (compImage s sl.comp),
      (w ∈ stores s form ↔ (toBeSaved s).getLsbD sl.comp = true))

/-! ## What is in memory afterwards -/

/-- 40_xsavec.md R88: XSTATE_BV is overwritten with TO_BE_SAVED, whatever it held; bits clear in RFBM are cleared; for i up to 62 its
bit i is set exactly when the execution stored component i (one whose image has no byte has none to store). -/
def Obligations.XstateBvIsToBeSaved : Prop :=
  ∀ (i : Instr) (s t : State), exec i s = .next t →
    readAt t.mem (byteAddress s (targetOf i s)) 512 8 = some (toBeSaved s).toNat ∧
    (∀ k, (rfbm s).getLsbD k = false → (toBeSaved s).getLsbD k = false) ∧
    (x87Image s (instrForm i) ≠ [] →
      ((toBeSaved s).getLsbD 0 = true ↔ ∃ w ∈ x87Image s (instrForm i), w ∈ stores s (instrForm i))) ∧
    ((toBeSaved s).getLsbD 1 = true ↔ ∃ w ∈ sseImage s, w ∈ stores s (instrForm i)) ∧
    (∀ k ∈ componentIds, 0 < compSize s.params k →
      ((toBeSaved s).getLsbD k = true ↔
        ∃ sl ∈ slots s, sl.comp = k ∧ ∃ w ∈ placeAt sl.offset (compImage s k), w ∈ stores s (instrForm i)))

/-- 40_xsavec.md R89: XCOMP_BV is overwritten with RFBM OR 80000000_00000000H: bit 63 set, bits 62:0 those of RFBM; it records which
slots exist, and TO_BE_SAVED (XSTATE_BV, R88) which slots were filled. -/
def Obligations.XcompBvIsRfbmWithBit63 : Prop :=
  ∀ (i : Instr) (s t : State), exec i s = .next t →
    readAt t.mem (byteAddress s (targetOf i s)) 520 8 = some (rfbm s ||| 0x8000000000000000).toNat ∧
    (rfbm s ||| 0x8000000000000000).getLsbD 63 = true ∧
    (∀ k ≤ 62, (rfbm s ||| 0x8000000000000000).getLsbD k = (rfbm s).getLsbD k) ∧
    (∀ k ∈ componentIds, ((rfbm s).getLsbD k = true ↔ ∃ sl ∈ slots s, sl.comp = k)) ∧
    ∀ sl ∈ slots s, ∀ w ∈ placeAt sl.offset (compImage s sl.comp),
      (w ∈ stores s (instrForm i) ↔ (toBeSaved s).getLsbD sl.comp = true)

/-- 40_xsavec.md R89, the inference the rule marks as derived: XSTATE_BV[62:0] is a subset of XCOMP_BV[62:0], and what is saved was
requested, is enabled by XCR0 and, but for the MXCSR exception, is in use. -/
def Obligations.XstateBvIsSubsetOfXcompBv : Prop :=
  ∀ (s : State) (k : Nat), (toBeSaved s).getLsbD k = true →
    (xcompBv s).getLsbD k = true ∧ s.xcr0.getLsbD k = true ∧ (instructionMask s).getLsbD k = true ∧
    (s.xinuse.getLsbD k = true ∨ (k = 1 ∧ s.mxcsr ≠ 0x1F80))

/-- 40_xsavec.md R85, R94, 20_memory.md R46 (its default instance, log 14): when TO_BE_SAVED[0] = 1 the x87 state is in the legacy
region: FCW, FSW, the eleven bits of FOP, the data registers, and FIP and FDP as 64-bit offsets (XSAVEC64) or as 32-bit offsets with
their selectors (XSAVEC). For other images see ImagesObeyTheLaws and MemoryFrame. -/
def Obligations.X87StateIsStored : Prop :=
  ∀ (i : Instr) (s t : State), exec i s = .next t → (toBeSaved s).getLsbD 0 = true → s.params.images = .standard →
    let addr := byteAddress s (targetOf i s)
    readAt t.mem addr 0 2 = some s.x87.fcw.toNat ∧
    readAt t.mem addr 2 2 = some s.x87.fsw.toNat ∧
    Memory.read t.mem (addr 4) = some (abridgedTags s.x87.tags) ∧
    (∀ j < 8, (abridgedTags s.x87.tags).getLsbD j = (s.x87.tags.getLsbD (2 * j) && s.x87.tags.getLsbD (2 * j + 1)).not) ∧
    (∃ v, readAt t.mem addr 6 2 = some v ∧ v % 2 ^ 11 = s.x87.fop.toNat) ∧
    (∀ k, (h : k < 8) → readAt t.mem addr (32 + 16 * k) 10 = some (s.x87.st[k]).toNat) ∧
    (instrForm i = .xsavec64 →
      readAt t.mem addr 8 8 = some s.x87.fip.toNat ∧ readAt t.mem addr 16 8 = some s.x87.fdp.toNat) ∧
    (instrForm i = .xsavec →
      readAt t.mem addr 8 4 = some (s.x87.fip.toNat % 2 ^ 32) ∧
      readAt t.mem addr 12 2 = some s.x87.fcs.toNat ∧
      readAt t.mem addr 16 4 = some (s.x87.fdp.toNat % 2 ^ 32) ∧
      readAt t.mem addr 20 2 = some s.x87.fds.toNat)

/-- 40_xsavec.md R86, 20_memory.md R46: when TO_BE_SAVED[1] = 1, MXCSR and MXCSR_MASK are in the legacy region as 32-bit fields, and
in the default instance they stand at 24 and 28 and XMM_COUNT XMM registers from 160 on. -/
def Obligations.SseStateIsStored : Prop :=
  ∀ (i : Instr) (s t : State), exec i s = .next t → (toBeSaved s).getLsbD 1 = true →
    let addr := byteAddress s (targetOf i s)
    readAt t.mem addr (mxcsrOffset s.params) 4 = some s.mxcsr.toNat ∧
    readAt t.mem addr (maskOffset s.params) 4 = some s.params.mxcsrMask.toNat ∧
    (s.params.images = .standard → mxcsrOffset s.params = 24 ∧ maskOffset s.params = 28 ∧
      ∀ k, (h : k < 16) → k < xmmCount s → readAt t.mem addr (160 + 16 * k) 16 = some (s.xmm[k]).toNat) ∧
    xmmCount s = (if s.mode ∈ s.params.sixteenXmm then 16 else 8)

/-- 40_xsavec.md R87, 20_memory.md R47: without ALIGN64 a requested and saved component i of the extended region stands at 576 plus
the sizes of the requested components below it, and the area ends after the last requested component. That zero bytes are stored where
the state's string for the component is shorter than CompSize(i) is the model's choice (log 27, DESIGN CHOICE), not the spec's. -/
def Obligations.ComponentsAreCompacted : Prop :=
  ∀ (i : Instr) (s t : State), exec i s = .next t → s.params.align64 = Vector.replicate 61 false →
    let off (n : Nat) := 576 + ((List.range' 2 (n - 2)).map
      (fun j => if (rfbm s).getLsbD j then compSize s.params j else 0)).sum
    (∀ k ∈ componentIds, (rfbm s).getLsbD k = true → (toBeSaved s).getLsbD k = true →
      ∀ j < compSize s.params k,
        Memory.read t.mem (byteAddress s (targetOf i s) (off k + j)) = some (((s.comps[k - 2]?.getD [])[j]?).getD 0)) ∧
    (∀ sl ∈ slots s, sl.offset = off sl.comp) ∧
    areaSize s = off 63

/-- 40_xsavec.md R87, 20_memory.md R47, whatever ALIGN64 is: the slots are those of the requested components, lie one after the other
from 576 on inside the area, and each stands exactly at R47's running offset (576, or the end of the slot before it), moved up to the
next multiple of 64 where ALIGN64 says so; the area ends where the last slot does. -/
def Obligations.SlotsAreDisjointAndInside : Prop :=
  ∀ s : State,
    let after (l : List Slot) := (l.getLast?.map (fun sl => sl.offset + compSize s.params sl.comp)).getD 576
    (∀ k ∈ componentIds, ((rfbm s).getLsbD k = true ↔ ∃ sl ∈ slots s, sl.comp = k)) ∧
    (slots s).Pairwise (fun a b => a.comp < b.comp ∧ a.offset + compSize s.params a.comp ≤ b.offset) ∧
    (∀ sl ∈ slots s, sl.comp ∈ componentIds ∧ 576 ≤ sl.offset ∧ sl.offset + compSize s.params sl.comp ≤ areaSize s) ∧
    (∀ sl ∈ slots s, s.params.align64[sl.comp - 2]? = some true → sl.offset % 64 = 0) ∧
    (∀ l sl r, slots s = l ++ sl :: r →
      sl.offset = if s.params.align64[sl.comp - 2]? = some true then 64 * ((after l + 63) / 64) else after l) ∧
    areaSize s = after (slots s)

/-- 20_memory.md R48: the offsets XSAVEC writes are exactly W(s), which lies in Operand(s) and misses 464 to 511 and 528 to 575; no
offset is written twice. In the default instance of R46 dom X87Image is 0 to 23 and 32 to 159, and dom SSEImage 24 to 31 and 160 to
160 + 16 XMM_COUNT - 1. -/
def Obligations.FootprintIsW : Prop :=
  ∀ (s : State) (form : Form),
    (∀ k, k ∈ (stores s form).map Prod.fst ↔
      ((512 ≤ k ∧ k ≤ 527) ∨
       ((toBeSaved s).getLsbD 0 = true ∧ k ∈ (x87Image s form).map Prod.fst) ∨
       ((toBeSaved s).getLsbD 1 = true ∧ k ∈ (sseImage s).map Prod.fst) ∨
       ∃ sl ∈ slots s, (toBeSaved s).getLsbD sl.comp = true ∧ sl.offset ≤ k ∧ k < sl.offset + compSize s.params sl.comp)) ∧
    (s.params.images = .standard → ∀ k,
      (k ∈ (x87Image s form).map Prod.fst ↔ k ≤ 23 ∨ (32 ≤ k ∧ k ≤ 159)) ∧
      (k ∈ (sseImage s).map Prod.fst ↔ (24 ≤ k ∧ k ≤ 31) ∨ (160 ≤ k ∧ k < 160 + 16 * xmmCount s))) ∧
    (∀ k ∈ (stores s form).map Prod.fst, k < areaSize s ∧ ¬(464 ≤ k ∧ k ≤ 511) ∧ ¬(528 ≤ k ∧ k ≤ 575)) ∧
    ((stores s form).map Prod.fst).Nodup

/-- 40_xsavec.md R90, 20_memory.md R48: a completed execution leaves every byte of W holding what was stored, and every byte outside
Area + W as it was, but for the unsaved images and slots under UNSAVED_SLOT_POLICY = any. -/
def Obligations.MemoryFrame : Prop :=
  ∀ (i : Instr) (s t : State), exec i s = .next t →
    (∀ w ∈ stores s (instrForm i), Memory.read t.mem (byteAddress s (targetOf i s) w.1) = some w.2) ∧
    (∀ a, (∀ w ∈ stores s (instrForm i), a ≠ byteAddress s (targetOf i s) w.1) →
      (s.params.unsavedSlot = .unchanged ∨
        ∀ k ∈ unsavedOffsets s (instrForm i), a ≠ byteAddress s (targetOf i s) k) →
      Memory.read t.mem a = Memory.read s.mem a) ∧
    (∀ k ∈ unsavedOffsets s (instrForm i),
      ((toBeSaved s).getLsbD 0 = false ∧ k ∈ (x87Image s (instrForm i)).map Prod.fst) ∨
      ((toBeSaved s).getLsbD 1 = false ∧ k ∈ (sseImage s).map Prod.fst) ∨
      ∃ sl ∈ slots s, (toBeSaved s).getLsbD sl.comp = false ∧ sl.offset ≤ k ∧ k < sl.offset + compSize s.params sl.comp)

/-- 20_memory.md R45: bytes 511:464 of the legacy region and the header bytes other than XSTATE_BV and XCOMP_BV keep their values in
every execution, completing or faulting. -/
def Obligations.BytesNeverModified : Prop :=
  ∀ (i : Instr) (s : State) (k : Nat), (464 ≤ k ∧ k ≤ 511) ∨ (528 ≤ k ∧ k ≤ 575) →
    (∀ t, exec i s = .next t →
      Memory.read t.mem (byteAddress s (targetOf i s) k) = Memory.read s.mem (byteAddress s (targetOf i s) k)) ∧
    (∀ x code t, exec i s = .fault (.exception x code t) →
      Memory.read t.mem (byteAddress s (targetOf i s) k) = Memory.read s.mem (byteAddress s (targetOf i s) k))

/-- 40_xsavec.md R96 item 1: with RFBM = 0 only the two header fields are written: XSTATE_BV is 0, XCOMP_BV is 80000000_00000000H, and
the area is 576 bytes. -/
def Obligations.EmptyRequestWritesHeaderOnly : Prop :=
  ∀ (i : Instr) (s t : State), exec i s = .next t → rfbm s = 0 → s.params.unsavedSlot = .unchanged →
    areaSize s = 576 ∧
    readAt t.mem (byteAddress s (targetOf i s)) 512 8 = some 0 ∧
    readAt t.mem (byteAddress s (targetOf i s)) 520 8 = some 0x8000000000000000 ∧
    ∀ a, (∀ k, 512 ≤ k → k ≤ 527 → a ≠ byteAddress s (targetOf i s) k) →
      Memory.read t.mem a = Memory.read s.mem a

/-- 40_xsavec.md R94, R81: the two forms differ only in the x87 image, which has the same offsets for both, and in its default
instance only in the FIP and FDP fields, offsets 8 to 23: with one operand in 64-bit mode they complete together, or fault or are
refused alike, and agree on all else. -/
def Obligations.FormsDifferOnlyInX87Pointers : Prop :=
  ∀ (op : Operand) (s : State), s.mode = .bits64 →
    let same (m m' : Memory) := ∀ a,
      (s.params.images = .standard → ∀ k, 8 ≤ k → k ≤ 23 → a ≠ byteAddress s (targetOf (.xsavec op) s) k) →
      (s.params.images ≠ .standard → ∀ w ∈ x87Image s .xsavec, a ≠ byteAddress s (targetOf (.xsavec op) s) w.1) →
      Memory.read m a = Memory.read m' a
    (x87Image s .xsavec).map Prod.fst = (x87Image s .xsavec64).map Prod.fst ∧
    (∀ t, exec (.xsavec op) s = .next t → ∃ u, exec (.xsavec64 op) s = .next u ∧
      t = { u with mem := t.mem } ∧ same t.mem u.mem) ∧
    (∀ x code t, exec (.xsavec op) s = .fault (.exception x code t) → ∃ u,
      exec (.xsavec64 op) s = .fault (.exception x code u) ∧ t = { u with mem := t.mem } ∧ same t.mem u.mem) ∧
    (∀ q, exec (.xsavec op) s = .refused q → exec (.xsavec64 op) s = .refused q)

/-- 20_memory.md R50: XSAVEC reads no data memory: from two states that differ only in memory it ends alike and stores the same bytes:
at every address either both memories are unchanged, or both read the same byte, completing or faulting. -/
def Obligations.NoDataReadFromMemory : Prop :=
  ∀ (i : Instr) (s : State) (m : Memory),
    let alike (t u : State) := u = { t with mem := u.mem } ∧
      ∀ a, (Memory.read t.mem a = Memory.read s.mem a ∧ Memory.read u.mem a = Memory.read m a) ∨
        Memory.read t.mem a = Memory.read u.mem a
    (∀ t, exec i s = .next t → ∃ u, exec i { s with mem := m } = .next u ∧ alike t u ∧
      ∀ w ∈ stores s (instrForm i), Memory.read u.mem (byteAddress s (targetOf i s) w.1) = some w.2) ∧
    (∀ x code t, exec i s = .fault (.exception x code t) → ∃ u,
      exec i { s with mem := m } = .fault (.exception x code u) ∧ alike t u) ∧
    (∀ q, exec i s = .refused q → exec i { s with mem := m } = .refused q)

/-! ## Registers -/

/-- 10_state.md R29, R12, R13: XSAVEC, whether it completes or faults, leaves every register unchanged; on completion only pc changes,
to pc + L. -/
def Obligations.RegisterFrame : Prop :=
  ∀ (i : Instr) (s t : State),
    (exec i s = .next t ∨ ∃ x code, exec i s = .fault (.exception x code t)) →
    t.gpr = s.gpr ∧ t.rflags = s.rflags ∧ t.xcr0 = s.xcr0 ∧ t.cr0 = s.cr0 ∧ t.cr4 = s.cr4 ∧ t.mxcsr = s.mxcsr ∧
    t.xinuse = s.xinuse ∧ t.x87 = s.x87 ∧ t.xmm = s.xmm ∧ t.comps = s.comps ∧ t.mode = s.mode ∧
    t.codeSize = s.codeSize ∧ cpl t = cpl s ∧ t.cplField = s.cplField ∧ t.segs = s.segs ∧
    (exec i s = .next t → t.pc = s.pc + BitVec.ofNat 64 (instrLength i)) ∧
    (∀ x code, exec i s = .fault (.exception x code t) → t.pc = s.pc)

/-- 70_reset_and_hazards.md R146, 00_scope.md R4, and the model's choice of log 9: an execution leaves the implementation's constants
and the oracles as they are, and CR2 changes at a page fault only. -/
def Obligations.ConstantsAndCr2Frame : Prop :=
  ∀ (i : Instr) (s t : State),
    (exec i s = .next t ∨ ∃ x code, exec i s = .fault (.exception x code t)) →
    t.params = s.params ∧ t.pageFaults = s.pageFaults ∧ t.regions = s.regions ∧
    (exec i s = .next t → t.cr2 = s.cr2) ∧
    (∀ x code, exec i s = .fault (.exception x code t) → x ≠ .pf → t.cr2 = s.cr2)

/-! ## Exceptions -/

/-- 60_exceptions.md R111: if a CPUID bit is 0, CR4.OSXSAVE = 0 or LOCK is used, nothing completes, whatever the order of exceptions
is; in the default order the instruction ends in #UD, without an error code and in every mode. -/
def Obligations.UdConditions : Prop :=
  ∀ (i : Instr) (s : State),
    (s.params.cpuidXsave = false ∨ s.params.cpuidXsavec = false ∨ s.cr4.getLsbD 18 = false ∨
      LegacyPrefix.lock ∈ (instrOperand i).prefixes) →
    (∀ t, exec i s ≠ .next t) ∧
    (ModeOk i s → DefaultOrder s → exec i s = .fault (.exception .ud none (tick s)))

/-- 30_encoding.md R64: the LOCK prefix is the byte F0H; an instruction that carries it never completes, whatever the order of
exceptions is, and raises #UD in the default order. -/
def Obligations.LockPrefixRaisesUd : Prop :=
  prefixByte .lock = 0xF0 ∧
  ∀ (i : Instr) (s : State), LegacyPrefix.lock ∈ (instrOperand i).prefixes →
    (∀ t, exec i s ≠ .next t) ∧
    (ModeOk i s → DefaultOrder s → exec i s = .fault (.exception .ud none (tick s)))

/-- 60_exceptions.md R112: #NM in every mode if CR0.TS[bit 3] = 1, without an error code and whatever the mask is, once #UD does not
apply; with CR0.TS = 1 nothing completes, whatever the order of exceptions is. -/
def Obligations.NmWhenTaskSwitched : Prop :=
  ∀ (i : Instr) (s : State), s.cr0.getLsbD 3 = true →
    (∀ t, exec i s ≠ .next t) ∧
    (ModeOk i s → DefaultOrder s → s.params.cpuidXsave = true → s.params.cpuidXsavec = true →
      s.cr4.getLsbD 18 = true → LegacyPrefix.lock ∉ (instrOperand i).prefixes →
      exec i s = .fault (.exception .nm none (tick s)))

/-- 60_exceptions.md R113, R115, R117, R119, R121: when a byte XSAVEC writes fails the mode's extent check, and neither #UD nor #NM
applies, the default order reports #GP (no code) in real-address mode, #SS(0) through SS and #GP(0) otherwise; memory and registers
are unchanged. -/
def Obligations.ExtentViolationRaises : Prop :=
  ∀ (i : Instr) (s : State) (w : Nat × Byte), ModeOk i s → DefaultOrder s → Enabled s → NoLock i →
    w ∈ stores s (instrForm i) →
    (s.mode = .realAddress → 0xFFFF < (targetOf i s).ea + w.1 →
      exec i s = .fault (.exception .gp none (tick s))) ∧
    (s.mode = .bits64 → canonical s.params.canonForm (byteAddress s (targetOf i s) w.1) = false →
      exec i s = .fault (.exception (if (targetOf i s).seg = .ss then .ss else .gp) (some 0) (tick s))) ∧
    (s.mode ≠ .realAddress → s.mode ≠ .bits64 →
      segOffsetOk (segment s (targetOf i s).seg) ((targetOf i s).ea + w.1) = false →
      exec i s = .fault (.exception (if (targetOf i s).seg = .ss then .ss else .gp) (some 0) (tick s)))

/-- 60_exceptions.md R121: when only bytes XSAVEC does not write fail the extent check and everything else is in order, it raises the
extent exception or completes. -/
def Obligations.UnwrittenExtentMayRaise : Prop :=
  ∀ (i : Instr) (s : State), ModeOk i s → Enabled s → NoLock i → AreaAligned (targetOf i s) →
    (∀ w ∈ stores s (instrForm i), extentOk s (targetOf i s) w.1 = true) →
    (∀ k < areaSize s, pageBad s (targetOf i s) k = false) →
    operandRefusal s (targetOf i s) (instrLength i) = none → PcFits s (instrLength i) →
    exec i s = .next (completed s (instrForm i) (targetOf i s) (instrLength i)) ∨
    exec i s = .fault (.exception (extentException s (targetOf i s)).x (extentException s (targetOf i s)).code (tick s))

/-- 60_exceptions.md R118, R114: a misaligned operand in a mode other than real-address raises AC_POLICY(A mod 64), #AC(0) or #GP(0),
when alignment checking is enabled and CPL = 3, else #GP(0); in real-address mode it raises #GP without a code (in the
default order). -/
def Obligations.MisalignmentRaisesGpOrAc : Prop :=
  ∀ (i : Instr) (s : State), ModeOk i s → DefaultOrder s → Enabled s → NoLock i →
    (∀ k < areaSize s, extentOk s (targetOf i s) k = true) → alignedAddress s (targetOf i s) % 64 ≠ 0 →
    (s.mode ≠ .realAddress → acEnabled s = true → cpl s = 3 →
      alignedAddress s (targetOf i s) % 64 ∈ s.params.acMisaligned →
      exec i s = .fault (.exception .ac (some 0) (tick s))) ∧
    (s.mode ≠ .realAddress → acEnabled s = false ∨ cpl s ≠ 3 ∨
      alignedAddress s (targetOf i s) % 64 ∉ s.params.acMisaligned →
      exec i s = .fault (.exception .gp (some 0) (tick s))) ∧
    (s.mode = .realAddress → exec i s = .fault (.exception .gp none (tick s)))

/-- 20_memory.md R42, 40_xsavec.md R96 item 13: a misaligned operand never completes, even with RFBM = 0 and whatever the order of
exceptions is. -/
def Obligations.MisalignedNeverCompletes : Prop :=
  ∀ (i : Instr) (s t : State), exec i s = .next t → alignedAddress s (targetOf i s) % 64 = 0

/-- 60_exceptions.md R116, R121, R123: outside real-address mode, when a byte XSAVEC writes page-faults and nothing before it in the
default order applies, #PF is raised with the code of some faulting byte of the operand, whose linear address CR2 records (log 9). -/
def Obligations.PageFaultRaisesPf : Prop :=
  ∀ (i : Instr) (s : State) (w : Nat × Byte) (c : ErrorCode), ModeOk i s → DefaultOrder s → Enabled s → NoLock i →
    (∀ k < areaSize s, extentOk s (targetOf i s) k = true) → AreaAligned (targetOf i s) → s.mode ≠ .realAddress →
    w ∈ stores s (instrForm i) → pageFault s (byteAddress s (targetOf i s) w.1) = some c →
    operandRefusal s (targetOf i s) (instrLength i) = none →
    ∃ code t k, exec i s = .fault (.exception .pf (some code) t) ∧ k < areaSize s ∧
      pageFault s (byteAddress s (targetOf i s) k) = some code ∧ t.cr2 = BitVec.ofNat 64 (byteAddress s (targetOf i s) k)

/-- 60_exceptions.md R110 to R121: the six exceptions, their error codes and their causes; every fault of an instruction is one of
them, in a mode whose table lists it. -/
def Obligations.EveryFaultHasItsCause : Prop :=
  ∀ (i : Instr) (s : State) (f : Fault), exec i s = .fault f →
    ∃ x code t, f = .exception x code t ∧
      match x with
      | .ud => code = none ∧ (s.params.cpuidXsave = false ∨ s.params.cpuidXsavec = false ∨ s.cr4.getLsbD 18 = false ∨
          LegacyPrefix.lock ∈ (instrOperand i).prefixes)
      | .nm => code = none ∧ s.cr0.getLsbD 3 = true
      | .ss => code = some 0 ∧ s.mode ≠ .realAddress ∧ (targetOf i s).seg = .ss ∧
          ∃ k < areaSize s, extentOk s (targetOf i s) k = false
      | .gp => code = (if s.mode = .realAddress then none else some 0) ∧
          (alignedAddress s (targetOf i s) % 64 ≠ 0 ∨
            ((s.mode = .realAddress ∨ (targetOf i s).seg ≠ .ss) ∧ ∃ k < areaSize s, extentOk s (targetOf i s) k = false))
      | .pf => s.mode ≠ .realAddress ∧ ∃ k < areaSize s, ∃ c, code = some c ∧
          pageFault s (byteAddress s (targetOf i s) k) = some c
      | .ac => code = some 0 ∧ s.mode ≠ .realAddress ∧ acEnabled s = true ∧ cpl s = 3 ∧
          alignedAddress s (targetOf i s) % 64 ≠ 0

/-- 60_exceptions.md R123: a fault other than #PF leaves memory unchanged; at #PF each byte of Area + W that passes its page check
holds its old value or the one XSAVEC would have written, every other byte is unchanged, and with FAULT_WRITE_POLICY = none all
are (log 12). -/
def Obligations.MemoryAtAFault : Prop :=
  ∀ (i : Instr) (s : State) (x : Exception) (code : Option ErrorCode) (t : State),
    exec i s = .fault (.exception x code t) →
    (x ≠ .pf → t.mem = s.mem) ∧
    (s.params.faultWrite = .noBytes → ∀ a, Memory.read t.mem a = Memory.read s.mem a) ∧
    ∀ a, Memory.read t.mem a = Memory.read s.mem a ∨
      ∃ w ∈ stores s (instrForm i), a = byteAddress s (targetOf i s) w.1 ∧ pageBad s (targetOf i s) w.1 = false ∧
        Memory.read t.mem a = some w.2

/-- 60_exceptions.md R127: XSAVEC is not privileged: with alignment checking disabled the CPL has no part in how it ends or in what it
stores. -/
def Obligations.NotPrivileged : Prop :=
  ∀ (i : Instr) (s : State) (c : BitVec 2), acEnabled s = false →
    (∀ t, exec i s = .next t → exec i { s with cplField := c } = .next { t with cplField := c }) ∧
    (∀ x code t, exec i s = .fault (.exception x code t) →
      exec i { s with cplField := c } = .fault (.exception x code { t with cplField := c })) ∧
    (∀ q, exec i s = .refused q → exec i { s with cplField := c } = .refused q)

/-! ## What is refused -/

/-- 20_memory.md R50, R56, R57, 10_state.md R12 (decisions D14, D20, D22; logs 20 to 22): when no exception applies, an operand that wraps
around 2^32 is refused in the modes that have no fault rule for a wrap, and never in real-address or 64-bit mode; one with a byte in
device memory or declared code, one with a byte in this instruction's own code or in code run before, and a wrapping pc + L are
refused by name. -/
def Obligations.RefusalsByName : Prop :=
  ∀ (i : Instr) (s : State), ModeOk i s →
    reported s (instrForm i) (instrOperand i) (targetOf i s) = none →
    (s.mode ≠ .realAddress → s.mode ≠ .bits64 → 2 ^ 32 < (targetOf i s).area + areaSize s →
      exec i s = .refused .addressWrap) ∧
    ((s.mode = .realAddress ∨ s.mode = .bits64 ∨ (targetOf i s).area + areaSize s ≤ 2 ^ 32) →
      exec i s ≠ .refused .addressWrap ∧
      ((∃ r ∈ s.regions, ∃ k < areaSize s, r.range.has (byteAddress s (targetOf i s) k) = true) →
        ∃ r ∈ s.regions, (∃ k < areaSize s, r.range.has (byteAddress s (targetOf i s) k) = true) ∧
          exec i s = .refused (.notOrdinary r.kind)) ∧
      ((∀ r ∈ s.regions, ∀ k < areaSize s, r.range.has (byteAddress s (targetOf i s) k) = false) →
        (∃ k < areaSize s, byteAddress s (targetOf i s) k ∈ codeBytes s (instrLength i) ++ s.codeSeen) →
        exec i s = .refused (.notOrdinary .code))) ∧
    (operandRefusal s (targetOf i s) (instrLength i) = none → 2 ^ pcWidth s.mode ≤ s.pc.toNat + instrLength i →
      exec i s = .refused .pcWrap)

/-! ## Operand assembly -/

/-- 30_encoding.md R69: the effective address with 16-bit addressing, row by row; registers BX, BP, SI, DI are numbers 3, 5, 6, 7. -/
def Obligations.EffectiveAddress16 : Prop :=
  ∀ (s : State) (ps : List LegacyPrefix) (rex : Option Rex) (len : Nat) (rm : BitVec 3) (d : Disp16),
    let bx := readGpr s 3
    let bp := readGpr s 5
    let si := readGpr s 6
    let di := readGpr s 7
    let regs : Word := if rm = 0 then bx + si else if rm = 1 then bx + di else if rm = 2 then bp + si
      else if rm = 3 then bp + di else if rm = 4 then si else if rm = 5 then di else if rm = 6 then bp else bx
    let disp : BitVec 16 := match d with
      | .noDisp => 0
      | .disp8 v => v.signExtend 16
      | .disp16 v => v
    effectiveAddress s ⟨ps, rex, .based16 rm d⟩ len = (regs.setWidth 16 + disp).toNat ∧
    ∀ v, effectiveAddress s ⟨ps, rex, .direct16 v⟩ len = v.toNat

/-- 30_encoding.md R68: the effective address with 32-bit or 64-bit addressing: sums modulo 2^N of the base, the scaled index and the
sign-extended displacement; RIP-relative in 64-bit mode. -/
def Obligations.EffectiveAddressOfBaseForms : Prop :=
  ∀ (s : State) (ps : List LegacyPrefix) (rex : Option Rex) (len : Nat) (base index : BitVec 3) (scale : BitVec 2)
    (d : Disp) (v : BitVec 32),
    let n := if s.mode = .bits64 ∧ has67 ps = false then 64 else 32
    let b := BitVec.ofBool (rex.any (·.b))
    let x := BitVec.ofBool (rex.any (·.x))
    let scaled := if (x ++ index : BitVec 4) = 4 then 0 else (readGpr s (x ++ index)).toNat * 2 ^ scale.toNat
    let disp : Word := match d with
      | .noDisp => 0
      | .disp8 u => u.signExtend 64
      | .disp32 u => u.signExtend 64
    effectiveAddress s ⟨ps, rex, .based base d⟩ len = ((readGpr s (b ++ base)).toNat + disp.toNat) % 2 ^ n ∧
    effectiveAddress s ⟨ps, rex, .sib scale index base d⟩ len =
      ((readGpr s (b ++ base)).toNat + scaled + disp.toNat) % 2 ^ n ∧
    effectiveAddress s ⟨ps, rex, .sibNoBase scale index v⟩ len = ((v.signExtend 64).toNat + scaled) % 2 ^ n ∧
    effectiveAddress s ⟨ps, rex, .direct v⟩ len =
      (if s.mode = .bits64 then (s.pc.toNat + len + (v.signExtend 64).toNat) % 2 ^ n else v.toNat)

/-- 30_encoding.md R70, R66: behind prefixes without an override the segment is SS for a base register SP or BP, not for R12 or R13, and
DS otherwise; outside 64-bit mode the last override replaces it, wherever it stands among the prefixes; in 64-bit mode the last FS or
GS override does, without one an SS override makes it SS, and the others are ignored (log 18 where several overrides are mixed). -/
def Obligations.SegmentOfOperand : Prop :=
  let without (rs : List SegReg) (ps : List LegacyPrefix) := ∀ r ∈ rs, LegacyPrefix.seg r ∉ ps
  let every : List SegReg := [.es, .cs, .ss, .ds, .fs, .gs]
  (∀ (m : Mode) (ps qs : List LegacyPrefix) (r : SegReg) (rex : Option Rex) (form : MemForm), m ≠ .bits64 →
    without every qs → operandSegment m ⟨ps ++ .seg r :: qs, rex, form⟩ = r) ∧
  (∀ (m : Mode) (ps : List LegacyPrefix) (rex : Option Rex) (base : BitVec 3) (d : Disp), without every ps →
    operandSegment m ⟨ps, rex, .based base d⟩ =
      if rex.any (·.b) = false ∧ base = 5 ∧ d ≠ .noDisp then .ss else .ds) ∧
  (∀ (m : Mode) (ps : List LegacyPrefix) (rex : Option Rex) (scale : BitVec 2) (index base : BitVec 3) (d : Disp),
    without every ps → operandSegment m ⟨ps, rex, .sib scale index base d⟩ =
      if rex.any (·.b) = false ∧ (base = 4 ∨ (base = 5 ∧ d ≠ .noDisp)) then .ss else .ds) ∧
  (∀ (m : Mode) (ps : List LegacyPrefix) (rex : Option Rex) (rm : BitVec 3) (d : Disp16), without every ps →
    operandSegment m ⟨ps, rex, .based16 rm d⟩ =
      if rm = 2 ∨ rm = 3 ∨ (rm = 6 ∧ d ≠ .noDisp) then .ss else .ds) ∧
  (∀ (m : Mode) (ps : List LegacyPrefix) (rex : Option Rex) (scale : BitVec 2) (index : BitVec 3) (v : BitVec 32)
    (u : BitVec 16), without every ps →
    operandSegment m ⟨ps, rex, .sibNoBase scale index v⟩ = .ds ∧ operandSegment m ⟨ps, rex, .direct v⟩ = .ds ∧
      operandSegment m ⟨ps, rex, .direct16 u⟩ = .ds) ∧
  (∀ (ps qs : List LegacyPrefix) (rex : Option Rex) (form : MemForm) (r : SegReg), r = .fs ∨ r = .gs →
    without [.fs, .gs] qs → operandSegment .bits64 ⟨ps ++ .seg r :: qs, rex, form⟩ = r) ∧
  (∀ (ps : List LegacyPrefix) (rex : Option Rex) (form : MemForm), without [.fs, .gs] ps → .seg .ss ∈ ps →
    operandSegment .bits64 ⟨ps, rex, form⟩ = .ss) ∧
  (∀ (ps : List LegacyPrefix) (rex : Option Rex) (form : MemForm), without [.fs, .gs, .ss] ps →
    operandSegment .bits64 ⟨ps, rex, form⟩ = operandSegment .bits64 ⟨[], rex, form⟩)

/-- 20_memory.md R40, 10_state.md R27: the area's linear address is base plus effective address cut to the mode's linear width; in
64-bit mode only FS and GS have a base. -/
def Obligations.LinearAddressOfArea : Prop :=
  ∀ (i : Instr) (s : State),
    (s.mode ≠ .bits64 → (targetOf i s).area =
      ((segment s (targetOf i s).seg).base.toNat + (targetOf i s).ea) % 2 ^ 32) ∧
    (s.mode = .bits64 → (targetOf i s).seg ≠ .fs → (targetOf i s).seg ≠ .gs → (targetOf i s).area = (targetOf i s).ea) ∧
    (s.mode = .bits64 → ((targetOf i s).seg = .fs ∨ (targetOf i s).seg = .gs) → (targetOf i s).area =
      ((segment s (targetOf i s).seg).base.toNat + (targetOf i s).ea) % 2 ^ 64)

/-! ## Invariants and reset -/

/-- Every step keeps the invariant: memory in canonical form inside the address space, pc inside the mode's width, a legal XCR0
(10_state.md R14) and a sound XINUSE (R20; the initial configurations are log 28's). -/
def Obligations.StepKeepsInv : Prop :=
  ∀ (s t : State), Inv s → step s = .next t → Inv t

/-- The invariant holds at reset. That rests on the model's values, not the spec's: XCR0 = 1, real-address mode and pc = FFF0H (log 1,
PRESUMED), XINUSE (log 4, DESIGN CHOICE) and empty memory (log 6, DESIGN CHOICE). -/
def Obligations.ResetHasInv : Prop := Inv State.reset

/-- 10_state.md R30: the values after reset that the rule's table gives (MXCSR from the source; the others are its general knowledge,
log 1). -/
def Obligations.ResetValues : Prop :=
  State.reset.mxcsr = 0x1F80 ∧ State.reset.xcr0 = 1 ∧ crTs State.reset = false ∧ crOsxsave State.reset = false ∧
  State.reset.cr0 = 0x60000010 ∧ State.reset.cr4 = 0 ∧ State.reset.rflags = 2 ∧ State.reset.mode = .realAddress ∧
  cpl State.reset = 0 ∧ State.reset.pc = 0xFFF0 ∧ State.reset.segs.cs.selector = 0xF000 ∧
  State.reset.segs.cs.base = 0xFFFF0000 ∧ State.reset.x87.fcw = 0x0040 ∧ State.reset.xmm = Vector.replicate 16 0

/-- 10_state.md R30, its consequence, marked as derived there: straight after reset an XSAVEC raises #UD, because CR4.OSXSAVE = 0 (log 1). -/
def Obligations.XsavecAfterResetRaisesUd : Prop :=
  ∀ op : Operand, exec (.xsavec op) State.reset = .fault (.exception .ud none (tick State.reset))

/-! ## Prefixes, images, repetition, runs -/

/-- 30_encoding.md R60, R73: two REX bytes one after the other match no format (R60 has one REX byte), so the string is refused by
name, behind every list of prefixes (log 17). -/
def Obligations.SecondRexRefused : Prop :=
  ∀ (s : State) (ps : List LegacyPrefix) (l l' : BitVec 4) (rest : List Byte), s.mode = .bits64 → straysOk ps = true →
    fetchBytes s = ps.map prefixByte ++ (4#4 ++ l) :: (4#4 ++ l') :: rest → step s = .refused .outOfScope

/-- 20_memory.md R57 (decision D14, log 22): once an instruction has completed, and however many instructions complete after it, its
code, its operand and what was recorded before stay recorded; an instruction with a byte in any recorded operand is refused when it is
fetched, and none completes whose operand holds a byte of any recorded code. -/
def Obligations.CodeStoredOverIsRefused : Prop :=
  ∀ (i : Instr) (s t : State), exec i s = .next t → ∀ (is : List Instr) (v : State), execAll is t = .next v →
    (∀ a ∈ codeBytes s (instrLength i) ++ s.codeSeen, a ∈ v.codeSeen) ∧
    (∀ r ∈ spans s (targetOf i s) ++ s.areasWritten, r ∈ v.areasWritten) ∧
    (∀ n < areaSize s, ∃ r ∈ v.areasWritten, r.has (byteAddress s (targetOf i s) n) = true) ∧
    (∀ j, decode (codeMode v) (fetchBytes v) = .instr j → ∀ k < instrLength j, ∀ r ∈ v.areasWritten,
      r.has (codeAddress v k) = true → step v = .refused (.notOrdinary .code)) ∧
    (∀ j u, exec j v = .next u → ∀ n < areaSize v, byteAddress v (targetOf j v) n ∉ v.codeSeen)

/-- 60_exceptions.md R121, R116: when only bytes XSAVEC does not write page-fault and everything else is in order, it completes, or
raises #PF with the code of one of those bytes, whose linear address CR2 records (log 9); a free value decides (log 11). -/
def Obligations.UnwrittenPageFaultMayRaise : Prop :=
  ∀ (i : Instr) (s : State), ModeOk i s → Enabled s → NoLock i → AreaAligned (targetOf i s) →
    (∀ k < areaSize s, extentOk s (targetOf i s) k = true) →
    (∀ w ∈ stores s (instrForm i), pageBad s (targetOf i s) w.1 = false) →
    operandRefusal s (targetOf i s) (instrLength i) = none → PcFits s (instrLength i) →
    exec i s = .next (completed s (instrForm i) (targetOf i s) (instrLength i)) ∨
    ∃ code t k, exec i s = .fault (.exception .pf (some code) t) ∧ s.mode ≠ .realAddress ∧ k < areaSize s ∧
      k ∉ (stores s (instrForm i)).map Prod.fst ∧ pageFault s (byteAddress s (targetOf i s) k) = some code ∧
      t.cr2 = BitVec.ofNat 64 (byteAddress s (targetOf i s) k)

/-- 20_memory.md R46: the four laws of the images, for every value of the parameters: (1) maps, no offset twice; (2) inside offsets 0 to
463, without an offset in common; (3) what they hold depends on the component's state and the form, or the mode, only; (4) SSEImage
holds MXCSR and MXCSR_MASK as 32-bit fields. -/
def Obligations.ImagesObeyTheLaws : Prop :=
  ∀ (s : State) (form : Form),
    ((x87Image s form).map Prod.fst).Nodup ∧ ((sseImage s).map Prod.fst).Nodup ∧
    (∀ w ∈ x87Image s form, w.1 < 464 ∧ w.1 ∉ (sseImage s).map Prod.fst) ∧ (∀ w ∈ sseImage s, w.1 < 464) ∧
    (∀ s', s'.params = s.params → s'.x87 = s.x87 → x87Image s' form = x87Image s form) ∧
    (∀ s', s'.params = s.params → s'.xmm = s.xmm → s'.mxcsr = s.mxcsr → s'.mode = s.mode → sseImage s' = sseImage s) ∧
    (∀ j < 4, (mxcsrOffset s.params + j, s.mxcsr.extractLsb' (8 * j) 8) ∈ sseImage s ∧
      (maskOffset s.params + j, s.params.mxcsrMask.extractLsb' (8 * j) 8) ∈ sseImage s)

/-- 20_memory.md R50, 40_xsavec.md R96 item 11: XSAVEC is idempotent: run a second time from the register state it ran from, it stores
the same bytes at the same addresses, and every byte of memory but the free bytes of unsaved slots reads as after the first run; under
the launch premises it completes again. -/
def Obligations.RepetitionLeavesTheSameMemory : Prop :=
  ∀ (i : Instr) (s t : State), exec i s = .next t →
    let again : State := { t with pc := s.pc }
    targetOf i again = targetOf i s ∧ stores again (instrForm i) = stores s (instrForm i) ∧
    (∀ u, exec i again = .next u → ∀ a,
      (s.params.unsavedSlot = .unchanged ∨
        ∀ k ∈ unsavedOffsets s (instrForm i), a ≠ byteAddress s (targetOf i s) k) →
      Memory.read u.mem a = Memory.read t.mem a) ∧
    (Launch s i → ∃ u, exec i again = .next u)

/-- 70_reset_and_hazards.md R145: a run ends in a final state exactly where pc = base + length, and a final state stays one however many
more steps are allowed; a run that has not ended goes on with the next state of a step; a fault or a refusal ends it without a final
state, and does so exactly when a step of this run, taken before the program's end, faults or is refused. -/
def Obligations.RunsEndAsDefined : Prop :=
  ∀ (p : Program) (fuel : Nat) (s : State),
    (s.pc = p.stop → p.run fuel s = .final s) ∧
    (s.pc ≠ p.stop → p.run 0 s = .running s) ∧
    (∀ t, p.run fuel s = .final t → t.pc = p.stop ∧ ∀ more, p.run (fuel + more) s = .final t) ∧
    (∀ t, p.run fuel s = .running t → t.pc ≠ p.stop ∧
      ∀ u, step t = .next u → p.run (fuel + 1) s = if u.pc = p.stop then .final u else .running u) ∧
    (∀ f, p.run fuel s = .faulted f ↔ ∃ n < fuel, ∃ u : State, p.run n s = .running u ∧ step u = .fault f) ∧
    (∀ q, p.run fuel s = .refused q ↔ ∃ n < fuel, ∃ u : State, p.run n s = .running u ∧ step u = .refused q)

/-- 70_reset_and_hazards.md R145, R142: a program that starts in a state, with the launch premises at each of its instructions and every
operand off the program, runs its instructions one after the other and ends in a final state. -/
def Obligations.ProgramRunsToItsEnd : Prop :=
  ∀ (p : Program) (s : State), p.StartsIn s → LaunchAll (p.addresses s) p.instrs s →
    ∃ t, p.run p.instrs.length s = .final t ∧ execAll p.instrs s = .next t

/-- 30_encoding.md R67: the address size N by mode, code-segment size and prefix 67. What the decoder accepts has a 16-bit form exactly
when N = 16, and its effective address is a sum modulo 2^N; and behind every list of prefixes one ModRM byte is read as the form of
that size: `27` is `[bx]` with 16-bit addressing, `[edi]` or `[rdi]` otherwise (R69, R68). -/
def Obligations.AddressSizeByMode : Prop :=
  let size (cm : CodeMode) (ps : List LegacyPrefix) : Nat :=
    if cm.mode = .bits64 then (if .addrSize ∈ ps then 32 else 64)
    else if (cm.mode = .protectedMode ∨ cm.mode = .compatibility) ∧ cm.codeSize = .bits32 then (if .addrSize ∈ ps then 16 else 32)
    else (if .addrSize ∈ ps then 32 else 16)
  (∀ (cm : CodeMode) (bs : List Byte) (i : Instr), decode cm bs = .instr i →
    (formIs16 (instrOperand i).form = true ↔ size cm (instrOperand i).prefixes = 16) ∧
    ∀ s : State, codeMode s = cm →
      (targetOf i s).ea = (addressSum s (instrOperand i) (s.pc + BitVec.ofNat 64 (instrLength i))).toNat %
        2 ^ size cm (instrOperand i).prefixes) ∧
  (∀ (cm : CodeMode) (ps : List LegacyPrefix) (rest : List Byte), Operand.rexOk cm.mode ⟨ps, none, .based 7 .noDisp⟩ = true →
    hasMandatory ps = false → ps.length ≤ 12 →
    decode cm (ps.map prefixByte ++ 0x0F#8 :: 0xC7#8 :: 0x27#8 :: rest) =
      .instr (.xsavec ⟨ps, none, if size cm ps = 16 then .based16 7 .noDisp else .based 7 .noDisp⟩))
end

