-- ==== Sys2Proof/Laws/Memory.lean ====
section
/-! SUPPORT. The laws of memory: a read after a write, what a list of stores leaves alone, and that every memory operation keeps
the canonical form. -/

namespace Sys2Proof.Machine

/-- A read after a write of one byte. -/
theorem Memory.read_write (m : Memory) (a : Nat) (v : Byte) (a' : Nat) :
    Memory.read (Memory.write m a v) a' = if a' = a then some v else Memory.read m a' := by
  induction m with
  | nil => simp [Memory.write, Memory.read]
  | cons c m ih =>
    obtain ⟨k, b⟩ := c
    unfold Memory.write
    split
    · simp [Memory.read]
    · split
      · subst_vars
        by_cases h : a' = k <;> simp [Memory.read, h]
      · by_cases h : a' = k
        · subst h
          have : a' ≠ a := by omega
          simp [Memory.read, this]
        · simp [Memory.read, h, ih]

@[simp] theorem Memory.read_write_same (m : Memory) (a : Nat) (v : Byte) :
    Memory.read (Memory.write m a v) a = some v := by simp [Memory.read_write]

theorem Memory.read_write_ne (m : Memory) (a : Nat) (v : Byte) {a' : Nat} (h : a' ≠ a) :
    Memory.read (Memory.write m a v) a' = Memory.read m a' := by simp [Memory.read_write, h]

theorem Memory.mem_write {m : Memory} {a : Nat} {v : Byte} {c : Host.Cell} (h : c ∈ Memory.write m a v) :
    c = (a, v) ∨ c ∈ m := by
  induction m with
  | nil => simpa [Memory.write] using h
  | cons d m ih =>
    obtain ⟨k, b⟩ := d
    unfold Memory.write at h
    split at h
    · simpa using h
    · split at h
      · rcases List.mem_cons.mp h with h | h
        · exact .inl h
        · exact .inr (List.mem_cons_of_mem _ h)
      · rcases List.mem_cons.mp h with h | h
        · exact .inr (h ▸ List.mem_cons_self)
        · exact (ih h).imp id (List.mem_cons_of_mem _)

/-- A write keeps the canonical form. -/
theorem Memory.wf_write {m : Memory} {a : Nat} {v : Byte} (hm : Memory.wf m) (ha : a < 2 ^ 64) :
    Memory.wf (Memory.write m a v) := by
  obtain ⟨hs, hb⟩ := hm
  refine ⟨?_, fun c hc => ?_⟩
  · induction m with
    | nil => simp [Memory.write]
    | cons d m ih =>
      obtain ⟨k, b⟩ := d
      rw [List.pairwise_cons] at hs
      unfold Memory.write
      split
      · rename_i hlt
        refine List.pairwise_cons.mpr ⟨fun x hx => ?_, List.pairwise_cons.mpr hs⟩
        rcases List.mem_cons.mp hx with rfl | hx
        · exact hlt
        · exact Nat.lt_trans hlt (hs.1 x hx)
      · split
        · subst_vars
          exact List.pairwise_cons.mpr ⟨fun x hx => hs.1 x hx, hs.2⟩
        · refine List.pairwise_cons.mpr
            ⟨fun x hx => ?_, ih hs.2 (fun c hc => hb c (List.mem_cons_of_mem _ hc))⟩
          rcases Memory.mem_write hx with rfl | hx
          · show k < a
            omega
          · exact hs.1 x hx
  · rcases Memory.mem_write hc with rfl | hc
    · exact ha
    · exact hb c hc

/-- A list of stores keeps the canonical form. -/
theorem wf_storeAll {m : Memory} {addr : Nat → Nat} {ws : List (Nat × Byte)} (hm : Memory.wf m)
    (hw : ∀ w ∈ ws, addr w.1 < 2 ^ 64) : Memory.wf (storeAll m addr ws) := by
  induction ws generalizing m with
  | nil => exact hm
  | cons w ws ih =>
    exact ih (Memory.wf_write hm (hw w List.mem_cons_self)) (fun x hx => hw x (List.mem_cons_of_mem _ hx))

theorem codeAddress_lt (s : State) (k : Nat) : codeAddress s k < 2 ^ 64 := by
  refine Nat.lt_of_lt_of_le (Nat.mod_lt _ (Nat.two_pow_pos _)) (Nat.pow_le_pow_right (by omega) ?_)
  unfold linearWidth
  split <;> omega

/-- Placing code keeps the canonical form. -/
theorem wf_storeCode {s : State} (bs : List Byte) (hm : Memory.wf s.mem) : Memory.wf (storeCode s bs) :=
  wf_storeAll hm fun w _ => codeAddress_lt s w.1

@[simp] theorem storeAll_nil (m : Memory) (addr : Nat → Nat) : storeAll m addr [] = m := rfl

theorem storeAll_cons (m : Memory) (addr : Nat → Nat) (w : Nat × Byte) (ws : List (Nat × Byte)) :
    storeAll m addr (w :: ws) = storeAll (Memory.write m (addr w.1) w.2) addr ws := rfl

theorem storeAll_append (m : Memory) (addr : Nat → Nat) (ws vs : List (Nat × Byte)) :
    storeAll m addr (ws ++ vs) = storeAll (storeAll m addr ws) addr vs := by
  simp [storeAll, List.foldl_append]

/-- A byte no store names reads as before. -/
theorem read_storeAll_outside {m : Memory} {addr : Nat → Nat} {ws : List (Nat × Byte)} {a : Nat}
    (h : ∀ w ∈ ws, a ≠ addr w.1) : Memory.read (storeAll m addr ws) a = Memory.read m a := by
  induction ws generalizing m with
  | nil => rfl
  | cons w ws ih =>
    rw [storeAll_cons, ih (fun x hx => h x (List.mem_cons_of_mem _ hx)),
      Memory.read_write_ne _ _ _ (h w List.mem_cons_self)]

/-- A byte reads as before, or as one of the stores to it left it. -/
theorem read_storeAll_cases (m : Memory) (addr : Nat → Nat) (ws : List (Nat × Byte)) (a : Nat) :
    Memory.read (storeAll m addr ws) a = Memory.read m a ∨
      ∃ w ∈ ws, a = addr w.1 ∧ Memory.read (storeAll m addr ws) a = some w.2 := by
  induction ws generalizing m with
  | nil => exact .inl rfl
  | cons w ws ih =>
    rw [storeAll_cons]
    rcases ih (Memory.write m (addr w.1) w.2) with h | ⟨x, hx, ha, h⟩
    · by_cases hw : a = addr w.1
      · subst hw
        exact .inr ⟨w, List.mem_cons_self, rfl, by simpa using h⟩
      · exact .inl (by rw [h, Memory.read_write_ne _ _ _ hw])
    · exact .inr ⟨x, List.mem_cons_of_mem _ hx, ha, h⟩

/-- What a list of stores leaves at an address does not depend on memory, but for an address it leaves alone. -/
theorem read_storeAll_two (m m' : Memory) (addr : Nat → Nat) (ws : List (Nat × Byte)) (a : Nat) :
    (Memory.read (storeAll m addr ws) a = Memory.read m a ∧ Memory.read (storeAll m' addr ws) a = Memory.read m' a) ∨
      Memory.read (storeAll m addr ws) a = Memory.read (storeAll m' addr ws) a := by
  induction ws generalizing m m' with
  | nil => exact .inl ⟨rfl, rfl⟩
  | cons w ws ih =>
    rw [storeAll_cons, storeAll_cons]
    rcases ih (Memory.write m (addr w.1) w.2) (Memory.write m' (addr w.1) w.2) with ⟨h, h'⟩ | h
    · by_cases hw : a = addr w.1
      · subst hw
        exact .inr (by rw [h, h', Memory.read_write_same, Memory.read_write_same])
      · exact .inl ⟨by rw [h, Memory.read_write_ne _ _ _ hw], by rw [h', Memory.read_write_ne _ _ _ hw]⟩
    · exact .inr h

/-- When the stores go to distinct offsets, and distinct offsets have distinct addresses, each stored byte is read back. -/
theorem read_storeAll_mem {m : Memory} {addr : Nat → Nat} {ws : List (Nat × Byte)} (hd : (ws.map Prod.fst).Nodup)
    (hi : ∀ x ∈ ws, ∀ y ∈ ws, addr x.1 = addr y.1 → x.1 = y.1)
    {w : Nat × Byte} (hw : w ∈ ws) : Memory.read (storeAll m addr ws) (addr w.1) = some w.2 := by
  induction ws generalizing m with
  | nil => cases hw
  | cons x ws ih =>
    rw [List.map_cons, List.nodup_cons] at hd
    rw [storeAll_cons]
    rcases List.mem_cons.mp hw with rfl | hw
    · rw [read_storeAll_outside, Memory.read_write_same]
      intro y hy he
      have : w.1 = y.1 := hi w List.mem_cons_self y (List.mem_cons_of_mem _ hy) he
      exact hd.1 (this ▸ List.mem_map_of_mem hy)
    · exact ih hd.2 (fun x hx y hy => hi x (List.mem_cons_of_mem _ hx) y (List.mem_cons_of_mem _ hy)) hw

/-! Bytes at successive offsets. -/

theorem mem_placeAt {off : Nat} {bs : List Byte} {w : Nat × Byte} :
    w ∈ placeAt off bs ↔ ∃ j, bs[j]? = some w.2 ∧ w.1 = off + j := by
  induction bs generalizing off with
  | nil => simp [placeAt]
  | cons b bs ih =>
    rw [placeAt, List.mem_cons, ih]
    constructor
    · rintro (rfl | ⟨j, hj, h⟩)
      · exact ⟨0, rfl, rfl⟩
      · exact ⟨j + 1, by simpa using hj, by omega⟩
    · rintro ⟨j, hj, h⟩
      cases j with
      | zero => exact .inl (by obtain ⟨a, v⟩ := w; simp_all)
      | succ j => exact .inr ⟨j, by simpa using hj, by omega⟩

@[simp] theorem length_placeAt (off : Nat) (bs : List Byte) : (placeAt off bs).length = bs.length := by
  induction bs generalizing off with
  | nil => rfl
  | cons b bs ih => simp [placeAt, ih]

@[simp] theorem fst_placeAt (off : Nat) (bs : List Byte) :
    (placeAt off bs).map Prod.fst = List.range' off bs.length := by
  induction bs generalizing off with
  | nil => rfl
  | cons b bs ih => simp [placeAt, ih, List.range'_succ]

@[simp] theorem length_bytesLE {w : Nat} (n : Nat) (v : BitVec w) : (bytesLE n v).length = n := by
  simp [bytesLE]

theorem bytesLE_getElem? {w : Nat} (n : Nat) (v : BitVec w) (j : Nat) :
    (bytesLE n v)[j]? = if j < n then some (v.extractLsb' (8 * j) 8) else none := by
  by_cases h : j < n
  · simp [bytesLE, h]
  · simp [bytesLE, h]

end Sys2Proof.Machine
end

