-- ==== Sys2Proof/Laws/Area.lean ====
section
/-! SUPPORT. The laws of the XSAVE area: the offsets each image fills, the compacted layout, and that the stores of one XSAVEC go to
distinct offsets of the footprint (20_memory.md R46 to R48). -/

namespace Sys2Proof.Machine

/-! The compacted layout (R47). -/

theorem le_slotOffset (p : Params) (i off : Nat) : off ≤ slotOffset p i off := by
  unfold slotOffset
  split <;> omega

theorem le_endFrom (p : Params) (mask : BitVec 64) (is : List Nat) (off : Nat) : off ≤ endFrom p mask is off := by
  induction is generalizing off with
  | nil => exact Nat.le_refl _
  | cons i is ih =>
    unfold endFrom
    split
    · exact Nat.le_trans (le_slotOffset p i off) (Nat.le_trans (Nat.le_add_right _ _) (ih _))
    · exact ih off

theorem area_ge (s : State) : 576 ≤ areaSize s := le_endFrom _ _ _ _

/-- What a slot of the layout is: a requested component, at or after the running offset, inside the area. -/
theorem mem_slotsFrom {p : Params} {mask : BitVec 64} {is : List Nat} {off : Nat} {sl : Slot}
    (h : sl ∈ slotsFrom p mask is off) :
    sl.comp ∈ is ∧ mask.getLsbD sl.comp = true ∧ off ≤ sl.offset ∧
      sl.offset + compSize p sl.comp ≤ endFrom p mask is off := by
  induction is generalizing off with
  | nil => simp [slotsFrom] at h
  | cons i is ih =>
    unfold slotsFrom at h
    unfold endFrom
    split at h
    · rename_i hi
      rw [if_pos hi]
      rcases List.mem_cons.mp h with rfl | h
      · exact ⟨List.mem_cons_self, hi, le_slotOffset p i off, le_endFrom _ _ _ _⟩
      · obtain ⟨h1, h2, h3, h4⟩ := ih h
        have := le_slotOffset p i off
        exact ⟨List.mem_cons_of_mem _ h1, h2, by omega, h4⟩
    · rename_i hi
      rw [if_neg hi]
      obtain ⟨h1, h2, h3, h4⟩ := ih h
      exact ⟨List.mem_cons_of_mem _ h1, h2, h3, h4⟩

/-- Slots lie one after the other. -/
theorem slotsFrom_pairwise (p : Params) (mask : BitVec 64) (is : List Nat) (off : Nat) :
    (slotsFrom p mask is off).Pairwise (fun a b => a.offset + compSize p a.comp ≤ b.offset) := by
  induction is generalizing off with
  | nil => simp [slotsFrom]
  | cons i is ih =>
    unfold slotsFrom
    split
    · exact List.pairwise_cons.mpr ⟨fun b hb => (mem_slotsFrom hb).2.2.1, ih _⟩
    · exact ih off

/-- Every requested component of the list has a slot. -/
theorem exists_slotsFrom {p : Params} {mask : BitVec 64} {is : List Nat} {off i : Nat} (hi : i ∈ is)
    (hm : mask.getLsbD i = true) : ∃ sl ∈ slotsFrom p mask is off, sl.comp = i := by
  induction is generalizing off with
  | nil => cases hi
  | cons j is ih =>
    unfold slotsFrom
    rcases List.mem_cons.mp hi with rfl | hi
    · rw [if_pos hm]
      exact ⟨_, List.mem_cons_self, rfl⟩
    · split
      · obtain ⟨sl, h, rfl⟩ := ih (off := slotOffset p j off + compSize p j) hi
        exact ⟨sl, List.mem_cons_of_mem _ h, rfl⟩
      · exact ih hi

/-! The offsets of the images (R46). -/

@[simp] theorem reserved_fst (s : State) (off : Nat) : (reserved s off).1 = off := rfl

@[simp] theorem map_fst_reserved (s : State) (l : List Nat) : (l.map (reserved s)).map Prod.fst = l := by
  simp [List.map_map, Function.comp_def]

theorem fst_stImage (s : State) (k : Nat) : (stImage s k).map Prod.fst = List.range' (32 + 16 * k) 16 := by
  rw [stImage, List.map_append, fst_placeAt, length_bytesLE, map_fst_reserved, show (16 : Nat) = 10 + 6 from rfl]
  rw [show 32 + (10 + 6) * k + 10 = 32 + (10 + 6) * k + 1 * 10 by omega, List.range'_append]

theorem fst_pointerImage (s : State) (form : Form) : (pointerImage s form).map Prod.fst = List.range' 8 16 := by
  cases form <;> simp [pointerImage, reserved, List.range'_succ]

/-- Consecutive blocks of sixteen offsets. -/
theorem flatMap_range'_16 (b n : Nat) :
    (List.range n).flatMap (fun k => List.range' (b + 16 * k) 16) = List.range' b (16 * n) := by
  induction n with
  | zero => rfl
  | succ n ih =>
    rw [List.range_succ, List.flatMap_append, ih, List.flatMap_singleton]
    rw [show b + 16 * n = b + 1 * (16 * n) by omega, List.range'_append, Nat.mul_succ]

theorem nodup_range'_append {a n b m : Nat} (h : a + n ≤ b) : (List.range' a n ++ List.range' b m).Nodup := by
  rw [List.nodup_append]
  refine ⟨List.nodup_range', List.nodup_range', fun x hx y hy => ?_⟩
  rw [List.mem_range'_1] at hx hy
  omega

/-- The default dom X87Image = 0..23 and 32..159. -/
theorem fst_standardX87 (s : State) (form : Form) :
    (standardX87 s form).map Prod.fst = List.range' 0 24 ++ List.range' 32 128 := by
  have hst : ((List.range 8).flatMap (stImage s)).map Prod.fst = List.range' 32 128 := by
    rw [List.map_flatMap, List.flatMap_congr (fun k _ => fst_stImage s k), flatMap_range'_16]
  simp only [standardX87, List.map_append, fst_pointerImage, hst, fopImage, fst_placeAt, length_bytesLE, List.map_cons,
    List.map_nil, reserved_fst]
  decide

theorem xmmCount_cases (s : State) : xmmCount s = 16 ∨ xmmCount s = 8 := by
  unfold xmmCount
  split <;> simp

/-- The default dom SSEImage = 24..31 and 160..160+16*XMM_COUNT-1. -/
theorem fst_standardSse (s : State) :
    (standardSse s).map Prod.fst = List.range' 24 8 ++ List.range' 160 (16 * xmmCount s) := by
  have hx : ((List.range (xmmCount s)).flatMap
      (fun k => placeAt (160 + 16 * k) (bytesLE 16 (s.xmm[k]?.getD 0)))).map Prod.fst =
      List.range' 160 (16 * xmmCount s) := by
    rw [List.map_flatMap, List.flatMap_congr (fun k _ => by rw [fst_placeAt, length_bytesLE]), flatMap_range'_16]
  simp only [standardSse, List.map_append, hx, fst_placeAt, length_bytesLE]
  rw [show (28 : Nat) = 24 + 1 * 4 from rfl, List.range'_append]

theorem fst_storeHeader (s : State) : (storeHeader s).map Prod.fst = List.range' 512 16 := by
  simp only [storeHeader, List.map_append, fst_placeAt, length_bytesLE]
  rw [show (520 : Nat) = 512 + 1 * 8 from rfl, List.range'_append]

@[simp] theorem length_compImage (s : State) (i : Nat) : (compImage s i).length = compSize s.params i := by
  simp [compImage]

theorem fst_storeSlot (s : State) (sl : Slot) : (storeSlot s sl).map Prod.fst =
    if (toBeSaved s).getLsbD sl.comp then List.range' sl.offset (compSize s.params sl.comp) else [] := by
  unfold storeSlot
  split <;> simp

theorem mem_fst_standardX87 {s : State} {form : Form} {w : Nat × Byte} (h : w ∈ standardX87 s form) :
    w.1 < 24 ∨ (32 ≤ w.1 ∧ w.1 < 160) := by
  have := List.mem_map_of_mem (f := Prod.fst) h
  rw [fst_standardX87, List.mem_append, List.mem_range'_1, List.mem_range'_1] at this
  omega

theorem mem_fst_standardSse {s : State} {w : Nat × Byte} (h : w ∈ standardSse s) :
    (24 ≤ w.1 ∧ w.1 < 32) ∨ (160 ≤ w.1 ∧ w.1 < 416) := by
  have := List.mem_map_of_mem (f := Prod.fst) h
  rw [fst_standardSse, List.mem_append, List.mem_range'_1, List.mem_range'_1] at this
  rcases xmmCount_cases s with hx | hx <;> omega

/-! The images as parameters (20_memory.md R46, its laws). -/

theorem otherImages_fit {p : Params} {o : OtherImages} (h : otherImages p = some o) :
    o.mxcsrAt + 4 ≤ 464 ∧ o.maskAt + 4 ≤ 464 ∧ (o.mxcsrAt + 4 ≤ o.maskAt ∨ o.maskAt + 4 ≤ o.mxcsrAt) := by
  unfold otherImages at h
  split at h
  · cases h
  · split at h
    · cases h
      assumption
    · cases h

@[simp] theorem otherImages_standard {p : Params} (h : p.images = .standard) : otherImages p = none := by
  simp [otherImages, h]

theorem x87Image_standard {s : State} (h : s.params.images = .standard) (form : Form) : x87Image s form = standardX87 s form := by
  simp [x87Image, otherImages_standard h]

theorem sseImage_standard {s : State} (h : s.params.images = .standard) : sseImage s = standardSse s := by
  simp [sseImage, otherImages_standard h]

theorem otherX87At_fst {s : State} {form : Form} {o : OtherImages} {k : Nat} {w : Nat × Byte}
    (h : otherX87At s form o k = some w) : w.1 = k := by
  unfold otherX87At at h
  split at h
  · cases h
  · split at h
    · cases h
      rfl
    · cases h

theorem otherSseAt_fst {s : State} {o : OtherImages} {k : Nat} {w : Nat × Byte}
    (h : otherSseAt s o k = some w) : w.1 = k := by
  unfold otherSseAt at h
  split at h
  · cases h
    rfl
  · split at h
    · cases h
      rfl
    · split at h
      · obtain ⟨b, -, rfl⟩ := Option.map_eq_some_iff.mp h
        rfl
      · cases h

/-- A map given offset by offset, each giving a byte for itself, has its entries below its bound, each once. -/
theorem mem_filterMap_range {n : Nat} {f : Nat → Option (Nat × Byte)} (hf : ∀ k w, f k = some w → w.1 = k) {w : Nat × Byte} :
    w ∈ (List.range n).filterMap f ↔ w.1 < n ∧ f w.1 = some w := by
  rw [List.mem_filterMap]
  constructor
  · rintro ⟨k, hk, h⟩
    have := hf k w h
    subst this
    exact ⟨List.mem_range.mp hk, h⟩
  · exact fun ⟨h1, h2⟩ => ⟨w.1, List.mem_range.mpr h1, h2⟩

theorem nodup_filterMap_range {n : Nat} {f : Nat → Option (Nat × Byte)} (hf : ∀ k w, f k = some w → w.1 = k) :
    (((List.range n).filterMap f).map Prod.fst).Nodup := by
  have key : ∀ l : List Nat, ((l.filterMap f).map Prod.fst).Sublist l := by
    intro l
    induction l with
    | nil => exact List.Sublist.refl _
    | cons k l ih =>
      cases hk : f k with
      | none =>
        rw [List.filterMap_cons_none hk]
        exact ih.cons k
      | some w =>
        rw [List.filterMap_cons_some hk, List.map_cons, hf k w hk]
        exact ih.cons_cons k
  exact (key _).nodup List.nodup_range

/-- Law 2: X87Image lies within offsets 0 to 463. -/
theorem x87Image_lt {s : State} {form : Form} {w : Nat × Byte} (h : w ∈ x87Image s form) : w.1 < 464 := by
  unfold x87Image at h
  split at h
  · have := mem_fst_standardX87 h
    omega
  · exact ((mem_filterMap_range fun _ _ => otherX87At_fst).mp h).1

/-- Law 2: SSEImage lies within offsets 0 to 463. -/
theorem sseImage_lt {s : State} {w : Nat × Byte} (h : w ∈ sseImage s) : w.1 < 464 := by
  unfold sseImage at h
  split at h
  · have := mem_fst_standardSse h
    omega
  · exact ((mem_filterMap_range fun _ _ => otherSseAt_fst).mp h).1

/-- Law 2: the images have no offset in common. -/
theorem images_disjoint {s : State} {form : Form} {w v : Nat × Byte} (hw : w ∈ x87Image s form) (hv : v ∈ sseImage s) :
    w.1 ≠ v.1 := by
  intro he
  unfold x87Image at hw
  unfold sseImage at hv
  cases ho : otherImages s.params with
  | none =>
    rw [ho] at hw hv
    have := mem_fst_standardX87 hw
    have := mem_fst_standardSse hv
    omega
  | some o =>
    rw [ho] at hw hv
    have hw := ((mem_filterMap_range fun _ _ => otherX87At_fst).mp hw).2
    have hv := ((mem_filterMap_range fun _ _ => otherSseAt_fst).mp hv).2
    rw [← he] at hv
    unfold otherX87At at hw
    split at hw
    · cases hw
    · rename_i hn
      simp only [Bool.or_eq_true, not_or, Bool.not_eq_true] at hn
      simp [otherSseAt, hn.1.1, hn.1.2, hn.2] at hv

/-- Law 1: X87Image is a map: no offset twice. -/
theorem nodup_x87Image (s : State) (form : Form) : ((x87Image s form).map Prod.fst).Nodup := by
  unfold x87Image
  split
  · rw [fst_standardX87]
    exact nodup_range'_append (by omega)
  · exact nodup_filterMap_range fun _ _ => otherX87At_fst

/-- Law 1: SSEImage is a map: no offset twice. -/
theorem nodup_sseImage (s : State) : ((sseImage s).map Prod.fst).Nodup := by
  unfold sseImage
  split
  · rw [fst_standardSse]
    exact nodup_range'_append (by omega)
  · exact nodup_filterMap_range fun _ _ => otherSseAt_fst

/-- Both forms fill the same offsets (40_xsavec.md R94). -/
theorem fst_x87Image_form (s : State) (form form' : Form) :
    (x87Image s form).map Prod.fst = (x87Image s form').map Prod.fst := by
  unfold x87Image
  split
  · rw [fst_standardX87, fst_standardX87]
  · rw [List.map_filterMap, List.map_filterMap]
    refine List.filterMap_congr fun k _ => ?_
    unfold otherX87At
    split
    · rfl
    · split <;> rfl

/-- Law 4: SSEImage has MXCSR as a 32-bit field. -/
theorem mxcsr_in_sseImage (s : State) {w : Nat × Byte} (h : w ∈ placeAt (mxcsrOffset s.params) (bytesLE 4 s.mxcsr)) :
    w ∈ sseImage s := by
  unfold sseImage
  unfold mxcsrOffset at h
  cases ho : otherImages s.params with
  | none =>
    rw [ho] at h
    exact List.mem_append_left _ (List.mem_append_left _ h)
  | some o =>
    rw [ho] at h
    have hfit := otherImages_fit ho
    obtain ⟨j, hj, hw⟩ := mem_placeAt.mp h
    rw [bytesLE_getElem?] at hj
    split at hj
    · rename_i hj4
      simp only [Option.map_some, Option.getD_some] at hw
      refine (mem_filterMap_range fun _ _ => otherSseAt_fst).mpr ⟨by omega, ?_⟩
      obtain ⟨a, v⟩ := w
      simp only at hw hj ⊢
      subst hw
      have hin : inField o.mxcsrAt (o.mxcsrAt + j) = true := by simp [inField, hj4]
      simp only [otherSseAt, hin, if_true, Nat.add_sub_cancel_left]
      rw [← Option.some.inj hj]
    · cases hj

/-- Law 4: SSEImage has MXCSR_MASK as a 32-bit field. -/
theorem mask_in_sseImage (s : State) {w : Nat × Byte} (h : w ∈ placeAt (maskOffset s.params) (bytesLE 4 s.params.mxcsrMask)) :
    w ∈ sseImage s := by
  unfold sseImage
  unfold maskOffset at h
  cases ho : otherImages s.params with
  | none =>
    rw [ho] at h
    exact List.mem_append_left _ (List.mem_append_right _ h)
  | some o =>
    rw [ho] at h
    have hfit := otherImages_fit ho
    obtain ⟨j, hj, hw⟩ := mem_placeAt.mp h
    rw [bytesLE_getElem?] at hj
    split at hj
    · rename_i hj4
      simp only [Option.map_some, Option.getD_some] at hw
      refine (mem_filterMap_range fun _ _ => otherSseAt_fst).mpr ⟨by omega, ?_⟩
      obtain ⟨a, v⟩ := w
      simp only at hw hj ⊢
      subst hw
      have hin : inField o.maskAt (o.maskAt + j) = true := by simp [inField, hj4]
      have hout : inField o.mxcsrAt (o.maskAt + j) = false := by
        simp only [inField, Bool.and_eq_false_iff, decide_eq_false_iff_not]
        omega
      simp only [otherSseAt, hin, hout, if_true, Nat.add_sub_cancel_left]
      rw [← Option.some.inj hj]
      rfl
    · cases hj

theorem mem_fst_storeHeader {s : State} {w : Nat × Byte} (h : w ∈ storeHeader s) : 512 ≤ w.1 ∧ w.1 < 528 := by
  have := List.mem_map_of_mem (f := Prod.fst) h
  rw [fst_storeHeader, List.mem_range'_1] at this
  omega

/-- A store of the extended region goes to the slot of a saved component. -/
theorem mem_fst_storeExtended {s : State} {w : Nat × Byte} (h : w ∈ storeExtended s) :
    ∃ sl ∈ slots s, (toBeSaved s).getLsbD sl.comp = true ∧ sl.offset ≤ w.1 ∧
      w.1 < sl.offset + compSize s.params sl.comp := by
  obtain ⟨sl, hsl, hw⟩ := List.mem_flatMap.mp h
  have := List.mem_map_of_mem (f := Prod.fst) hw
  rw [fst_storeSlot] at this
  split at this
  · rename_i hb
    rw [List.mem_range'_1] at this
    exact ⟨sl, hsl, hb, this.1, this.2⟩
  · cases this

theorem mem_slots {s : State} {sl : Slot} (h : sl ∈ slots s) :
    sl.comp ∈ componentIds ∧ (rfbm s).getLsbD sl.comp = true ∧ 576 ≤ sl.offset ∧
      sl.offset + compSize s.params sl.comp ≤ areaSize s := mem_slotsFrom h

/-- Where a store can go: the x87 image, the SSE image, the header fields, or the extended region (R48). -/
theorem mem_stores_cases {s : State} {form : Form} {w : Nat × Byte} (h : w ∈ stores s form) :
    (w ∈ x87Image s form ∧ (toBeSaved s).getLsbD 0 = true) ∨
    (w ∈ sseImage s ∧ (toBeSaved s).getLsbD 1 = true) ∨ w ∈ storeExtended s ∨ w ∈ storeHeader s := by
  unfold stores storeX87 storeSse at h
  rw [List.mem_append, List.mem_append, List.mem_append] at h
  rcases h with ((h | h) | h) | h
  · split at h
    · exact .inl ⟨h, ‹_›⟩
    · cases h
  · split at h
    · exact .inr (.inl ⟨h, ‹_›⟩)
    · cases h
  · exact .inr (.inr (.inl h))
  · exact .inr (.inr (.inr h))

/-- The footprint lies in the operand, and misses bytes 464 to 511 and 528 to 575 (R45, R48). -/
theorem stores_offset {s : State} {form : Form} {w : Nat × Byte} (h : w ∈ stores s form) :
    w.1 < areaSize s ∧ (w.1 < 464 ∨ (512 ≤ w.1 ∧ w.1 < 528) ∨ 576 ≤ w.1) := by
  have ha := area_ge s
  rcases mem_stores_cases h with ⟨h, -⟩ | ⟨h, -⟩ | h | h
  · have := x87Image_lt h
    omega
  · have := sseImage_lt h
    omega
  · obtain ⟨sl, hsl, -, h1, h2⟩ := mem_fst_storeExtended h
    have := mem_slots hsl
    omega
  · have := mem_fst_storeHeader h
    omega

theorem nodup_storeExtended (s : State) : ((storeExtended s).map Prod.fst).Nodup := by
  have key : ∀ l : List Slot, l.Pairwise (fun a b => a.offset + compSize s.params a.comp ≤ b.offset) →
      ((l.flatMap (storeSlot s)).map Prod.fst).Nodup := by
    intro l hl
    induction l with
    | nil => simp
    | cons a l ih =>
      rw [List.pairwise_cons] at hl
      rw [List.flatMap_cons, List.map_append, List.nodup_append]
      refine ⟨?_, ih hl.2, ?_⟩
      · rw [fst_storeSlot]
        split
        · exact List.nodup_range'
        · exact List.nodup_nil
      · intro x hx y hy
        rw [List.map_flatMap, List.mem_flatMap] at hy
        obtain ⟨b, hb, hy⟩ := hy
        rw [fst_storeSlot] at hx hy
        split at hx
        · split at hy
          · rw [List.mem_range'_1] at hx hy
            have := hl.1 b hb
            omega
          · cases hy
        · cases hx
  exact key _ (slotsFrom_pairwise _ _ _ _)

theorem mem_storeX87 {s : State} {form : Form} {w : Nat × Byte} (h : w ∈ storeX87 s form) : w ∈ x87Image s form := by
  unfold storeX87 at h
  split at h
  · exact h
  · cases h

theorem mem_storeSse {s : State} {w : Nat × Byte} (h : w ∈ storeSse s) : w ∈ sseImage s := by
  unfold storeSse at h
  split at h
  · exact h
  · cases h

/-- The stores of one XSAVEC go to distinct offsets. -/
theorem nodup_stores (s : State) (form : Form) : ((stores s form).map Prod.fst).Nodup := by
  have hx : ((storeX87 s form).map Prod.fst).Nodup := by
    unfold storeX87
    split
    · exact nodup_x87Image s form
    · exact List.nodup_nil
  have hs : ((storeSse s).map Prod.fst).Nodup := by
    unfold storeSse
    split
    · exact nodup_sseImage s
    · exact List.nodup_nil
  have hh : ((storeHeader s).map Prod.fst).Nodup := by
    rw [fst_storeHeader]
    exact List.nodup_range'
  unfold stores
  rw [List.map_append, List.map_append, List.map_append, List.nodup_append, List.nodup_append, List.nodup_append]
  refine ⟨⟨⟨hx, hs, ?_⟩, nodup_storeExtended s, ?_⟩, hh, ?_⟩
  · intro a ha b hb
    obtain ⟨w, hw, rfl⟩ := List.mem_map.mp ha
    obtain ⟨v, hv, rfl⟩ := List.mem_map.mp hb
    exact images_disjoint (mem_storeX87 hw) (mem_storeSse hv)
  all_goals
    intro a ha b hb
    simp only [List.mem_append, List.mem_map] at ha hb
    obtain ⟨v, hv, rfl⟩ := hb
  · obtain ⟨sl, hsl, -, h1, -⟩ := mem_fst_storeExtended hv
    have := mem_slots hsl
    rcases ha with ⟨w, hw, rfl⟩ | ⟨w, hw, rfl⟩
    · have := x87Image_lt (mem_storeX87 hw)
      omega
    · have := sseImage_lt (mem_storeSse hw)
      omega
  · have := mem_fst_storeHeader hv
    rcases ha with (⟨w, hw, rfl⟩ | ⟨w, hw, rfl⟩) | ⟨w, hw, rfl⟩
    · have := x87Image_lt (mem_storeX87 hw)
      omega
    · have := sseImage_lt (mem_storeSse hw)
      omega
    · obtain ⟨sl, hsl, -, h1, -⟩ := mem_fst_storeExtended hw
      have := mem_slots hsl
      omega

/-! The free bytes of unsaved slots and images (40_xsavec.md R90). -/

/-- What an unsaved offset is: one of an image or of a requested slot whose component is not saved. -/
theorem mem_unsavedOffsets {s : State} {form : Form} {k : Nat} : k ∈ unsavedOffsets s form ↔
    ((toBeSaved s).getLsbD 0 = false ∧ k ∈ (x87Image s form).map Prod.fst) ∨
    ((toBeSaved s).getLsbD 1 = false ∧ k ∈ (sseImage s).map Prod.fst) ∨
    ∃ sl ∈ slots s, (toBeSaved s).getLsbD sl.comp = false ∧ sl.offset ≤ k ∧
      k < sl.offset + compSize s.params sl.comp := by
  unfold unsavedOffsets
  rw [List.mem_append, List.mem_append, List.mem_flatMap, or_assoc]
  refine or_congr ?_ (or_congr ?_ (exists_congr fun sl => and_congr_right fun _ => ?_))
  · cases h : (toBeSaved s).getLsbD 0 <;> simp
  · cases h : (toBeSaved s).getLsbD 1 <;> simp
  · cases h : (toBeSaved s).getLsbD sl.comp <;> simp

theorem unsavedOffsets_offset {s : State} {form : Form} {k : Nat} (h : k ∈ unsavedOffsets s form) :
    k < areaSize s ∧ (k < 464 ∨ 576 ≤ k) := by
  have ha := area_ge s
  rcases mem_unsavedOffsets.mp h with ⟨-, h⟩ | ⟨-, h⟩ | ⟨sl, hsl, -, h1, h2⟩
  · obtain ⟨w, hw, rfl⟩ := List.mem_map.mp h
    have := x87Image_lt hw
    omega
  · obtain ⟨w, hw, rfl⟩ := List.mem_map.mp h
    have := sseImage_lt hw
    omega
  · have := mem_slots hsl
    omega

theorem mem_unsavedBytes {s : State} {form : Form} {t : Target} {w : Nat × Byte} (h : w ∈ unsavedBytes s form t) :
    s.params.unsavedSlot = .anyValue ∧ w.1 ∈ unsavedOffsets s form ∧ hasByte s t w.1 = true := by
  unfold unsavedBytes at h
  split at h
  · cases h
  · rename_i hp
    obtain ⟨k, hk, rfl⟩ := List.mem_map.mp h
    rw [List.mem_filter] at hk
    exact ⟨hp, hk.1, hk.2⟩

@[simp] theorem unsavedBytes_unchanged {s : State} {form : Form} {t : Target}
    (h : s.params.unsavedSlot = .unchanged) : unsavedBytes s form t = [] := by
  simp [unsavedBytes, h]

/-- An offset lies in at most one slot. -/
theorem slot_unique {s : State} {a b : Slot} (ha : a ∈ slots s) (hb : b ∈ slots s) {k : Nat}
    (hka : a.offset ≤ k ∧ k < a.offset + compSize s.params a.comp)
    (hkb : b.offset ≤ k ∧ k < b.offset + compSize s.params b.comp) : a = b := by
  have hp : (slots s).Pairwise (fun a b => a.offset + compSize s.params a.comp ≤ b.offset) := slotsFrom_pairwise _ _ _ _
  rw [List.pairwise_iff_getElem] at hp
  obtain ⟨i, hi, rfl⟩ := List.mem_iff_getElem.mp ha
  obtain ⟨j, hj, rfl⟩ := List.mem_iff_getElem.mp hb
  rcases Nat.lt_trichotomy i j with h | rfl | h
  · have := hp i j hi hj h
    omega
  · rfl
  · have := hp j i hj hi h
    omega

/-- No byte the policy `any` leaves open is one the instruction stores. -/
theorem unsavedOffsets_not_stored {s : State} {form : Form} {w : Nat × Byte} (hw : w ∈ stores s form) :
    w.1 ∉ unsavedOffsets s form := by
  intro h
  have hb : ∀ {n}, (toBeSaved s).getLsbD n = true → (toBeSaved s).getLsbD n = false → False := fun h1 h2 => by
    rw [h1] at h2
    cases h2
  rcases mem_stores_cases hw with ⟨h1, hs⟩ | ⟨h1, hs⟩ | h1 | h1
  · have hx := x87Image_lt h1
    rcases mem_unsavedOffsets.mp h with ⟨hn, -⟩ | ⟨-, h⟩ | ⟨sl, hsl, -, h2, -⟩
    · exact hb hs hn
    · obtain ⟨v, hv, he⟩ := List.mem_map.mp h
      exact images_disjoint h1 hv he.symm
    · have := mem_slots hsl
      omega
  · have hx := sseImage_lt h1
    rcases mem_unsavedOffsets.mp h with ⟨-, h⟩ | ⟨hn, -⟩ | ⟨sl, hsl, -, h2, -⟩
    · obtain ⟨v, hv, he⟩ := List.mem_map.mp h
      exact images_disjoint hv h1 he
    · exact hb hs hn
    · have := mem_slots hsl
      omega
  · obtain ⟨a, ha, hab, ha1, ha2⟩ := mem_fst_storeExtended h1
    have := mem_slots ha
    rcases mem_unsavedOffsets.mp h with ⟨-, h⟩ | ⟨-, h⟩ | ⟨sl, hsl, hn, h2, h3⟩
    · obtain ⟨v, hv, he⟩ := List.mem_map.mp h
      have := x87Image_lt hv
      omega
    · obtain ⟨v, hv, he⟩ := List.mem_map.mp h
      have := sseImage_lt hv
      omega
    · rw [slot_unique ha hsl ⟨ha1, ha2⟩ ⟨h2, h3⟩] at hab
      exact hb hab hn
  · have hx := mem_fst_storeHeader h1
    rcases mem_unsavedOffsets.mp h with ⟨-, h⟩ | ⟨-, h⟩ | ⟨sl, hsl, -, h2, -⟩
    · obtain ⟨v, hv, he⟩ := List.mem_map.mp h
      have := x87Image_lt hv
      omega
    · obtain ⟨v, hv, he⟩ := List.mem_map.mp h
      have := sseImage_lt hv
      omega
    · have := mem_slots hsl
      omega

/-! The operand's linear addresses (20_memory.md R40, R56). -/

theorem byteAddress_real {s : State} {t : Target} (h : s.mode = .realAddress) (k : Nat) :
    byteAddress s t k = (t.area + k) % 2 ^ 32 := by simp [byteAddress, h]

theorem byteAddress_of_ne {s : State} {t : Target} (h : s.mode ≠ .realAddress) (k : Nat) :
    byteAddress s t k = t.area + k := by simp [byteAddress, h]

/-- Distinct offsets have distinct addresses; in real-address mode those below 2^32. -/
theorem byteAddress_inj {s : State} {t : Target} {j k : Nat} (hj : s.mode = .realAddress → j < 2 ^ 32)
    (hk : s.mode = .realAddress → k < 2 ^ 32) (h : byteAddress s t j = byteAddress s t k) : j = k := by
  by_cases hm : s.mode = .realAddress
  · rw [byteAddress_real hm, byteAddress_real hm] at h
    have := hj hm
    have := hk hm
    omega
  · rw [byteAddress_of_ne hm, byteAddress_of_ne hm] at h
    omega

theorem hasByte_iff {s : State} {t : Target} {k : Nat} :
    hasByte s t k = true ↔ byteAddress s t k < 2 ^ 64 ∧ (s.mode = .realAddress → k < 2 ^ 32) := by
  by_cases hm : s.mode = .realAddress <;> simp [hasByte, hm]

theorem hasByte_inj {s : State} {t : Target} {j k : Nat} (hj : hasByte s t j = true) (hk : hasByte s t k = true)
    (h : byteAddress s t j = byteAddress s t k) : j = k :=
  byteAddress_inj (hasByte_iff.mp hj).2 (hasByte_iff.mp hk).2 h

end Sys2Proof.Machine
end

