-- ==== Sys2Proof/Laws/Decode.lean ====
section
/-! SUPPORT. The laws of the decoder's and the encoder's parts, in both directions: prefixes, ModRM, SIB and displacements. -/

namespace Sys2Proof

open Machine

/-! Bytes of a displacement (20_memory.md R41). -/

theorem bytesLE_two (d : BitVec 16) : bytesLE 2 d = [d.extractLsb' 0 8, d.extractLsb' 8 8] := rfl

theorem bytesLE_four (d : BitVec 32) :
    bytesLE 4 d = [d.extractLsb' 0 8, d.extractLsb' 8 8, d.extractLsb' 16 8, d.extractLsb' 24 8] := rfl

theorem word16_extract (d : BitVec 16) : word16 (d.extractLsb' 0 8) (d.extractLsb' 8 8) = d := by
  apply BitVec.eq_of_getLsbD_eq
  intro i hi
  by_cases h1 : i < 8
  · simp [word16, hi, h1]
  · simp [word16, hi, h1, show i - 8 < 8 by omega, show 8 + (i - 8) = i by omega]

theorem word32_extract (d : BitVec 32) :
    word32 (d.extractLsb' 0 8) (d.extractLsb' 8 8) (d.extractLsb' 16 8) (d.extractLsb' 24 8) = d := by
  apply BitVec.eq_of_getLsbD_eq
  intro i hi
  by_cases h1 : i < 8
  · simp [word32, hi, h1, show i < 16 by omega, show i < 24 by omega]
  · by_cases h2 : i < 16
    · simp [word32, hi, h1, h2, show i < 24 by omega, show i - 8 < 8 by omega, show 8 + (i - 8) = i by omega]
    · by_cases h3 : i < 24
      · simp [word32, hi, h1, h2, h3, show ¬ i - 8 < 8 by omega, show i - 16 < 8 by omega,
          show 16 + (i - 16) = i by omega]
      · simp [word32, hi, h1, h2, h3, show ¬ i - 8 < 8 by omega, show ¬ i - 16 < 8 by omega,
          show i - 24 < 8 by omega, show 24 + (i - 24) = i by omega]

theorem bytesLE_word16 (b0 b1 : Byte) : bytesLE 2 (word16 b0 b1) = [b0, b1] := by
  rw [bytesLE_two]
  have h0 : (word16 b0 b1).extractLsb' 0 8 = b0 := by
    apply BitVec.eq_of_getLsbD_eq
    intro i hi
    simp [word16, hi, show i < 16 by omega]
  have h1 : (word16 b0 b1).extractLsb' 8 8 = b1 := by
    apply BitVec.eq_of_getLsbD_eq
    intro i hi
    simp [word16, hi, show 8 + i < 16 by omega]
  rw [h0, h1]

theorem bytesLE_word32 (b0 b1 b2 b3 : Byte) : bytesLE 4 (word32 b0 b1 b2 b3) = [b0, b1, b2, b3] := by
  rw [bytesLE_four]
  have h0 : (word32 b0 b1 b2 b3).extractLsb' 0 8 = b0 := by
    apply BitVec.eq_of_getLsbD_eq
    intro i hi
    simp [word32, hi, show i < 16 by omega, show i < 24 by omega, show i < 32 by omega]
  have h1 : (word32 b0 b1 b2 b3).extractLsb' 8 8 = b1 := by
    apply BitVec.eq_of_getLsbD_eq
    intro i hi
    simp [word32, hi, show 8 + i < 16 by omega, show 8 + i < 24 by omega, show 8 + i < 32 by omega]
  have h2 : (word32 b0 b1 b2 b3).extractLsb' 16 8 = b2 := by
    apply BitVec.eq_of_getLsbD_eq
    intro i hi
    simp [word32, hi, show 16 + i < 24 by omega, show 16 + i < 32 by omega, show 16 + i - 8 = 8 + i by omega,
      BitVec.getLsbD_of_ge b0 (16 + i) (by omega)]
  have h3 : (word32 b0 b1 b2 b3).extractLsb' 24 8 = b3 := by
    apply BitVec.eq_of_getLsbD_eq
    intro i hi
    simp [word32, hi, show 24 + i < 32 by omega, show 24 + i - 8 = 16 + i by omega, show 24 + i - 16 = 8 + i by omega,
      BitVec.getLsbD_of_ge b0 (24 + i) (by omega), BitVec.getLsbD_of_ge b1 (16 + i) (by omega)]
  rw [h0, h1, h2, h3]

@[simp] theorem parseDisp32_encode (d : BitVec 32) (rest : List Byte) : parseDisp32 (bytesLE 4 d ++ rest) = some d := by
  rw [bytesLE_four]
  simp [parseDisp32, word32_extract]

@[simp] theorem parseDisp_encode (d : Disp) (rest : List Byte) : parseDisp (dispMod d) (encodeDisp d ++ rest) = some d := by
  cases d with
  | noDisp => rfl
  | disp8 d => rfl
  | disp32 d =>
    simp only [dispMod, encodeDisp, bytesLE_four]
    simp [parseDisp, word32_extract]

@[simp] theorem parseDisp16_encode (d : Disp16) (rest : List Byte) :
    parseDisp16 (disp16Mod d) (encodeDisp16 d ++ rest) = some d := by
  cases d with
  | noDisp => rfl
  | disp8 d => rfl
  | disp16 d =>
    simp only [disp16Mod, encodeDisp16, bytesLE_two]
    simp [parseDisp16, word16_extract]

/-! The fields of ModRM, SIB and REX (30_encoding.md R61, R62, R68). -/

@[simp] theorem modrmByte_reg (md : BitVec 2) (rm : BitVec 3) : (modrmByte md rm).extractLsb' 3 3 = 4#3 := by
  revert md rm
  decide

@[simp] theorem modrmByte_mod (md : BitVec 2) (rm : BitVec 3) : (modrmByte md rm).extractLsb' 6 2 = md := by
  revert md rm
  decide

@[simp] theorem modrmByte_rm (md : BitVec 2) (rm : BitVec 3) : (modrmByte md rm).extractLsb' 0 3 = rm := by
  revert md rm
  decide

theorem modrmByte_of_reg (b : Byte) (h : b.extractLsb' 3 3 = 4#3) :
    b = modrmByte (b.extractLsb' 6 2) (b.extractLsb' 0 3) := by
  revert b
  decide

@[simp] theorem sibByte_scale (scale : BitVec 2) (index base : BitVec 3) :
    (sibByte scale index base).extractLsb' 6 2 = scale := by
  revert scale index base
  decide

@[simp] theorem sibByte_index (scale : BitVec 2) (index base : BitVec 3) :
    (sibByte scale index base).extractLsb' 3 3 = index := by
  revert scale index base
  decide

@[simp] theorem sibByte_base (scale : BitVec 2) (index base : BitVec 3) :
    (sibByte scale index base).extractLsb' 0 3 = base := by
  revert scale index base
  decide

theorem sibByte_of_fields (b : Byte) : b = sibByte (b.extractLsb' 6 2) (b.extractLsb' 3 3) (b.extractLsb' 0 3) := by
  revert b
  decide

@[simp] theorem dispMod_ne_three (d : Disp) : dispMod d ≠ 3#2 := by
  cases d <;> simp [dispMod]

@[simp] theorem disp16Mod_ne_three (d : Disp16) : disp16Mod d ≠ 3#2 := by
  cases d <;> simp [disp16Mod]

theorem dispMod_eq_zero {d : Disp} : dispMod d = 0#2 ↔ d = .noDisp := by
  cases d <;> simp [dispMod]

theorem disp16Mod_eq_zero {d : Disp16} : disp16Mod d = 0#2 ↔ d = .noDisp := by
  cases d <;> simp [disp16Mod]

/-! ModRM, SIB and displacement together. -/

/-- The encoding of a memory form begins with a ModRM byte of reg = 100 and mod other than 11. -/
def formMod : MemForm → BitVec 2
  | .direct16 _ | .direct _ | .sibNoBase _ _ _ => 0#2
  | .based16 _ d => disp16Mod d
  | .based _ d => dispMod d
  | .sib _ _ _ d => dispMod d

/-- The rm field of a memory form. -/
def formRm : MemForm → BitVec 3
  | .direct16 _ => 6#3
  | .based16 rm _ => rm
  | .direct _ => 5#3
  | .based rm _ => rm
  | .sib _ _ _ _ => 4#3
  | .sibNoBase _ _ _ => 4#3

/-- The bytes of a memory form after ModRM. -/
def formTail : MemForm → List Byte
  | .direct16 d => bytesLE 2 d
  | .based16 _ d => encodeDisp16 d
  | .direct d => bytesLE 4 d
  | .based _ d => encodeDisp d
  | .sib scale index base d => sibByte scale index base :: encodeDisp d
  | .sibNoBase scale index d => sibByte scale index 5#3 :: bytesLE 4 d

theorem encodeForm_eq (f : MemForm) : encodeForm f = modrmByte (formMod f) (formRm f) :: formTail f := by
  cases f <;> rfl

theorem formMod_ne_three (f : MemForm) : formMod f ≠ 3#2 := by
  cases f <;> simp [formMod]

/-- The parser reads a memory form back from its bytes. -/
theorem parseForm_encode {asz : AddrSize} {f : MemForm} (h16 : formIs16 f = (asz == .a16)) (hf : f.fieldsOk = true)
    (rest : List Byte) : parseForm asz (formMod f) (formRm f) (formTail f ++ rest) = some f := by
  cases f with
  | direct16 d =>
    have : asz = .a16 := by simpa [formIs16] using h16.symm
    subst this
    simp only [parseForm, formMod, formRm, formTail, bytesLE_two]
    simp [parseForm16, word16_extract]
  | based16 rm d =>
    have : asz = .a16 := by simpa [formIs16] using h16.symm
    subst this
    have hne : ¬(disp16Mod d = 0#2 ∧ rm = 6#3) := by
      rintro ⟨h1, h2⟩
      simp [MemForm.fieldsOk, h2, disp16Mod_eq_zero.mp h1] at hf
    simp [parseForm, parseForm16, formMod, formRm, formTail, hne]
  | direct d =>
    have hp : parseForm asz = parseForm32 := by cases asz <;> simp_all [formIs16] <;> rfl
    rw [hp]
    simp [parseForm32, formMod, formRm, formTail]
  | based rm d =>
    have hp : parseForm asz = parseForm32 := by cases asz <;> simp_all [formIs16] <;> rfl
    rw [hp]
    simp only [MemForm.fieldsOk, Bool.and_eq_true, Bool.not_eq_true', beq_eq_false_iff_ne] at hf
    have hne : ¬(rm = 5#3 ∧ dispMod d = 0#2) := by
      rintro ⟨h1, h2⟩
      simp [h1, dispMod_eq_zero.mp h2] at hf
    simp [parseForm32, formMod, formRm, formTail, hf.1, hne]
  | sib scale index base d =>
    have hp : parseForm asz = parseForm32 := by cases asz <;> simp_all [formIs16] <;> rfl
    rw [hp]
    have hne : ¬(base = 5#3 ∧ dispMod d = 0#2) := by
      rintro ⟨h1, h2⟩
      simp [MemForm.fieldsOk, h1, dispMod_eq_zero.mp h2] at hf
    simp [parseForm32, parseSib, formMod, formRm, formTail, hne]
  | sibNoBase scale index d =>
    have hp : parseForm asz = parseForm32 := by cases asz <;> simp_all [formIs16] <;> rfl
    rw [hp]
    simp [parseForm32, parseSib, formMod, formRm, formTail]

theorem parseDisp32_eq_some {bs : List Byte} {d : BitVec 32} (h : parseDisp32 bs = some d) :
    ∃ rest, bs = bytesLE 4 d ++ rest := by
  unfold parseDisp32 at h
  split at h
  · cases h
    exact ⟨_, by rw [bytesLE_word32]; rfl⟩
  · cases h

theorem parseDisp_eq_some {md : BitVec 2} {bs : List Byte} {d : Disp} (hm : md ≠ 3#2) (h : parseDisp md bs = some d) :
    md = dispMod d ∧ ∃ rest, bs = encodeDisp d ++ rest := by
  unfold parseDisp at h
  split at h
  · cases h
    exact ⟨by assumption, bs, rfl⟩
  · split at h
    · split at h
      · cases h
        exact ⟨by assumption, _, rfl⟩
      · cases h
    · split at h
      · cases h
        refine ⟨?_, _, by simp only [encodeDisp]; rw [bytesLE_word32]; rfl⟩
        revert md
        simp only [dispMod]
        decide
      · cases h

theorem parseDisp16_eq_some {md : BitVec 2} {bs : List Byte} {d : Disp16} (hm : md ≠ 3#2)
    (h : parseDisp16 md bs = some d) : md = disp16Mod d ∧ ∃ rest, bs = encodeDisp16 d ++ rest := by
  unfold parseDisp16 at h
  split at h
  · cases h
    exact ⟨by assumption, bs, rfl⟩
  · split at h
    · split at h
      · cases h
        exact ⟨by assumption, _, rfl⟩
      · cases h
    · split at h
      · cases h
        refine ⟨?_, _, by simp only [encodeDisp16]; rw [bytesLE_word16]; rfl⟩
        revert md
        simp only [disp16Mod]
        decide
      · cases h

/-- What the parser accepts is a memory form's bytes. -/
theorem parseForm_eq_some {asz : AddrSize} {md : BitVec 2} {rm : BitVec 3} {bs : List Byte} {f : MemForm} (hm : md ≠ 3#2)
    (h : parseForm asz md rm bs = some f) :
    formIs16 f = (asz == .a16) ∧ f.fieldsOk = true ∧ md = formMod f ∧ rm = formRm f ∧ ∃ rest, bs = formTail f ++ rest := by
  have h16 : asz = .a16 → parseForm16 md rm bs = some f := by
    rintro rfl
    exact h
  have h32 : asz ≠ .a16 → parseForm32 md rm bs = some f := by
    intro hne
    cases asz <;> first | exact absurd rfl hne | exact h
  by_cases hasz : asz = .a16
  · have h := h16 hasz
    subst hasz
    simp only [parseForm, parseForm16] at h
    split at h
    · rename_i hc
      split at h
      · cases h
        exact ⟨rfl, rfl, hc.1, hc.2, _, by simp only [formTail, bytesLE_word16]; rfl⟩
      · cases h
    · rename_i hc
      obtain ⟨d, hd, rfl⟩ := Option.map_eq_some_iff.mp h
      obtain ⟨h1, h2⟩ := parseDisp16_eq_some hm hd
      refine ⟨rfl, ?_, h1, rfl, h2⟩
      simp only [MemForm.fieldsOk, Bool.not_eq_true', Bool.and_eq_false_iff, beq_eq_false_iff_ne]
      by_cases h6 : rm = 6#3
      · exact .inr fun hn => hc ⟨by rw [h1, hn]; rfl, h6⟩
      · exact .inl h6
  · have h := h32 hasz
    have ha : (asz == .a16) = false := by simpa using hasz
    unfold parseForm32 at h
    split at h
    · rename_i h4
      cases bs with
      | nil => simp [parseSib] at h
      | cons sb bs =>
        rw [parseSib] at h
        split at h
        · rename_i hc
          obtain ⟨d, hd, rfl⟩ := Option.map_eq_some_iff.mp h
          obtain ⟨rest, hr⟩ := parseDisp32_eq_some hd
          refine ⟨ha.symm, rfl, hc.2, h4, rest, ?_⟩
          simp only [formTail]
          rw [hr, List.cons_append]
          congr 1
          rw [← hc.1]
          exact sibByte_of_fields sb
        · rename_i hc
          obtain ⟨d, hd, rfl⟩ := Option.map_eq_some_iff.mp h
          obtain ⟨h1, rest, hr⟩ := parseDisp_eq_some hm hd
          refine ⟨ha.symm, ?_, h1, h4, rest, ?_⟩
          · simp only [MemForm.fieldsOk, Bool.not_eq_true', Bool.and_eq_false_iff, beq_eq_false_iff_ne]
            by_cases h5 : sb.extractLsb' 0 3 = 5#3
            · exact .inr fun hn => hc ⟨h5, by rw [h1, hn]; rfl⟩
            · exact .inl h5
          · simp only [formTail]
            rw [hr, List.cons_append, ← sibByte_of_fields sb]
    · rename_i h4
      split at h
      · rename_i hc
        obtain ⟨d, hd, rfl⟩ := Option.map_eq_some_iff.mp h
        obtain ⟨rest, hr⟩ := parseDisp32_eq_some hd
        exact ⟨ha.symm, rfl, hc.2, hc.1, rest, hr⟩
      · rename_i hc
        obtain ⟨d, hd, rfl⟩ := Option.map_eq_some_iff.mp h
        obtain ⟨h1, rest, hr⟩ := parseDisp_eq_some hm hd
        refine ⟨ha.symm, ?_, h1, rfl, rest, hr⟩
        simp only [MemForm.fieldsOk, Bool.and_eq_true, Bool.not_eq_true', Bool.and_eq_false_iff, beq_eq_false_iff_ne]
        refine ⟨h4, ?_⟩
        by_cases h5 : rm = 5#3
        · exact .inr fun hn => hc ⟨h5, by rw [h1, hn]; rfl⟩
        · exact .inl h5

/-! The prefixes (30_encoding.md R60, R62 to R64, R66). -/

theorem classify_prefixByte (m64 : Bool) (p : LegacyPrefix) (hp : p.isStray = false) :
    classifyByte m64 (prefixByte p) = .legacy p := by
  cases p with
  | seg r => cases r <;> rfl
  | strayRex low => cases hp
  | _ => rfl

theorem classify_rex (low : BitVec 4) : classifyByte true (4#4 ++ low) = .rexByte low := by
  revert low
  decide

theorem classify_opcode (m64 : Bool) : classifyByte m64 0x0F#8 = .other := by
  cases m64 <;> rfl

/-- Outside 64-bit mode a byte 40 to 4F is no prefix (R72). -/
theorem classify_rex_legacy (low : BitVec 4) : classifyByte false (4#4 ++ low) = .other := by
  revert low
  decide

/-- What a byte's class says of the byte. -/
def classSays (m64 : Bool) (b : Byte) : PrefixByte → Bool
  | .legacy p => b == prefixByte p && !p.isStray
  | .rexByte low => b == 4#4 ++ low && m64
  | .other => true

theorem classify_inv (m64 : Bool) (b : Byte) : classSays m64 b (classifyByte m64 b) = true := by
  revert m64 b
  decide

theorem rexByteOf_eq (w : Bool) (r : Rex) : rexByteOf w r = 4#4 ++ ((bitOf w ++ bitOf r.r) ++ (bitOf r.x ++ bitOf r.b)) := by
  obtain ⟨r, x, b⟩ := r
  revert w r x b
  decide

/-- The low half of a REX byte. -/
def rexLow (w : Bool) (r : Rex) : BitVec 4 := (bitOf w ++ bitOf r.r) ++ (bitOf r.x ++ bitOf r.b)

@[simp] theorem rexOf_rexLow (w : Bool) (r : Rex) : rexOf (rexLow w r) = r := by
  obtain ⟨r, x, b⟩ := r
  revert w r x b
  decide

@[simp] theorem rexLow_w (w : Bool) (r : Rex) : (rexLow w r).getLsbD 3 = w := by
  obtain ⟨r, x, b⟩ := r
  revert w r x b
  decide

theorem rexByteOf_rexOf (low : BitVec 4) : rexByteOf (low.getLsbD 3) (rexOf low) = 4#4 ++ low := by
  revert low
  decide

/-- The bytes of the REX prefix in force, from its low half. -/
def rexBytes : Option (BitVec 4) → List Byte
  | none => []
  | some low => [4#4 ++ low]

theorem encodeRex_eq (w : Bool) (rex : Option Rex) : encodeRex w rex = rexBytes (rex.map (rexLow w)) := by
  cases rex with
  | none => rfl
  | some r => exact congrArg (fun b => [b]) (rexByteOf_eq w r)

/-- Scanning the opcode, with or without a REX byte in force before it. -/
theorem scan_opcode (m64 : Bool) (rex : Option (BitVec 4)) (bs : List Byte) (h : rex ≠ none → m64 = true) :
    scanPrefixes m64 (rexBytes rex ++ 0x0F#8 :: bs) = ([], rex, 0x0F#8 :: bs) := by
  cases rex with
  | none => simp [rexBytes, scanPrefixes, classify_opcode]
  | some low =>
    obtain rfl := h (by simp)
    simp [rexBytes, scanPrefixes, classify_rex, classify_opcode]

/-! REX bytes out of place (30_encoding.md R60). -/

theorem isStray_cases (p : LegacyPrefix) : p.isStray = false ∨ ∃ low, p = .strayRex low := by
  cases p with
  | strayRex low => exact .inr ⟨low, rfl⟩
  | _ => exact .inl rfl

theorem noRexPair_cons {p : LegacyPrefix} (hp : p.isStray = false) (ps : List LegacyPrefix) :
    noRexPair (p :: ps) = noRexPair ps := by
  cases ps <;> simp [noRexPair, hp]

theorem noRexPair_tail {p : LegacyPrefix} {ps : List LegacyPrefix} (h : noRexPair (p :: ps) = true) : noRexPair ps = true := by
  cases ps with
  | nil => rfl
  | cons q ps => exact ((Bool.and_eq_true _ _).mp h).2

theorem noRexPair_take {ps : List LegacyPrefix} (h : noRexPair ps = true) (n : Nat) : noRexPair (ps.take n) = true := by
  induction ps generalizing n with
  | nil => simp [noRexPair]
  | cons p ps ih =>
    cases n with
    | zero => rfl
    | succ n =>
      have ih := ih (noRexPair_tail h) n
      cases ps with
      | nil => simp [noRexPair]
      | cons q ps =>
        cases n with
        | zero => rfl
        | succ n =>
          simp only [List.take_succ_cons, noRexPair, Bool.and_eq_true] at h ih ⊢
          exact ⟨h.1, ih⟩

theorem straysOk_cons {p : LegacyPrefix} (hp : p.isStray = false) (ps : List LegacyPrefix) :
    straysOk (p :: ps) = straysOk ps := by
  unfold straysOk
  rw [noRexPair_cons hp]
  cases ps with
  | nil => simp [hp]
  | cons q ps => rw [List.getLast?_cons_cons]

/-- A REX byte out of place is followed by a prefix that is none. -/
theorem straysOk_stray {low : BitVec 4} {ps : List LegacyPrefix} :
    straysOk (.strayRex low :: ps) = true ↔ ∃ q qs, ps = q :: qs ∧ q.isStray = false ∧ straysOk ps = true := by
  cases ps with
  | nil => simp [straysOk, noRexPair, LegacyPrefix.isStray]
  | cons q qs =>
    unfold straysOk
    rw [List.getLast?_cons_cons]
    have hs : (LegacyPrefix.strayRex low).isStray = true := rfl
    cases hq : q.isStray <;> simp [noRexPair, hq, hs]

theorem straysOk_of_plain {ps : List LegacyPrefix} (h : ∀ p ∈ ps, p.isStray = false) : straysOk ps = true := by
  induction ps with
  | nil => rfl
  | cons p ps ih =>
    rw [straysOk_cons (h p List.mem_cons_self)]
    exact ih fun q hq => h q (List.mem_cons_of_mem _ hq)

/-- Scanning prefixes before bytes whose own scan finds none. -/
theorem scan_prefixes {m64 : Bool} {ps : List LegacyPrefix} {rex : Option (BitVec 4)} {tl rest : List Byte}
    (htl : scanPrefixes m64 tl = ([], rex, rest)) (hs : m64 = true ∨ ∀ p ∈ ps, p.isStray = false)
    (hl : straysOk ps = true) : scanPrefixes m64 (ps.map prefixByte ++ tl) = (ps, rex, rest) := by
  induction ps with
  | nil => exact htl
  | cons p ps ih =>
    have hs' : m64 = true ∨ ∀ q ∈ ps, q.isStray = false :=
      hs.imp id fun h q hq => h q (List.mem_cons_of_mem _ hq)
    rw [List.map_cons, List.cons_append]
    rcases isStray_cases p with hp | ⟨low, rfl⟩
    · rw [straysOk_cons hp] at hl
      rw [scanPrefixes, classify_prefixByte m64 p hp]
      simp [ih hs' hl]
    · obtain ⟨q, qs, rfl, hq, hl⟩ := straysOk_stray.mp hl
      have hm : m64 = true := hs.resolve_right fun h => by cases h _ List.mem_cons_self
      subst hm
      rw [scanPrefixes, show prefixByte (.strayRex low) = 4#4 ++ low from rfl, classify_rex]
      have ih := ih hs' hl
      simp only [ih, hq]
      rfl

/-- What a scan found: the bytes are the prefixes, the REX byte in force and the rest. -/
theorem scan_inv {m64 : Bool} {bs : List Byte} {ps : List LegacyPrefix} {rex : Option (BitVec 4)} {rest : List Byte}
    (h : scanPrefixes m64 bs = (ps, rex, rest)) :
    bs = ps.map prefixByte ++ (rexBytes rex ++ rest) ∧ (m64 = true ∨ (rex = none ∧ ∀ p ∈ ps, p.isStray = false)) ∧
      straysOk ps = true := by
  induction bs generalizing ps rex rest with
  | nil =>
    cases h
    exact ⟨rfl, .inr ⟨rfl, by simp⟩, rfl⟩
  | cons b bs ih =>
    have hc := classify_inv m64 b
    rw [scanPrefixes] at h
    cases hcl : classifyByte m64 b with
    | other =>
      simp only [hcl] at h
      cases h
      exact ⟨rfl, .inr ⟨rfl, by simp⟩, rfl⟩
    | legacy p =>
      rw [hcl] at h hc
      obtain ⟨hb, hstray⟩ : b = prefixByte p ∧ p.isStray = false := by simpa [classSays] using hc
      cases hsc : scanPrefixes m64 bs with
      | mk ps' q =>
        obtain ⟨rex', rest'⟩ := q
        rw [hsc] at h
        cases h
        obtain ⟨h1, h2, h3⟩ := ih hsc
        refine ⟨by rw [h1, hb]; rfl, h2.imp id fun ⟨hr, hp⟩ => ⟨hr, ?_⟩, by rwa [straysOk_cons hstray]⟩
        intro x hx
        rcases List.mem_cons.mp hx with rfl | hx
        · exact hstray
        · exact hp x hx
    | rexByte low =>
      rw [hcl] at h hc
      obtain ⟨hb, hm⟩ : b = 4#4 ++ low ∧ m64 = true := by simpa [classSays] using hc
      cases hsc : scanPrefixes m64 bs with
      | mk ps' q =>
        obtain ⟨rex', rest'⟩ := q
        obtain ⟨h1, h2, h3⟩ := ih hsc
        rw [hsc] at h
        cases ps' with
        | nil =>
          cases rex' with
          | none =>
            cases h
            exact ⟨by rw [h1, hb]; rfl, .inl hm, rfl⟩
          | some l =>
            cases h
            exact ⟨rfl, .inl hm, rfl⟩
        | cons p ps' =>
          simp only at h
          split at h
          · cases h
            exact ⟨rfl, .inl hm, rfl⟩
          · rename_i hp
            cases h
            exact ⟨by rw [h1, hb]; rfl, .inl hm, straysOk_stray.mpr ⟨p, ps', rfl, by simpa using hp, h3⟩⟩

/-- Two REX bytes one after the other are left where the opcode should stand (R60, R73). -/
theorem scan_two_rex (l l' : BitVec 4) (bs : List Byte) :
    ∃ rex, scanPrefixes true ((4#4 ++ l) :: (4#4 ++ l') :: bs) = ([], rex, (4#4 ++ l) :: (4#4 ++ l') :: bs) ∨
      scanPrefixes true ((4#4 ++ l) :: (4#4 ++ l') :: bs) = ([], rex, (4#4 ++ l') :: bs) := by
  rw [scanPrefixes, classify_rex]
  rcases h : scanPrefixes true ((4#4 ++ l') :: bs) with ⟨ps, rex, rest⟩
  obtain ⟨h1, -, -⟩ := scan_inv h
  cases ps with
  | nil =>
    cases rex with
    | none =>
      refine ⟨some l, .inr ?_⟩
      simp only
      rw [h1]
      rfl
    | some r => exact ⟨none, .inl rfl⟩
  | cons p ps =>
    refine ⟨none, .inl ?_⟩
    have hp : p.isStray = true := by
      rcases isStray_cases p with hp | ⟨low, rfl⟩
      · have hc := classify_prefixByte true p hp
        rw [← (List.cons.inj h1).1, classify_rex] at hc
        cases hc
      · rfl
    simp [hp]

/-! Lengths. -/

@[simp] theorem length_encodeDisp (d : Disp) : (encodeDisp d).length = dispLength d := by
  cases d <;> simp [encodeDisp, dispLength]

@[simp] theorem length_encodeDisp16 (d : Disp16) : (encodeDisp16 d).length = disp16Length d := by
  cases d <;> simp [encodeDisp16, disp16Length]

@[simp] theorem length_encodeForm (f : MemForm) : (encodeForm f).length = 1 + formLength f := by
  cases f <;> simp [encodeForm, formLength] <;> omega

@[simp] theorem length_encodeOperand (w : Bool) (op : Operand) : (encodeOperand w op).length = operandLength op := by
  obtain ⟨ps, rex, f⟩ := op
  cases rex <;> simp [encodeOperand, encodeRex, operandLength] <;> omega

end Sys2Proof
end

