-- ==== Sys2Proof/Laws/Codec.lean ====
section
/-! SUPPORT. The laws of the whole decoder on the bytes of an instruction: read back, and cut short. -/

namespace Sys2Proof

open Machine

/-- The decoder from ModRM on reads a form back. -/
theorem decodeModrm_encode {cm : CodeMode} {ps rex} {f : MemForm} (h16 : formIs16 f = (addressSize cm (has67 ps) == .a16))
    (hf : f.fieldsOk = true) (rest : List Byte) :
    decodeModrm cm ps rex (modrmByte (formMod f) (formRm f)) (formTail f ++ rest) =
      some (if hasMandatory ps then .undefined (lengthToModrm ps rex + formLength f) else .instr (makeInstr ps rex f)) := by
  simp only [decodeModrm, modrmByte_reg, modrmByte_mod, modrmByte_rm, ne_eq, not_true, if_false,
    if_neg (formMod_ne_three f), parseForm_encode h16 hf]
  split <;> rfl

/-- What `rexOk` says of the prefixes and the REX prefix in force (30_encoding.md R60, R72). -/
theorem rexOk_iff {m : Mode} {op : Operand} : op.rexOk m = true ↔
    (op.rex ≠ none → m = .bits64) ∧ ((m == .bits64) = true ∨ ∀ p ∈ op.prefixes, p.isStray = false) ∧
      straysOk op.prefixes = true := by
  obtain ⟨ps, rex, f⟩ := op
  by_cases hm : m = .bits64
  · simp [Operand.rexOk, hm]
  · cases rex <;> simp [Operand.rexOk, hm]

/-- Scanning the prefixes and the REX prefix in force of an operand that fits its mode, up to the opcode. -/
theorem scan_operand {m : Mode} {op : Operand} (w : Bool) (h : op.rexOk m = true) (bs : List Byte) :
    scanPrefixes (m == .bits64) (op.prefixes.map prefixByte ++ (encodeRex w op.rex ++ 0x0F#8 :: bs)) =
      (op.prefixes, op.rex.map (rexLow w), 0x0F#8 :: bs) := by
  obtain ⟨h1, h2, h3⟩ := rexOk_iff.mp h
  rw [encodeRex_eq]
  exact scan_prefixes (scan_opcode _ _ _ (by intro h; simp at h; simpa using h1 h)) h2 h3

theorem lengthToModrm_eq {ps : List LegacyPrefix} {rex : Option Rex} {f : MemForm} (w : Bool) :
    lengthToModrm ps (rex.map (rexLow w)) + formLength f = operandLength ⟨ps, rex, f⟩ := by
  simp [lengthToModrm, operandLength]

/-- What the decoder answers on the bytes of an operand that fits its mode: #UD with a prefix NP forbids, else the instruction. -/
theorem decodeBytes_encodeOperand {cm : CodeMode} {op : Operand} (w : Bool) (h : op.shapeOk cm = true) (rest : List Byte) :
    decodeBytes cm (encodeOperand w op ++ rest) =
      some (if hasMandatory op.prefixes then .undefined (operandLength op)
        else .instr (makeInstr op.prefixes (op.rex.map (rexLow w)) op.form)) := by
  obtain ⟨ps, rex, f⟩ := op
  simp only [Operand.shapeOk, Bool.and_eq_true, beq_iff_eq] at h
  obtain ⟨⟨hr, h16⟩, hf⟩ := h
  simp only [decodeBytes, encodeOperand, List.append_assoc, List.cons_append, scan_operand w hr]
  simp only [decodeOpcode, ne_eq, not_true, if_false, encodeForm_eq, List.cons_append]
  rw [decodeModrm_encode h16 hf rest, lengthToModrm_eq]

/-- Bytes that decode within the 15-byte limit. -/
theorem decode_of_decodeBytes {cm : CodeMode} {bs : List Byte} {d : Decoded} {rest : List Byte}
    (hlen : bs.length ≤ 15) (h : ∀ rest, decodeBytes cm (bs ++ rest) = some d) : decode cm (bs ++ rest) = d := by
  unfold decode
  rw [List.take_append, List.take_of_length_le hlen, h]

/-- REX.W = 0 or no REX gives XSAVEC back. -/
theorem makeInstr_encode_false (op : Operand) : makeInstr op.prefixes (op.rex.map (rexLow false)) op.form = .xsavec op := by
  obtain ⟨ps, rex, f⟩ := op
  cases rex with
  | none => rfl
  | some r => simp only [Option.map_some, makeInstr, rexLow_w, rexOf_rexLow]; rfl

/-- REX.W = 1 gives XSAVEC64 back. -/
theorem makeInstr_encode_true (op : Operand) (h : op.rex.isSome = true) :
    makeInstr op.prefixes (op.rex.map (rexLow true)) op.form = .xsavec64 op := by
  obtain ⟨ps, rex, f⟩ := op
  cases rex with
  | none => cases h
  | some r => simp only [Option.map_some, makeInstr, rexLow_w, rexOf_rexLow]; rfl

/-- A form cut short has no meaning. -/
theorem parseForm_short {asz : AddrSize} {f : MemForm} (h16 : formIs16 f = (asz == .a16)) (hf : f.fieldsOk = true)
    {n : Nat} (hn : n < (formTail f).length) : parseForm asz (formMod f) (formRm f) ((formTail f).take n) = none := by
  cases hp : parseForm asz (formMod f) (formRm f) ((formTail f).take n) with
  | none => rfl
  | some g =>
    exfalso
    obtain ⟨g16, gf, gm, gr, rest, hg⟩ := parseForm_eq_some (formMod_ne_three f) hp
    have h1 := parseForm_encode h16 hf []
    have h2 := parseForm_encode g16 gf (rest ++ (formTail f).drop n)
    rw [← List.append_assoc, ← hg, List.take_append_drop, ← gm, ← gr] at h2
    rw [List.append_nil, h2] at h1
    cases h1
    have := congrArg List.length hg
    simp at this
    omega

/-- Bytes that are all prefixes, no two of them REX bytes in a row, leave nothing for the opcode. -/
theorem scan_only_prefixes {m64 : Bool} {ps : List LegacyPrefix} (hs : m64 = true ∨ ∀ p ∈ ps, p.isStray = false)
    (hr : noRexPair ps = true) : ∃ qs rex, scanPrefixes m64 (ps.map prefixByte) = (qs, rex, []) := by
  induction ps with
  | nil => exact ⟨[], none, rfl⟩
  | cons p ps ih =>
    obtain ⟨qs, rex, h⟩ := ih (hs.imp id fun h q hq => h q (List.mem_cons_of_mem _ hq)) (noRexPair_tail hr)
    rcases isStray_cases p with hp | ⟨low, rfl⟩
    · rw [List.map_cons, scanPrefixes, classify_prefixByte m64 p hp]
      simp only [h]
      exact ⟨_, _, rfl⟩
    · have hm : m64 = true := hs.resolve_right fun h => by cases h _ List.mem_cons_self
      subst hm
      rw [List.map_cons, scanPrefixes, show prefixByte (.strayRex low) = 4#4 ++ low from rfl, classify_rex]
      cases ps with
      | nil => exact ⟨_, _, rfl⟩
      | cons q ps =>
        have hq : q.isStray = false := by simpa [noRexPair, LegacyPrefix.isStray] using ((Bool.and_eq_true _ _).mp hr).1
        rcases hsc : scanPrefixes true (ps.map prefixByte) with ⟨a, r, c⟩
        have h' : (q :: a, r, c) = (qs, rex, []) := by
          rw [← h, List.map_cons, scanPrefixes, classify_prefixByte true q hq]
          simp [hsc]
        cases h'
        simp only [h, hq]
        exact ⟨_, _, rfl⟩

/-- An instruction cut short is not decoded. -/
theorem decodeBytes_short {cm : CodeMode} {op : Operand} (w : Bool) (h : op.shapeOk cm = true) {n : Nat}
    (hn : n < operandLength op) : decodeBytes cm ((encodeOperand w op).take n) = none := by
  obtain ⟨ps, rex, f⟩ := op
  simp only [Operand.shapeOk, Bool.and_eq_true, beq_iff_eq] at h
  obtain ⟨⟨hr, h16⟩, hf⟩ := h
  obtain ⟨hm, hst, hl⟩ := rexOk_iff.mp hr
  simp only [encodeOperand, encodeRex_eq]
  by_cases h1 : n ≤ ps.length
  · rw [List.take_append_of_le_length (by simpa using h1), ← List.map_take]
    obtain ⟨qs, rx, hsc⟩ := scan_only_prefixes (m64 := cm.mode == .bits64) (ps := ps.take n)
      (hst.imp id fun h p hp => h p (List.mem_of_mem_take hp)) (noRexPair_take ((Bool.and_eq_true _ _).mp hl).1 n)
    simp only [decodeBytes, hsc, decodeOpcode]
  obtain ⟨m, rfl⟩ : ∃ m, n = ps.length + m := ⟨n - ps.length, by omega⟩
  have hlen : m < (if rex.isSome then 1 else 0) + 2 + 1 + formLength f := by
    simp only [operandLength] at hn
    omega
  have ht : ∀ l : List Byte, (ps.map prefixByte ++ l).take (ps.length + m) = ps.map prefixByte ++ l.take m := by
    intro l
    rw [List.take_append]
    simp
  rw [ht]
  have hscan := scan_operand w hr
  simp only [encodeRex_eq] at hscan
  have tail : ∀ j, j < 3 + formLength f → 0 < j → decodeOpcode cm ps (rex.map (rexLow w))
      ((0x0F#8 :: 0xC7#8 :: encodeForm f).take j) = none := by
    intro j hj h0
    match j, h0 with
    | 1, _ => simp [decodeOpcode]
    | 2, _ => simp [decodeOpcode]
    | j + 3, _ =>
      have hlf : (formTail f).length = formLength f := by
        have := length_encodeForm f
        rw [encodeForm_eq] at this
        simp at this
        omega
      simp only [List.take_succ_cons, decodeOpcode, ne_eq, not_true, if_false, encodeForm_eq, decodeModrm, modrmByte_reg,
        modrmByte_mod, modrmByte_rm, if_neg (formMod_ne_three f)]
      rw [parseForm_short h16 hf (by omega)]
  cases rex with
  | none =>
    simp only [Option.map_none, rexBytes, List.nil_append] at hscan tail ⊢
    obtain ⟨j, rfl⟩ : ∃ j, m = j + 1 := ⟨m - 1, by omega⟩
    have := tail (j + 1) (by simp at hlen; omega) (by omega)
    rw [List.take_succ_cons] at this ⊢
    simp only [decodeBytes, hscan, this]
  | some r =>
    simp only [Option.map_some, rexBytes, List.cons_append, List.nil_append] at hscan tail ⊢
    obtain ⟨j, rfl⟩ : ∃ j, m = j + 1 := ⟨m - 1, by omega⟩
    rw [List.take_succ_cons]
    cases j with
    | zero =>
      have hc : (cm.mode == .bits64) = true := by simp [hm]
      have : scanPrefixes (cm.mode == .bits64) (ps.map prefixByte ++ [4#4 ++ rexLow w r]) = (ps, some (rexLow w r), []) := by
        refine scan_prefixes ?_ hst hl
        rw [hc, scanPrefixes, classify_rex]
        rfl
      simp only [decodeBytes, List.take_zero, this, decodeOpcode]
    | succ j =>
      have := tail (j + 1) (by simp at hlen; omega) (by omega)
      rw [List.take_succ_cons] at this ⊢
      simp only [decodeBytes, hscan, this]

end Sys2Proof
end

