-- ==== Sys2Proof/Laws/State.lean ====
section
/-! SUPPORT. One lemma per field of the state and per update of it, so that no later proof unfolds a record update. -/

namespace Sys2Proof.Machine

/-! `tick`. -/

@[simp] theorem tick_gpr (s : State) : (tick s).gpr = s.gpr := rfl
@[simp] theorem tick_pc (s : State) : (tick s).pc = s.pc := rfl
@[simp] theorem tick_rflags (s : State) : (tick s).rflags = s.rflags := rfl
@[simp] theorem tick_xcr0 (s : State) : (tick s).xcr0 = s.xcr0 := rfl
@[simp] theorem tick_cr0 (s : State) : (tick s).cr0 = s.cr0 := rfl
@[simp] theorem tick_cr2 (s : State) : (tick s).cr2 = s.cr2 := rfl
@[simp] theorem tick_cr4 (s : State) : (tick s).cr4 = s.cr4 := rfl
@[simp] theorem tick_mxcsr (s : State) : (tick s).mxcsr = s.mxcsr := rfl
@[simp] theorem tick_xinuse (s : State) : (tick s).xinuse = s.xinuse := rfl
@[simp] theorem tick_x87 (s : State) : (tick s).x87 = s.x87 := rfl
@[simp] theorem tick_xmm (s : State) : (tick s).xmm = s.xmm := rfl
@[simp] theorem tick_comps (s : State) : (tick s).comps = s.comps := rfl
@[simp] theorem tick_mode (s : State) : (tick s).mode = s.mode := rfl
@[simp] theorem tick_codeSize (s : State) : (tick s).codeSize = s.codeSize := rfl
@[simp] theorem tick_cplField (s : State) : (tick s).cplField = s.cplField := rfl
@[simp] theorem tick_segs (s : State) : (tick s).segs = s.segs := rfl
@[simp] theorem tick_mem (s : State) : (tick s).mem = s.mem := rfl
@[simp] theorem tick_pageFaults (s : State) : (tick s).pageFaults = s.pageFaults := rfl
@[simp] theorem tick_regions (s : State) : (tick s).regions = s.regions := rfl
@[simp] theorem tick_params (s : State) : (tick s).params = s.params := rfl
@[simp] theorem tick_codeSeen (s : State) : (tick s).codeSeen = s.codeSeen := rfl
@[simp] theorem tick_areasWritten (s : State) : (tick s).areasWritten = s.areasWritten := rfl
@[simp] theorem tick_draws (s : State) : (tick s).draws = s.draws + 1 := rfl

/-! `completed`. -/

@[simp] theorem completed_gpr (s : State) (form : Form) (t : Target) (len : Nat) :
    (completed s form t len).gpr = s.gpr := rfl
@[simp] theorem completed_pc (s : State) (form : Form) (t : Target) (len : Nat) :
    (completed s form t len).pc = s.pc + BitVec.ofNat 64 len := rfl
@[simp] theorem completed_rflags (s : State) (form : Form) (t : Target) (len : Nat) :
    (completed s form t len).rflags = s.rflags := rfl
@[simp] theorem completed_xcr0 (s : State) (form : Form) (t : Target) (len : Nat) :
    (completed s form t len).xcr0 = s.xcr0 := rfl
@[simp] theorem completed_cr0 (s : State) (form : Form) (t : Target) (len : Nat) :
    (completed s form t len).cr0 = s.cr0 := rfl
@[simp] theorem completed_cr2 (s : State) (form : Form) (t : Target) (len : Nat) :
    (completed s form t len).cr2 = s.cr2 := rfl
@[simp] theorem completed_cr4 (s : State) (form : Form) (t : Target) (len : Nat) :
    (completed s form t len).cr4 = s.cr4 := rfl
@[simp] theorem completed_mxcsr (s : State) (form : Form) (t : Target) (len : Nat) :
    (completed s form t len).mxcsr = s.mxcsr := rfl
@[simp] theorem completed_xinuse (s : State) (form : Form) (t : Target) (len : Nat) :
    (completed s form t len).xinuse = s.xinuse := rfl
@[simp] theorem completed_x87 (s : State) (form : Form) (t : Target) (len : Nat) :
    (completed s form t len).x87 = s.x87 := rfl
@[simp] theorem completed_xmm (s : State) (form : Form) (t : Target) (len : Nat) :
    (completed s form t len).xmm = s.xmm := rfl
@[simp] theorem completed_comps (s : State) (form : Form) (t : Target) (len : Nat) :
    (completed s form t len).comps = s.comps := rfl
@[simp] theorem completed_mode (s : State) (form : Form) (t : Target) (len : Nat) :
    (completed s form t len).mode = s.mode := rfl
@[simp] theorem completed_codeSize (s : State) (form : Form) (t : Target) (len : Nat) :
    (completed s form t len).codeSize = s.codeSize := rfl
@[simp] theorem completed_cplField (s : State) (form : Form) (t : Target) (len : Nat) :
    (completed s form t len).cplField = s.cplField := rfl
@[simp] theorem completed_segs (s : State) (form : Form) (t : Target) (len : Nat) :
    (completed s form t len).segs = s.segs := rfl
@[simp] theorem completed_mem (s : State) (form : Form) (t : Target) (len : Nat) :
    (completed s form t len).mem = storeAll s.mem (byteAddress s t) (stores s form ++ unsavedBytes s form t) := rfl
@[simp] theorem completed_pageFaults (s : State) (form : Form) (t : Target) (len : Nat) :
    (completed s form t len).pageFaults = s.pageFaults := rfl
@[simp] theorem completed_regions (s : State) (form : Form) (t : Target) (len : Nat) :
    (completed s form t len).regions = s.regions := rfl
@[simp] theorem completed_params (s : State) (form : Form) (t : Target) (len : Nat) :
    (completed s form t len).params = s.params := rfl
@[simp] theorem completed_codeSeen (s : State) (form : Form) (t : Target) (len : Nat) :
    (completed s form t len).codeSeen = codeBytes s len ++ s.codeSeen := rfl
@[simp] theorem completed_areasWritten (s : State) (form : Form) (t : Target) (len : Nat) :
    (completed s form t len).areasWritten = spans s t ++ s.areasWritten := rfl
@[simp] theorem completed_draws (s : State) (form : Form) (t : Target) (len : Nat) :
    (completed s form t len).draws = s.draws + 1 := rfl

/-! `faultState`: only memory, CR2 and the record of the operand can change, and only at a page fault. -/

@[simp] theorem faultState_gpr (s : State) (form : Form) (t : Target) (r : Raised) :
    (faultState s form t r).gpr = s.gpr := by
  cases h : r.record <;> simp [faultState, h]
@[simp] theorem faultState_pc (s : State) (form : Form) (t : Target) (r : Raised) :
    (faultState s form t r).pc = s.pc := by
  cases h : r.record <;> simp [faultState, h]
@[simp] theorem faultState_rflags (s : State) (form : Form) (t : Target) (r : Raised) :
    (faultState s form t r).rflags = s.rflags := by
  cases h : r.record <;> simp [faultState, h]
@[simp] theorem faultState_xcr0 (s : State) (form : Form) (t : Target) (r : Raised) :
    (faultState s form t r).xcr0 = s.xcr0 := by
  cases h : r.record <;> simp [faultState, h]
@[simp] theorem faultState_cr0 (s : State) (form : Form) (t : Target) (r : Raised) :
    (faultState s form t r).cr0 = s.cr0 := by
  cases h : r.record <;> simp [faultState, h]
@[simp] theorem faultState_cr4 (s : State) (form : Form) (t : Target) (r : Raised) :
    (faultState s form t r).cr4 = s.cr4 := by
  cases h : r.record <;> simp [faultState, h]
@[simp] theorem faultState_mxcsr (s : State) (form : Form) (t : Target) (r : Raised) :
    (faultState s form t r).mxcsr = s.mxcsr := by
  cases h : r.record <;> simp [faultState, h]
@[simp] theorem faultState_xinuse (s : State) (form : Form) (t : Target) (r : Raised) :
    (faultState s form t r).xinuse = s.xinuse := by
  cases h : r.record <;> simp [faultState, h]
@[simp] theorem faultState_x87 (s : State) (form : Form) (t : Target) (r : Raised) :
    (faultState s form t r).x87 = s.x87 := by
  cases h : r.record <;> simp [faultState, h]
@[simp] theorem faultState_xmm (s : State) (form : Form) (t : Target) (r : Raised) :
    (faultState s form t r).xmm = s.xmm := by
  cases h : r.record <;> simp [faultState, h]
@[simp] theorem faultState_comps (s : State) (form : Form) (t : Target) (r : Raised) :
    (faultState s form t r).comps = s.comps := by
  cases h : r.record <;> simp [faultState, h]
@[simp] theorem faultState_mode (s : State) (form : Form) (t : Target) (r : Raised) :
    (faultState s form t r).mode = s.mode := by
  cases h : r.record <;> simp [faultState, h]
@[simp] theorem faultState_codeSize (s : State) (form : Form) (t : Target) (r : Raised) :
    (faultState s form t r).codeSize = s.codeSize := by
  cases h : r.record <;> simp [faultState, h]
@[simp] theorem faultState_cplField (s : State) (form : Form) (t : Target) (r : Raised) :
    (faultState s form t r).cplField = s.cplField := by
  cases h : r.record <;> simp [faultState, h]
@[simp] theorem faultState_segs (s : State) (form : Form) (t : Target) (r : Raised) :
    (faultState s form t r).segs = s.segs := by
  cases h : r.record <;> simp [faultState, h]
@[simp] theorem faultState_pageFaults (s : State) (form : Form) (t : Target) (r : Raised) :
    (faultState s form t r).pageFaults = s.pageFaults := by
  cases h : r.record <;> simp [faultState, h]
@[simp] theorem faultState_regions (s : State) (form : Form) (t : Target) (r : Raised) :
    (faultState s form t r).regions = s.regions := by
  cases h : r.record <;> simp [faultState, h]
@[simp] theorem faultState_params (s : State) (form : Form) (t : Target) (r : Raised) :
    (faultState s form t r).params = s.params := by
  cases h : r.record <;> simp [faultState, h]
@[simp] theorem faultState_codeSeen (s : State) (form : Form) (t : Target) (r : Raised) :
    (faultState s form t r).codeSeen = s.codeSeen := by
  cases h : r.record <;> simp [faultState, h]
@[simp] theorem faultState_draws (s : State) (form : Form) (t : Target) (r : Raised) :
    (faultState s form t r).draws = s.draws + 1 := by
  cases h : r.record <;> simp [faultState, h]

theorem faultState_of_none (s : State) (form : Form) (t : Target) (r : Raised) (h : r.record = none) :
    faultState s form t r = tick s := by
  simp [faultState, h]

theorem faultState_mem (s : State) (form : Form) (t : Target) (r : Raised) :
    (faultState s form t r).mem =
      if r.record = none then s.mem
      else storeAll s.mem (byteAddress s t) ((stores s form).filter (fun w => storedAtFault s t w.1)) := by
  cases h : r.record <;> simp [faultState, h]

theorem faultState_cr2 (s : State) (form : Form) (t : Target) (r : Raised) :
    (faultState s form t r).cr2 = r.record.getD s.cr2 := by
  cases h : r.record <;> simp [faultState, h]

theorem faultState_areasWritten (s : State) (form : Form) (t : Target) (r : Raised) :
    (faultState s form t r).areasWritten = if r.record = none then s.areasWritten else spans s t ++ s.areasWritten := by
  cases h : r.record <;> simp [faultState, h]

/-! `placeTableWord`. -/

@[simp] theorem placeTableWord_gpr (s : State) (nbits w : Nat) :
    (placeTableWord s nbits w).gpr = s.gpr := rfl
@[simp] theorem placeTableWord_pc (s : State) (nbits w : Nat) :
    (placeTableWord s nbits w).pc = s.pc := rfl
@[simp] theorem placeTableWord_rflags (s : State) (nbits w : Nat) :
    (placeTableWord s nbits w).rflags = s.rflags := rfl
@[simp] theorem placeTableWord_xcr0 (s : State) (nbits w : Nat) :
    (placeTableWord s nbits w).xcr0 = s.xcr0 := rfl
@[simp] theorem placeTableWord_cr0 (s : State) (nbits w : Nat) :
    (placeTableWord s nbits w).cr0 = s.cr0 := rfl
@[simp] theorem placeTableWord_cr2 (s : State) (nbits w : Nat) :
    (placeTableWord s nbits w).cr2 = s.cr2 := rfl
@[simp] theorem placeTableWord_cr4 (s : State) (nbits w : Nat) :
    (placeTableWord s nbits w).cr4 = s.cr4 := rfl
@[simp] theorem placeTableWord_mxcsr (s : State) (nbits w : Nat) :
    (placeTableWord s nbits w).mxcsr = s.mxcsr := rfl
@[simp] theorem placeTableWord_xinuse (s : State) (nbits w : Nat) :
    (placeTableWord s nbits w).xinuse = s.xinuse := rfl
@[simp] theorem placeTableWord_x87 (s : State) (nbits w : Nat) :
    (placeTableWord s nbits w).x87 = s.x87 := rfl
@[simp] theorem placeTableWord_xmm (s : State) (nbits w : Nat) :
    (placeTableWord s nbits w).xmm = s.xmm := rfl
@[simp] theorem placeTableWord_comps (s : State) (nbits w : Nat) :
    (placeTableWord s nbits w).comps = s.comps := rfl
@[simp] theorem placeTableWord_mode (s : State) (nbits w : Nat) :
    (placeTableWord s nbits w).mode = tableMode.mode := rfl
@[simp] theorem placeTableWord_codeSize (s : State) (nbits w : Nat) :
    (placeTableWord s nbits w).codeSize = s.codeSize := rfl
@[simp] theorem placeTableWord_cplField (s : State) (nbits w : Nat) :
    (placeTableWord s nbits w).cplField = s.cplField := rfl
@[simp] theorem placeTableWord_segs (s : State) (nbits w : Nat) :
    (placeTableWord s nbits w).segs = s.segs := rfl
@[simp] theorem placeTableWord_pageFaults (s : State) (nbits w : Nat) :
    (placeTableWord s nbits w).pageFaults = s.pageFaults := rfl
@[simp] theorem placeTableWord_regions (s : State) (nbits w : Nat) :
    (placeTableWord s nbits w).regions = s.regions := rfl
@[simp] theorem placeTableWord_params (s : State) (nbits w : Nat) :
    (placeTableWord s nbits w).params = s.params := rfl
@[simp] theorem placeTableWord_codeSeen (s : State) (nbits w : Nat) :
    (placeTableWord s nbits w).codeSeen = s.codeSeen := rfl
@[simp] theorem placeTableWord_areasWritten (s : State) (nbits w : Nat) :
    (placeTableWord s nbits w).areasWritten = [] := rfl
@[simp] theorem placeTableWord_draws (s : State) (nbits w : Nat) :
    (placeTableWord s nbits w).draws = s.draws := rfl

end Sys2Proof.Machine
end

