-- ==== Sys2Proof/Laws/Exec.lean ====
section
/-! SUPPORT. What one execution can do, said once: the inversion of the checks, of both instructions and of a step. -/

namespace Sys2Proof.Machine

/-! The exception checks. -/

theorem mem_defaultPriority (c : CheckClass) : c ∈ defaultPriority := by
  cases c <;> simp [defaultPriority]

/-- No exception is reported exactly when no level's check applies, whatever the order. -/
theorem reported_eq_none {s : State} {form : Form} {op : Operand} {t : Target} :
    reported s form op t = none ↔ ∀ c, check s form op t c = none := by
  unfold reported
  rw [List.findSome?_eq_none_iff]
  exact ⟨fun h c => h c (List.mem_append_right _ (mem_defaultPriority c)), fun h c _ => h c⟩

/-- A reported exception is one whose check applies. -/
theorem reported_eq_some {s : State} {form : Form} {op : Operand} {t : Target} {r : Raised}
    (h : reported s form op t = some r) : ∃ c, check s form op t c = some r := by
  obtain ⟨c, -, hc⟩ := List.exists_of_findSome?_eq_some h
  exact ⟨c, hc⟩

/-- The default order, spelled out. -/
theorem reported_default {s : State} {form : Form} {op : Operand} {t : Target} (h : DefaultOrder s) :
    reported s form op t =
      ((check s form op t .ud).or <| (check s form op t .nm).or <| (check s form op t .extent).or <|
        (check s form op t .alignment).or (check s form op t .page)) := by
  unfold reported
  rw [h]
  cases h1 : check s form op t .ud <;> cases h2 : check s form op t .nm <;>
    cases h3 : check s form op t .extent <;> cases h4 : check s form op t .alignment <;>
    cases h5 : check s form op t .page <;>
    simp [defaultPriority, List.findSome?, h1, h2, h3, h4, h5]

theorem check_ud {s : State} {form : Form} {op : Operand} {t : Target} :
    check s form op t .ud = if udCondition s op then some ⟨.ud, none, none⟩ else none := rfl

theorem check_nm {s : State} {form : Form} {op : Operand} {t : Target} :
    check s form op t .nm = if crTs s then some ⟨.nm, none, none⟩ else none := rfl

theorem udCondition_eq_false {s : State} {i : Instr} (he : Enabled s) (hl : NoLock i) :
    udCondition s (instrOperand i) = false := by
  obtain ⟨h1, h2, h3, -⟩ := he
  simp [udCondition, h1, h2, h3, show hasLock (instrOperand i).prefixes = false from hl]

/-- No extent check applies when every byte of the operand passes. -/
theorem extentCheck_eq_none {s : State} {form : Form} {t : Target} (h : ∀ k < areaSize s, extentOk s t k = true) :
    extentCheck s form t = none := by
  have h1 : (stores s form).any (fun w => !extentOk s t w.1) = false := by
    rw [List.any_eq_false]
    intro w hw
    simp [h w.1 (stores_offset hw).1]
  have h2 : (List.range (areaSize s)).any (fun k => !extentOk s t k) = false := by
    rw [List.any_eq_false]
    intro k hk
    simp [h k (List.mem_range.mp hk)]
  simp [extentCheck, h1, h2]

/-- An extent exception means that some byte of the operand failed (60_exceptions.md R121). -/
theorem extentCheck_eq_some {s : State} {form : Form} {t : Target} {r : Raised} (h : extentCheck s form t = some r) :
    r = extentException s t ∧ ∃ k < areaSize s, extentOk s t k = false := by
  unfold extentCheck at h
  split at h
  · rename_i hc
    refine ⟨(Option.some.inj h).symm, ?_⟩
    rcases Bool.or_eq_true _ _ ▸ hc with hc | hc
    · obtain ⟨w, hw, hf⟩ := List.any_eq_true.mp hc
      exact ⟨w.1, (stores_offset hw).1, by simpa using hf⟩
    · obtain ⟨k, hk, hf⟩ := List.any_eq_true.mp (Bool.and_eq_true _ _ ▸ hc).1
      exact ⟨k, List.mem_range.mp hk, by simpa using hf⟩
  · cases h

/-- A byte of the footprint that fails must raise (60_exceptions.md R121). -/
theorem extentCheck_of_store {s : State} {form : Form} {t : Target} {w : Nat × Byte} (hw : w ∈ stores s form)
    (hf : extentOk s t w.1 = false) : extentCheck s form t = some (extentException s t) := by
  have : (stores s form).any (fun w => !extentOk s t w.1) = true := List.any_eq_true.mpr ⟨w, hw, by simp [hf]⟩
  simp [extentCheck, this]

theorem mem_faultingBytes {s : State} {t : Target} {p : Nat × ErrorCode} (h : p ∈ faultingBytes s t) :
    s.mode ≠ .realAddress ∧ ∃ k < areaSize s, p.1 = byteAddress s t k ∧ pageFault s (byteAddress s t k) = some p.2 := by
  unfold faultingBytes at h
  split at h
  · cases h
  · rename_i hm
    obtain ⟨k, hk, hp⟩ := List.mem_filterMap.mp h
    obtain ⟨c, hc, rfl⟩ := Option.map_eq_some_iff.mp hp
    exact ⟨hm, k, List.mem_range.mp hk, rfl, hc⟩

theorem mem_faultingBytes_of {s : State} {t : Target} {k : Nat} {c : ErrorCode} (hm : s.mode ≠ .realAddress)
    (hk : k < areaSize s) (hc : pageFault s (byteAddress s t k) = some c) : (byteAddress s t k, c) ∈ faultingBytes s t := by
  unfold faultingBytes
  rw [if_neg hm, List.mem_filterMap]
  exact ⟨k, List.mem_range.mpr hk, by simp [hc]⟩

/-- A page fault reports some faulting byte of the operand (60_exceptions.md R116, R123). -/
theorem pageCheck_eq_some {s : State} {form : Form} {t : Target} {r : Raised} (h : pageCheck s form t = some r) :
    s.mode ≠ .realAddress ∧ ∃ k < areaSize s, ∃ c, pageFault s (byteAddress s t k) = some c ∧
      r = ⟨.pf, some c, some (BitVec.ofNat 64 (byteAddress s t k))⟩ := by
  unfold pageCheck at h
  split at h
  · cases h
  · rename_i b bs hb
    split at h
    · have hp : ((b :: bs)[Config.faultPick s.draws % (bs.length + 1)]?).getD b ∈ faultingBytes s t := by
        rw [hb]
        have hlt : Config.faultPick s.draws % (bs.length + 1) < (b :: bs).length :=
          Nat.mod_lt _ (Nat.succ_pos _)
        rw [List.getElem?_eq_getElem hlt]
        exact List.getElem_mem hlt
      obtain ⟨hm, k, hk, h1, h2⟩ := mem_faultingBytes hp
      refine ⟨hm, k, hk, _, h2, ?_⟩
      rw [← Option.some.inj h]
      simp only [h1]
    · cases h

/-- No page fault when no byte of the operand faults. -/
theorem pageCheck_eq_none {s : State} {form : Form} {t : Target} (h : ∀ k < areaSize s, pageBad s t k = false) :
    pageCheck s form t = none := by
  cases hp : pageCheck s form t with
  | none => rfl
  | some r =>
    obtain ⟨hm, k, hk, c, hc, -⟩ := pageCheck_eq_some hp
    have := h k hk
    simp [pageBad, hm, hc] at this

/-- A byte of the footprint that page-faults must raise (60_exceptions.md R121). -/
theorem pageCheck_of_store {s : State} {form : Form} {t : Target} {w : Nat × Byte} (hw : w ∈ stores s form)
    (hf : pageBad s t w.1 = true) : ∃ r, pageCheck s form t = some r := by
  obtain ⟨hm, hc⟩ : s.mode ≠ .realAddress ∧ (pageFault s (byteAddress s t w.1)).isSome = true := by
    simpa [pageBad] using hf
  obtain ⟨c, hc⟩ := Option.isSome_iff_exists.mp hc
  have hmem := mem_faultingBytes_of hm (stores_offset hw).1 hc
  have hany : (stores s form).any (fun w => pageBad s t w.1) = true := List.any_eq_true.mpr ⟨w, hw, hf⟩
  unfold pageCheck
  split
  · rename_i hnil
    rw [hnil] at hmem
    cases hmem
  · simp [hany]

theorem alignmentCheck_eq_none {s : State} {t : Target} :
    alignmentCheck s t = none ↔ alignedAddress s t % 64 = 0 := by
  unfold alignmentCheck
  split
  · simp [*]
  · split <;> simp [*]

theorem alignedAddress_of_aligned {s : State} {t : Target} (h : AreaAligned t) : alignedAddress s t % 64 = 0 := by
  unfold alignedAddress
  split
  · exact h.1
  · exact h.2

/-- Under the launch premises no exception applies (70_reset_and_hazards.md R140). -/
theorem reported_of_launch {s : State} {i : Instr} (h : Launch s i) :
    reported s (instrForm i) (instrOperand i) (targetOf i s) = none := by
  obtain ⟨-, he, hl, ha, hacc, -⟩ := h
  rw [reported_eq_none]
  intro c
  cases c with
  | ud => simp [check, udCondition_eq_false he hl]
  | nm => simp [check, he.2.2.2]
  | extent => exact extentCheck_eq_none fun k hk => (hacc k hk).1
  | alignment => exact alignmentCheck_eq_none.mpr (alignedAddress_of_aligned ha)
  | page => exact pageCheck_eq_none fun k hk => (hacc k hk).2

/-- Only a page fault records an address. -/
theorem check_record {s : State} {form : Form} {op : Operand} {t : Target} {c : CheckClass} {r : Raised}
    (h : check s form op t c = some r) : (r.record ≠ none ↔ r.x = .pf) := by
  cases c with
  | ud =>
    simp only [check] at h
    split at h <;> simp at h
    subst h
    simp
  | nm =>
    simp only [check] at h
    split at h <;> simp at h
    subst h
    simp
  | extent =>
    obtain ⟨rfl, -⟩ := extentCheck_eq_some h
    unfold extentException
    split
    · simp
    · split <;> simp
  | alignment =>
    simp only [check, alignmentCheck] at h
    split at h
    · cases h
    · split at h <;> · simp at h; subst h; simp
  | page =>
    obtain ⟨-, k, -, c, -, rfl⟩ := pageCheck_eq_some h
    simp

/-! Refusals. -/

theorem operandRefusal_eq_none {s : State} {t : Target} {len : Nat} :
    operandRefusal s t len = none ↔ wraps s t = false ∧ AreaOrdinary s t len := by
  unfold operandRefusal AreaOrdinary
  split
  · simp [*]
  · rename_i hw
    split
    · rename_i r hr
      have := List.find?_some hr
      have hmem := List.mem_of_find?_eq_some hr
      simp only [reduceCtorEq, false_iff]
      rintro ⟨-, h, -⟩
      simp [h r hmem] at this
    · rename_i hn
      rw [List.find?_eq_none] at hn
      have hn' : ∀ r ∈ s.regions, meetsOperand s t r.range = false := fun r hr => by simpa using hn r hr
      have hw' : wraps s t = false := (Bool.not_eq_true _).mp hw
      cases ho : onCode s t len
      · simpa [hw'] using hn'
      · simp

theorem wraps_eq_false {s : State} {t : Target} :
    wraps s t = false ↔ (s.mode ≠ .realAddress → s.mode ≠ .bits64 → t.area + areaSize s ≤ 2 ^ 32) := by
  by_cases h1 : s.mode = .realAddress
  · simp [wraps, h1]
  · by_cases h2 : s.mode = .bits64
    · simp [wraps, h2]
    · simp [wraps, h1, h2]

theorem wraps_of_noWrap {s : State} {t : Target} (h : AreaNoWrap s t) : wraps s t = false := by
  rw [wraps_eq_false]
  intro h1 h2
  unfold AreaNoWrap linearWidth at h
  rwa [if_neg h1, if_neg h2] at h

/-- A byte of W that passes its extent check, of an operand that is not refused, has a linear address of its own. -/
theorem hasByte_of_stored {s : State} {form : Form} {t : Target} {w : Nat × Byte} (hw : w ∈ stores s form)
    (he : extentOk s t w.1 = true) (hr : wraps s t = false) : hasByte s t w.1 = true := by
  rw [hasByte_iff]
  unfold extentOk at he
  by_cases hm : s.mode = .realAddress
  · rw [hm] at he
    rw [byteAddress_real hm]
    have : t.ea + w.1 ≤ 0xFFFF := by simpa using he
    omega
  · refine ⟨?_, fun h => absurd h hm⟩
    by_cases h64 : s.mode = .bits64
    · rw [h64] at he
      simp only [canonical, Bool.and_eq_true, decide_eq_true_eq] at he
      exact he.1
    · have h1 := wraps_eq_false.mp hr hm h64
      have h2 := (stores_offset hw).1
      rw [byteAddress_of_ne hm]
      omega

theorem extentOk_of_none {s : State} {form : Form} {t : Target} {w : Nat × Byte} (h : extentCheck s form t = none)
    (hw : w ∈ stores s form) : extentOk s t w.1 = true := by
  cases hf : extentOk s t w.1 with
  | true => rfl
  | false =>
    rw [extentCheck_of_store hw hf] at h
    cases h

/-! The operand's linear addresses. -/

/-- The ranges of the operand hold the addresses of its bytes. -/
theorem inOperand_iff {s : State} {t : Target} (ha : s.mode = .realAddress → t.area < 2 ^ 32) {a : Nat} :
    inOperand s t a = true ↔ ∃ k < areaSize s, byteAddress s t k = a := by
  have hsz := area_ge s
  unfold inOperand spans
  by_cases hm : s.mode = .realAddress
  · have ha := ha hm
    simp only [byteAddress_real hm]
    by_cases hw : 2 ^ 32 < t.area + areaSize s
    · rw [if_pos ⟨hm, hw⟩]
      simp only [List.any_cons, List.any_nil, Range.has, Bool.or_false, Bool.or_eq_true, Bool.and_eq_true, decide_eq_true_eq]
      constructor
      · rintro (⟨h1, h2⟩ | ⟨h1, h2⟩)
        · exact ⟨a - t.area, by omega, by omega⟩
        · exact ⟨a + 2 ^ 32 - t.area, by omega, by omega⟩
      · rintro ⟨k, hk, rfl⟩
        omega
    · rw [if_neg fun h => hw h.2]
      simp only [List.any_cons, List.any_nil, Range.has, Bool.or_false, Bool.and_eq_true, decide_eq_true_eq]
      constructor
      · rintro ⟨h1, h2⟩
        exact ⟨a - t.area, by omega, by omega⟩
      · rintro ⟨k, hk, rfl⟩
        omega
  · rw [if_neg fun h => hm h.1]
    simp only [byteAddress_of_ne hm, List.any_cons, List.any_nil, Range.has, Bool.or_false, Bool.and_eq_true, decide_eq_true_eq]
    constructor
    · rintro ⟨h1, h2⟩
      exact ⟨a - t.area, by omega, by omega⟩
    · rintro ⟨k, hk, rfl⟩
      omega

theorem area_lt (i : Instr) {s : State} (h : s.mode ≠ .bits64) : (targetOf i s).area < 2 ^ 32 := by
  simp only [targetOf, resolve, linearAddress, linearWidth, if_neg h]
  exact Nat.mod_lt _ (by omega)

theorem inOperand_targetOf {i : Instr} {s : State} {a : Nat} :
    inOperand s (targetOf i s) a = true ↔ ∃ k < areaSize s, byteAddress s (targetOf i s) k = a :=
  inOperand_iff fun h => area_lt i (by simp [h])

/-- A range meets the operand when it holds an address of it. -/
theorem meetsOperand_iff {s : State} {t : Target} {r : Range} :
    meetsOperand s t r = true ↔ ∃ a, r.has a = true ∧ inOperand s t a = true := by
  unfold meetsOperand inOperand
  simp only [List.any_eq_true, Range.has, Bool.and_eq_true, decide_eq_true_eq]
  constructor
  · rintro ⟨q, hq, h⟩
    exact ⟨max r.lo q.lo, by omega, q, hq, by omega⟩
  · rintro ⟨a, h, q, hq, h'⟩
    exact ⟨q, hq, by omega⟩

/-! The two instructions. -/

/-- Both instructions are the shared operation, XSAVEC64 in 64-bit mode only. -/
theorem exec_eq (i : Instr) (s : State) :
    exec i s = if instrForm i = .xsavec64 ∧ s.mode ≠ .bits64 then .refused .notEncodable
      else xsavecCommon (instrForm i) (instrOperand i) (instrLength i) s := by
  cases i with
  | xsavec op => simp [exec, execXsavec, instrForm, instrOperand]
  | xsavec64 op =>
    by_cases h : s.mode = .bits64 <;> simp [exec, execXsavec64, instrForm, instrOperand, h]

theorem exec_of_modeOk {i : Instr} {s : State} (h : ModeOk i s) :
    exec i s = xsavecCommon (instrForm i) (instrOperand i) (instrLength i) s := by
  rw [exec_eq, if_neg]
  rintro ⟨h1, h2⟩
  exact h2 (h h1)

/-- What a completed execution is. -/
theorem exec_next {i : Instr} {s t : State} (h : exec i s = .next t) :
    ModeOk i s ∧ reported s (instrForm i) (instrOperand i) (targetOf i s) = none ∧
      operandRefusal s (targetOf i s) (instrLength i) = none ∧ PcFits s (instrLength i) ∧
      t = completed s (instrForm i) (targetOf i s) (instrLength i) := by
  rw [exec_eq] at h
  split at h
  · cases h
  · rename_i hm
    refine ⟨fun h1 => by_contra fun h2 => hm ⟨h1, h2⟩, ?_⟩
    unfold xsavecCommon at h
    split at h
    · unfold raise takeException at h
      split at h <;> cases h
    · rename_i hr
      unfold complete at h
      split at h
      · cases h
      · rename_i hq
        split at h
        · cases h
        · rename_i hp
          exact ⟨hr, hq, Nat.lt_of_not_le hp, (Host.Outcome.next.inj h).symm⟩

/-- What a faulting execution is. -/
theorem exec_fault {i : Instr} {s : State} {f : Fault} (h : exec i s = .fault f) :
    ModeOk i s ∧ ∃ r, reported s (instrForm i) (instrOperand i) (targetOf i s) = some r ∧
      f = .exception r.x r.code (faultState s (instrForm i) (targetOf i s) r) ∧
      (r.record ≠ none → operandRefusal s (targetOf i s) (instrLength i) = none) := by
  rw [exec_eq] at h
  split at h
  · cases h
  · rename_i hm
    refine ⟨fun h1 => by_contra fun h2 => hm ⟨h1, h2⟩, ?_⟩
    unfold xsavecCommon at h
    split at h
    · rename_i r hr
      refine ⟨r, hr, ?_⟩
      unfold raise takeException at h
      split at h
      · cases h
      · rename_i hx
        refine ⟨(Host.Outcome.fault.inj h).symm, fun hrec => ?_⟩
        cases hq : operandRefusal s (targetOf i s) (instrLength i) with
        | none => rfl
        | some q =>
          obtain ⟨la, hla⟩ := Option.ne_none_iff_exists'.mp hrec
          exact absurd hq (hx la q hla)
    · unfold complete at h
      split at h
      · cases h
      · split at h <;> cases h

/-- When an exception that leaves no store behind is reported, it is the outcome. -/
theorem exec_of_reported {i : Instr} {s : State} {r : Raised} (hm : ModeOk i s)
    (h : reported s (instrForm i) (instrOperand i) (targetOf i s) = some r) (hr : r.record = none) :
    exec i s = .fault (.exception r.x r.code (tick s)) := by
  have h' : reported s (instrForm i) (instrOperand i) (resolve s (instrOperand i) (instrLength i)) = some r := h
  rw [exec_of_modeOk hm]
  simp [xsavecCommon, h', raise, hr, takeException, faultState]

/-- When nothing applies and nothing is refused, the execution completes. -/
theorem exec_of_clear {i : Instr} {s : State} (hm : ModeOk i s)
    (h : reported s (instrForm i) (instrOperand i) (targetOf i s) = none)
    (hq : operandRefusal s (targetOf i s) (instrLength i) = none) (hp : PcFits s (instrLength i)) :
    exec i s = .next (completed s (instrForm i) (targetOf i s) (instrLength i)) := by
  have h' : reported s (instrForm i) (instrOperand i) (resolve s (instrOperand i) (instrLength i)) = none := h
  have hq' : operandRefusal s (resolve s (instrOperand i) (instrLength i)) (instrLength i) = none := hq
  have hp' : ¬2 ^ pcWidth s.mode ≤ s.pc.toNat + instrLength i := Nat.not_le_of_lt hp
  rw [exec_of_modeOk hm]
  simp only [xsavecCommon, h', complete, hq', if_neg hp']
  rfl

/-- After a completion each byte of W has a linear address of its own. -/
theorem hasByte_of_next {i : Instr} {s t : State} (h : exec i s = .next t) {w : Nat × Byte}
    (hw : w ∈ stores s (instrForm i)) : hasByte s (targetOf i s) w.1 = true := by
  obtain ⟨-, hr, hq, -, -⟩ := exec_next h
  exact hasByte_of_stored hw (extentOk_of_none (reported_eq_none.mp hr .extent) hw) (operandRefusal_eq_none.mp hq).1

/-! The step. -/

theorem unlessOverwritten_of_false {s : State} {n : Nat} {o : Outcome} (h : overwritten s n = false) :
    unlessOverwritten s n o = o := by simp [unlessOverwritten, h]

theorem unlessOverwritten_of_true {s : State} {n : Nat} {o : Outcome} (h : overwritten s n = true) :
    unlessOverwritten s n o = .refused (.notOrdinary .code) := by simp [unlessOverwritten, h]

/-- A step that goes on ran the decoded instruction, which no XSAVEC of the run had stored over. -/
theorem step_next {s t : State} (h : step s = .next t) :
    ∃ i, decode (codeMode s) (fetchBytes s) = .instr i ∧ overwritten s (instrLength i) = false ∧ exec i s = .next t := by
  unfold step at h
  cases hd : decode (codeMode s) (fetchBytes s) with
  | instr i =>
    simp only [hd, runDecoded, unlessOverwritten] at h
    split at h
    · cases h
    · exact ⟨i, rfl, (Bool.not_eq_true _).mp ‹_›, h⟩
  | undefined len =>
    simp only [hd, runDecoded, unlessOverwritten, takeException] at h
    split at h <;> cases h
  | tooLong =>
    simp only [hd, runDecoded, unlessOverwritten, takeException] at h
    split at h <;> cases h
  | truncated =>
    simp only [hd, runDecoded, fetchEnd] at h
    split at h <;> cases h
  | outOfScope => simp [hd, runDecoded] at h

end Sys2Proof.Machine
end

