-- ==== Sys2Proof/Laws/PerInstr.lean ====
section
/-! SUPPORT. Statements about every instruction as syntax, one lemma per constructor. -/

namespace Sys2Proof.Laws

/-- The encoding of an instruction has the instruction's length L (30_encoding.md R71). -/
def EncodedLength.Statement (i : Instr) : Prop := (encode i).length = Machine.instrLength i

theorem EncodedLength.xsavec (op : Operand) : EncodedLength.Statement (.xsavec op) := length_encodeOperand false op

theorem EncodedLength.xsavec64 (op : Operand) : EncodedLength.Statement (.xsavec64 op) := length_encodeOperand true op

end Sys2Proof.Laws
end

