-- ==== Sys2Proof/Laws/Read.lean ====
section
/-! SUPPORT. What memory holds after an execution: every stored byte, and the little-endian values made of stored bytes. -/

namespace Sys2Proof.Machine

/-- A value whose bytes stand in memory, least significant first, reads back. -/
theorem readAt_of_read {w : Nat} {m : Memory} {addr : Nat → Nat} {a n : Nat} {v : BitVec w}
    (h : ∀ j < n, Memory.read m (addr (a + j)) = some (v.extractLsb' (8 * j) 8)) :
    readAt m addr a n = some (v.toNat % 2 ^ (8 * n)) := by
  have key : ∀ n a k, (∀ j < n, Memory.read m (addr (a + j)) = some (v.extractLsb' (8 * (k + j)) 8)) →
      readAt m addr a n = some (v.toNat / 2 ^ (8 * k) % 2 ^ (8 * n)) := by
    intro n
    induction n with
    | zero => intro a k _; simp [readAt, Nat.mod_one]
    | succ n ih =>
      intro a k h
      have h0 := h 0 (by omega)
      have h1 := ih (a + 1) (k + 1) fun j hj => by
        rw [show a + 1 + j = a + (j + 1) by omega, show k + 1 + j = k + (j + 1) by omega]
        exact h (j + 1) (by omega)
      rw [Nat.add_zero, Nat.add_zero] at h0
      simp only [readAt, h0, h1, BitVec.extractLsb'_toNat, Nat.shiftRight_eq_div_pow]
      congr 1
      rw [show 8 * (k + 1) = 8 * k + 8 by omega, show 8 * (n + 1) = 8 + 8 * n by omega, Nat.pow_add, Nat.pow_add,
        ← Nat.div_div_eq_div_mul, Nat.mod_mul (x := v.toNat / 2 ^ (8 * k))]
  have := key n a 0 (by simpa using h)
  simpa using this

/-- After completion every byte of W holds what was stored (40_xsavec.md R90). -/
theorem read_stored {i : Instr} {s t : State} (h : exec i s = .next t) {w : Nat × Byte}
    (hw : w ∈ stores s (instrForm i)) : Memory.read t.mem (byteAddress s (targetOf i s) w.1) = some w.2 := by
  have hb {v : Nat × Byte} (hv : v ∈ stores s (instrForm i)) := hasByte_of_next h hv
  obtain ⟨-, -, -, -, rfl⟩ := exec_next h
  rw [completed_mem, storeAll_append, read_storeAll_outside]
  · exact read_storeAll_mem (nodup_stores s _) (fun x hx y hy he => hasByte_inj (hb hx) (hb hy) he) hw
  · intro u hu hc
    obtain ⟨-, h1, h2⟩ := mem_unsavedBytes hu
    rw [← hasByte_inj (hb hw) h2 hc] at h1
    exact unsavedOffsets_not_stored hw h1

/-- A run of stored bytes reads back as its little-endian value. -/
theorem readAt_stored {w : Nat} {i : Instr} {s t : State} (h : exec i s = .next t) {off n : Nat} {v : BitVec w}
    (hsub : ∀ u ∈ placeAt off (bytesLE n v), u ∈ stores s (instrForm i)) :
    readAt t.mem (byteAddress s (targetOf i s)) off n = some (v.toNat % 2 ^ (8 * n)) :=
  readAt_of_read fun j hj =>
    read_stored h (hsub (off + j, v.extractLsb' (8 * j) 8) (mem_placeAt.mpr ⟨j, by rw [bytesLE_getElem?, if_pos hj], rfl⟩))

end Sys2Proof.Machine
end

