-- ==== Sys2Proof/Laws/Step.lean ====
section
/-! SUPPORT. The laws of fetching at pc and of one step. -/

namespace Sys2Proof.Machine

/-- A fetch gives at most the bytes asked for. -/
theorem fetchFrom_length (s : State) (n k : Nat) : (fetchFrom s n k).length ≤ n := by
  induction n generalizing k with
  | zero => simp [fetchFrom]
  | succ n ih =>
    unfold fetchFrom
    split
    · split
      · simp [ih]
      · simp
    · simp

/-- The fetched bytes are within the 15-byte limit. -/
theorem decode_fetch {s : State} {d : Decoded} (h : decodeBytes (codeMode s) (fetchBytes s) = some d) :
    decode (codeMode s) (fetchBytes s) = d := by
  unfold decode
  rw [List.take_of_length_le (show (fetchBytes s).length ≤ 15 from fetchFrom_length s 15 0), h]

/-- A step on an encoding that raises #UD. -/
theorem step_undefined {s : State} {len : Nat} (h : decode (codeMode s) (fetchBytes s) = .undefined len)
    (ho : overwritten s len = false) : step s = .fault (.exception .ud none (tick s)) := by
  simp [step, h, runDecoded, takeException, unlessOverwritten, ho]

/-- A step on an instruction is `exec` of it, unless an XSAVEC of the run stored over it. -/
theorem step_instr {s : State} {i : Instr} (h : decode (codeMode s) (fetchBytes s) = .instr i) :
    step s = unlessOverwritten s (instrLength i) (exec i s) := by simp [step, h, runDecoded]

/-- When memory holds `bs` from `k` bytes after pc on and pc does not wrap, a fetch of at least as many bytes begins with them. -/
theorem fetchFrom_of_read {s : State} {bs : List Byte} {n k : Nat} (hn : bs.length ≤ n)
    (hp : bs = [] ∨ s.pc.toNat + k + bs.length ≤ 2 ^ pcWidth s.mode)
    (hr : ∀ j < bs.length, Memory.read s.mem (codeAddress s (k + j)) = bs[j]?) :
    ∃ rest, fetchFrom s n k = bs ++ rest := by
  induction bs generalizing n k with
  | nil => exact ⟨_, rfl⟩
  | cons b bs ih =>
    obtain ⟨m, rfl⟩ : ∃ m, n = m + 1 := ⟨n - 1, by simp at hn; omega⟩
    have hp : s.pc.toNat + k + (bs.length + 1) ≤ 2 ^ pcWidth s.mode := by simpa using hp
    have h0 := hr 0 (by simp)
    obtain ⟨rest, h⟩ := ih (n := m) (k := k + 1) (by simpa using hn) (.inr (by omega)) fun j hj => by
      have := hr (j + 1) (by simpa using hj)
      rw [show k + 1 + j = k + (j + 1) by omega, this]
      simp
    refine ⟨rest, ?_⟩
    rw [Nat.add_zero] at h0
    simp only [fetchFrom, if_pos (show s.pc.toNat + k < 2 ^ pcWidth s.mode by omega), h0, List.getElem?_cons_zero, h]
    rfl

end Sys2Proof.Machine
end

