-- ==== Sys2Proof/Laws/Run.lean ====
section
/-! SUPPORT. The laws of programs and runs: what a completed instruction leaves to the rest of the code, and how a run goes on. -/

namespace Sys2Proof.Machine

/-- An instruction has at least its two opcode bytes and ModRM. -/
theorem instrLength_ge (i : Instr) : 3 ≤ instrLength i := by
  cases i <;> simp only [instrLength, operandLength] <;> omega

/-- Under the launch premises an instruction completes (70_reset_and_hazards.md R140). -/
theorem exec_of_launch {i : Instr} {s : State} (h : Launch s i) :
    exec i s = .next (completed s (instrForm i) (targetOf i s) (instrLength i)) := by
  have hr := reported_of_launch h
  obtain ⟨hm, -, -, -, -, hw, ho, hp⟩ := h
  exact exec_of_clear hm hr (operandRefusal_eq_none.mpr ⟨wraps_of_noWrap hw, ho⟩) hp

/-- pc moves on by L, without a wrap. -/
theorem toNat_pc_completed {s : State} {form : Form} {t : Target} {len : Nat} (h : PcFits s len) :
    (completed s form t len).pc.toNat = s.pc.toNat + len := by
  have h : s.pc.toNat + len < 2 ^ pcWidth s.mode := h
  have : 2 ^ pcWidth s.mode ≤ 2 ^ 64 := Nat.pow_le_pow_right (by omega) (by cases s.mode <;> simp [pcWidth])
  rw [completed_pc, BitVec.toNat_add, BitVec.toNat_ofNat]
  omega

/-- The code after an instruction, seen before and after it has run. -/
theorem codeAddress_completed {s : State} {form : Form} {t : Target} {len : Nat} (h : PcFits s len) (k : Nat) :
    codeAddress (completed s form t len) k = codeAddress s (len + k) := by
  have hp := toNat_pc_completed (form := form) (t := t) h
  show (segBase s .cs + (completed s form t len).pc.toNat + k) % 2 ^ linearWidth s.mode = _
  rw [hp, codeAddress]
  congr 1
  omega

/-- Every address outside the operand reads as before. -/
theorem read_completed_outside {i : Instr} {s : State} {a : Nat} (h : inOperand s (targetOf i s) a = false) :
    Memory.read (completed s (instrForm i) (targetOf i s) (instrLength i)).mem a = Memory.read s.mem a := by
  rw [completed_mem]
  refine read_storeAll_outside fun w hw he => ?_
  have hk : w.1 < areaSize s := by
    rcases List.mem_append.mp hw with hw | hw
    · exact (stores_offset hw).1
    · exact (unsavedOffsets_offset (mem_unsavedBytes hw).2.1).1
  rw [inOperand_targetOf.mpr ⟨w.1, hk, he.symm⟩] at h
  cases h

/-- Code is stored over after an instruction when it was before, or lies in the operand. -/
theorem areasWritten_completed (s : State) (form : Form) (t : Target) (len a : Nat) :
    (completed s form t len).areasWritten.any (·.has a) = (inOperand s t a || s.areasWritten.any (·.has a)) := by
  rw [completed_areasWritten, List.any_append]
  rfl

/-- A run that stands at the program's end is final, however many steps are allowed. -/
theorem Program.run_of_stop {p : Program} {s : State} (h : s.pc = p.stop) (fuel : Nat) : p.run fuel s = .final s := by
  cases fuel <;> simp [Program.run, h]

/-- A run that does not stand at the program's end goes on with the next state of a step. -/
theorem Program.run_of_next {p : Program} {s t : State} (h : s.pc ≠ p.stop) (hs : step s = .next t) (fuel : Nat) :
    p.run (fuel + 1) s = p.run fuel t := by
  simp [Program.run, h, hs]

/-- A run that has not ended does not stand at the program's end. -/
theorem Program.ne_stop_of_running {p : Program} {n : Nat} {s u : State} (h : p.run n s = .running u) : u.pc ≠ p.stop := by
  induction n generalizing s with
  | zero =>
    simp only [Program.run] at h
    split at h
    · cases h
    · cases h
      assumption
  | succ n ih =>
    simp only [Program.run] at h
    split at h
    · cases h
    · split at h
      · exact ih h
      · cases h
      · cases h

/-- A run that has not ended goes on from the state it stands in. -/
theorem Program.run_add {p : Program} {n : Nat} {s u : State} (h : p.run n s = .running u) (k : Nat) :
    p.run (n + k) s = p.run k u := by
  induction n generalizing s with
  | zero =>
    simp only [Program.run] at h
    split at h
    · cases h
    · cases h
      rw [Nat.zero_add]
  | succ n ih =>
    rw [Nat.add_right_comm]
    simp only [Program.run] at h ⊢
    split at h
    · cases h
    · rename_i hp
      rw [if_neg hp]
      split at h
      · exact ih h
      · cases h
      · cases h

/-- The two records of a run only grow (20_memory.md R57). -/
theorem records_of_execAll {is : List Instr} {s t : State} (h : execAll is s = .next t) :
    (∀ a ∈ s.codeSeen, a ∈ t.codeSeen) ∧ ∀ r ∈ s.areasWritten, r ∈ t.areasWritten := by
  induction is generalizing s with
  | nil =>
    cases h
    exact ⟨fun _ h => h, fun _ h => h⟩
  | cons i is ih =>
    simp only [execAll] at h
    split at h
    · rename_i u hu
      obtain ⟨h1, h2⟩ := ih h
      obtain ⟨-, -, -, -, rfl⟩ := exec_next hu
      exact ⟨fun a ha => h1 a (List.mem_append_right _ ha), fun r hr => h2 r (List.mem_append_right _ hr)⟩
    · cases h
    · cases h

end Sys2Proof.Machine
end

