-- ==== Sys2Proof/Laws/Same.lean ====
section
/-! SUPPORT. What an execution depends on: states that agree on it store the same bytes and report the same exception. -/

namespace Sys2Proof.Machine

/-- Two states that agree on what an XSAVEC stores: the request, the components and the constants. -/
structure SameStores (s s' : State) : Prop where
  rfbm   : rfbm s' = rfbm s
  xinuse : s'.xinuse = s.xinuse
  mxcsr  : s'.mxcsr = s.mxcsr
  x87    : s'.x87 = s.x87
  xmm    : s'.xmm = s.xmm
  comps  : s'.comps = s.comps
  mode   : s'.mode = s.mode
  params : s'.params = s.params

theorem SameStores.toBeSaved {s s' : State} (h : SameStores s s') : toBeSaved s' = toBeSaved s := by
  simp only [Machine.toBeSaved, h.rfbm, h.xinuse, h.mxcsr]

theorem SameStores.slots {s s' : State} (h : SameStores s s') : slots s' = slots s := by
  simp only [Machine.slots, h.rfbm, h.params]

theorem SameStores.areaSize {s s' : State} (h : SameStores s s') : areaSize s' = areaSize s := by
  simp only [Machine.areaSize, h.rfbm, h.params]

theorem SameStores.x87Image {s s' : State} (h : SameStores s s') (form : Form) : x87Image s' form = x87Image s form := by
  have hr : reserved s' = reserved s := by
    funext k
    simp only [reserved, h.x87]
  have hst : stImage s' = stImage s := by
    funext k
    simp only [stImage, h.x87, hr]
  have hp : pointerImage s' form = pointerImage s form := by cases form <;> simp only [pointerImage, h.x87, hr]
  have ho : otherX87At s' form = otherX87At s form := by
    funext o k
    simp only [otherX87At, h.x87]
  simp only [Machine.x87Image, standardX87, fopImage, hst, hp, hr, ho, h.x87, h.params]

theorem SameStores.sseImage {s s' : State} (h : SameStores s s') : sseImage s' = sseImage s := by
  have ho : otherSseAt s' = otherSseAt s := by
    funext o k
    simp only [otherSseAt, h.xmm, h.mxcsr, h.params, h.mode]
  simp only [Machine.sseImage, standardSse, xmmCount, ho, h.mxcsr, h.params, h.xmm, h.mode]

theorem SameStores.storeSlot {s s' : State} (h : SameStores s s') : storeSlot s' = storeSlot s := by
  funext sl
  simp only [Machine.storeSlot, h.toBeSaved, compImage, h.params, h.comps]

/-- Such states store the same bytes. -/
theorem SameStores.stores {s s' : State} (h : SameStores s s') (form : Form) : stores s' form = stores s form := by
  simp only [Machine.stores, storeX87, storeSse, storeExtended, storeHeader, xcompBv, h.toBeSaved, h.slots, h.rfbm,
    h.x87Image, h.sseImage, h.storeSlot]

theorem SameStores.unsavedOffsets {s s' : State} (h : SameStores s s') (form : Form) :
    unsavedOffsets s' form = unsavedOffsets s form := by
  simp only [Machine.unsavedOffsets, h.toBeSaved, h.slots, h.x87Image, h.sseImage, h.params]

theorem SameStores.byteAddress {s s' : State} (h : SameStores s s') : byteAddress s' = byteAddress s := by
  funext t k
  simp only [Machine.byteAddress, h.mode]

theorem SameStores.unsavedBytes {s s' : State} (h : SameStores s s') (hd : s'.draws = s.draws) (form : Form) (t : Target) :
    unsavedBytes s' form t = unsavedBytes s form t := by
  have hb : hasByte s' = hasByte s := by
    funext t k
    simp only [hasByte, h.byteAddress, h.mode]
  simp only [Machine.unsavedBytes, h.unsavedOffsets, h.params, hb, hd]

theorem SameStores.spans {s s' : State} (h : SameStores s s') : spans s' = spans s := by
  funext t
  simp only [Machine.spans, h.mode, h.areaSize]

/-- Two states that agree on every check of an operand. -/
structure SameChecks (s s' : State) : Prop extends SameStores s s' where
  draws      : s'.draws = s.draws
  cr0        : s'.cr0 = s.cr0
  cr4        : s'.cr4 = s.cr4
  segs       : s'.segs = s.segs
  pageFaults : s'.pageFaults = s.pageFaults
  privilege  : (acEnabled s' = true ∧ cpl s' = 3) ↔ (acEnabled s = true ∧ cpl s = 3)

theorem SameChecks.extentOk {s s' : State} (h : SameChecks s s') : extentOk s' = extentOk s := by
  funext t k
  simp only [Machine.extentOk, h.mode, h.params, h.byteAddress]
  cases s.mode <;> simp only [segment, h.segs]

theorem SameChecks.pageFault {s s' : State} (h : SameChecks s s') : pageFault s' = pageFault s := by
  funext a
  simp only [Machine.pageFault, h.pageFaults]

theorem SameChecks.pageBad {s s' : State} (h : SameChecks s s') : pageBad s' = pageBad s := by
  funext t k
  simp only [Machine.pageBad, h.mode, h.pageFault, h.byteAddress]

theorem SameChecks.check {s s' : State} (h : SameChecks s s') (form : Form) (op : Operand) (t : Target) :
    check s' form op t = check s form op t := by
  funext c
  cases c with
  | ud =>
    have : udCondition s' op = udCondition s op := by simp only [udCondition, crOsxsave, h.cr4, h.params]
    simp only [Machine.check, this]
  | nm =>
    have : crTs s' = crTs s := by simp only [crTs, h.cr0]
    simp only [Machine.check, this]
  | extent => simp only [Machine.check, extentCheck, extentException, h.stores, h.extentOk, h.areaSize, h.draws, h.mode]
  | alignment =>
    have ha : alignedAddress s' t = alignedAddress s t := by simp only [alignedAddress, h.params]
    have hp := h.privilege
    simp only [Machine.check, alignmentCheck, ha, h.params, h.mode]
    refine if_congr Iff.rfl rfl (if_congr ?_ rfl rfl)
    tauto
  | page => simp only [Machine.check, pageCheck, faultingBytes, h.stores, h.pageBad, h.pageFault, h.areaSize, h.draws, h.mode,
    h.byteAddress]

/-- Such states report the same exception. -/
theorem SameChecks.reported {s s' : State} (h : SameChecks s s') (form : Form) (op : Operand) (t : Target) :
    reported s' form op t = reported s form op t := by
  simp only [Machine.reported, h.check, h.params]
end Sys2Proof.Machine
end

