-- ==== Sys2Proof/Tests/Slice0.lean ====
section
/-! SUPPORT. The model's own tests: ill-formed terms refused, words written out from the spec decoded, one-step vectors of
95_test_vectors.md, and a witness for the hypotheses of every statement. Expected values come from the spec's tables. -/

namespace Sys2Proof.Tests

open Sys2Proof Sys2Proof.Machine

/-! One theorem at a time: a pending kernel evaluation holds a thread and its stack. -/

section

set_option Elab.async false

/-! Small states. -/

/-- 64-bit code. -/
def cm64 : CodeMode := ⟨.bits64, .bits32⟩

/-- 32-bit protected-mode code. -/
def cm32 : CodeMode := ⟨.protectedMode, .bits32⟩

/-- Real-address mode. -/
def cm16 : CodeMode := ⟨.realAddress, .bits16⟩

/-- RAX, RCX, RDX, RBX, RSP, RDI. -/
def regs (rax rcx rdx rbx rsp rdi : Word) : Vector Word 16 :=
  #v[rax, rcx, rdx, rbx, rsp, 0, 0, rdi, 0, 0, 0, 0, 0, 0, 0, 0]

/-- A size for component 2 alone. -/
def sized (n : BitVec 32) : Params := { Params.atReset with compSize := (Vector.replicate 61 0).set 0 n }

/-- The common state of 95_test_vectors.md section 2.1 with configuration TC1: 64-bit mode, RDI = 2000H, mask `mask`. -/
def tc1 (mask : Word) : State :=
  { State.reset with
    gpr := regs mask 0 0 0 0 0x2000, pc := 0x1000, xcr0 := 7, cr4 := 0x40000, xinuse := 7, mode := .bits64, params := sized 256 }

/-- Instruction bytes at pc, in a state whose pc is its linear address. -/
def withCode (s : State) (bs : List Byte) : State := { s with mem := storeCode s bs }

/-- `xsavec [rdi]` and `xsavec64 [rdi]`. -/
def rdi : Operand := ⟨[], none, .based 7 .noDisp⟩

def rdi64 : Operand := ⟨[], some ⟨false, false, false⟩, .based 7 .noDisp⟩

/-- 32-bit protected mode, ECX = `ecx`, every segment accessible up to `limit`. -/
def prot (mask ecx : Word) (limit : Nat) : State :=
  let g : Segment := ⟨0, 0, [⟨0, limit⟩]⟩
  { tc1 mask with gpr := regs mask ecx 0 0 0 0, mode := .protectedMode, codeSize := .bits32, segs := ⟨g, g, g, g, g, g⟩ }

/-- `xsavec [ecx]`. -/
def ecx : Operand := ⟨[], none, .based 1 .noDisp⟩

/-- Real-address mode, BX = `bx`, DS base 10000H. -/
def real (mask bx : Word) : State :=
  { tc1 mask with
    gpr := regs mask 0 0 bx 0 0, pc := 0x7C00, mode := .realAddress, codeSize := .bits16,
    segs := { State.reset.segs with cs := Segment.atReset 0 0, ds := Segment.atReset 0x1000 0x10000 } }

/-- `xsavec [bx]`. -/
def bx : Operand := ⟨[], none, .based16 7 .noDisp⟩

/-- Whether an outcome is a next state that passes a check. -/
def nextIs (o : Outcome) (p : State → Bool) : Bool :=
  match o with
  | .next t => p t
  | .fault _ => false
  | .refused _ => false

/-- Whether an outcome is this exception with this code, in a state that passes a check. -/
def faultIs (o : Outcome) (x : Exception) (code : Option ErrorCode) (p : State → Bool) : Bool :=
  match o with
  | .fault (.exception y c t) => y == x && c == code && p t
  | .fault (.fetchAbsent _) => false
  | .next _ => false
  | .refused _ => false

/-- Whether an outcome is this refusal. -/
def refusedIs (o : Outcome) (q : Refusal) : Bool :=
  match o with
  | .refused r => r == q
  | .next _ => false
  | .fault _ => false

/-! Ill-formed terms, one for each check of WellFormed (30_encoding.md R60 to R73). -/

/-- R63: no 66, F2 or F3. -/
theorem test_ill_mandatory :
    (Instr.xsavec ⟨[.opSize], none, .based 7 .noDisp⟩).wellFormed cm64 = false ∧
    (Instr.xsavec ⟨[.repne], none, .based 7 .noDisp⟩).wellFormed cm64 = false ∧
    (Instr.xsavec ⟨[.rep], none, .based 7 .noDisp⟩).wellFormed cm64 = false := by decide

/-- R72: no REX byte outside 64-bit mode. -/
theorem test_ill_rex :
    (Instr.xsavec ⟨[], some ⟨false, false, false⟩, .based 7 .noDisp⟩).wellFormed cm32 = false ∧
    (Instr.xsavec ⟨[.strayRex 8, .seg .fs], none, .based 7 .noDisp⟩).wellFormed cm32 = false := by decide

/-- R60: a byte 40 to 4F immediately before the opcode is the REX prefix. -/
theorem test_ill_stray_last : (Instr.xsavec ⟨[.strayRex 8], none, .based 7 .noDisp⟩).wellFormed cm64 = false := by decide

/-- R60: at most one REX byte: neither behind another one that is not in force, nor behind one that is. -/
theorem test_ill_rex_pair :
    (Instr.xsavec ⟨[.strayRex 8, .strayRex 8, .seg .fs], none, .based 7 .noDisp⟩).wellFormed cm64 = false ∧
    (Instr.xsavec ⟨[.strayRex 0], some ⟨false, false, false⟩, .based 7 .noDisp⟩).wellFormed cm64 = false ∧
    (Instr.xsavec ⟨[.strayRex 8, .seg .fs], none, .based 7 .noDisp⟩).wellFormed cm64 = true := by decide

/-- R67: the form is one of the address size. -/
theorem test_ill_address_size :
    (Instr.xsavec bx).wellFormed cm64 = false ∧ (Instr.xsavec bx).wellFormed cm32 = false ∧
    (Instr.xsavec ecx).wellFormed cm16 = false ∧ (Instr.xsavec ⟨[.addrSize], none, .based 1 .noDisp⟩).wellFormed cm32 = false := by
  decide

/-- R68, R69: register fields that mean another form. -/
theorem test_ill_fields :
    (Instr.xsavec ⟨[], none, .based 4 .noDisp⟩).wellFormed cm64 = false ∧
    (Instr.xsavec ⟨[], none, .based 5 .noDisp⟩).wellFormed cm64 = false ∧
    (Instr.xsavec ⟨[], none, .sib 0 0 5 .noDisp⟩).wellFormed cm64 = false ∧
    (Instr.xsavec ⟨[], none, .based16 6 .noDisp⟩).wellFormed cm16 = false := by decide

/-- R71: at most 15 bytes. -/
theorem test_ill_length :
    (Instr.xsavec ⟨List.replicate 13 (.seg .fs), none, .based 7 .noDisp⟩).wellFormed cm64 = false ∧
    (Instr.xsavec ⟨List.replicate 12 (.seg .fs), none, .based 7 .noDisp⟩).wellFormed cm64 = true := by decide

/-- R62, R72: XSAVEC64 has a REX prefix, in 64-bit mode. -/
theorem test_ill_xsavec64 :
    (Instr.xsavec64 rdi).wellFormed cm64 = false ∧ (Instr.xsavec64 rdi64).wellFormed cm32 = false ∧
    (Instr.xsavec64 rdi64).wellFormed cm64 = true := by decide

/-! Words written out from the spec (30_encoding.md section 6, 95_test_vectors.md section 2.5). -/

/-- XSAVEC: 0000_1111 1100_0111 00_100_111. -/
theorem test_word_xsavec : decodeTableWord 24 0b000011111100011100100111 = some (.xsavec rdi) := by decide

/-- XSAVEC64: 0100_1000 0000_1111 1100_0111 00_100_111. -/
theorem test_word_xsavec64 : decodeTableWord 32 0b01001000000011111100011100100111 = some (.xsavec64 rdi64) := by decide

/-- The table's match values, with zero operand bits: `[rax]`. -/
theorem test_word_match :
    decodeTableWord 24 0x0FC720 = some (.xsavec ⟨[], none, .based 0 .noDisp⟩) ∧
    decodeTableWord 32 0x480FC720 = some (.xsavec64 ⟨[], some ⟨false, false, false⟩, .based 0 .noDisp⟩) := by decide

/-- `xsavec [rsp]`, `xsavec [r8]`, `xsavec [rip+0x1000]`, `xsavec [ecx]`, `xsavec [bx]`. -/
theorem test_decode_worked :
    decode cm64 [0x0F, 0xC7, 0x24, 0x24] = .instr (.xsavec ⟨[], none, .sib 0 4 4 .noDisp⟩) ∧
    decode cm64 [0x41, 0x0F, 0xC7, 0x20] = .instr (.xsavec ⟨[], some ⟨false, false, true⟩, .based 0 .noDisp⟩) ∧
    decode cm64 [0x0F, 0xC7, 0x25, 0x00, 0x10, 0x00, 0x00] = .instr (.xsavec ⟨[], none, .direct 0x1000⟩) ∧
    decode cm32 [0x0F, 0xC7, 0x21] = .instr (.xsavec ecx) ∧
    decode cm16 [0x0F, 0xC7, 0x27] = .instr (.xsavec bx) := by decide

/-- The negative cases of 95_test_vectors.md section 2.5. -/
theorem test_decode_negative :
    decode cm64 [0x66, 0x0F, 0xC7, 0x27] = .undefined 4 ∧ decode cm64 [0xF2, 0x0F, 0xC7, 0x27] = .undefined 4 ∧
    decode cm64 [0xF3, 0x0F, 0xC7, 0x27] = .undefined 4 ∧ decode cm64 [0x0F, 0xC7, 0xE7] = .undefined 3 ∧
    decode cm64 [0x0F, 0xC7, 0x2F] = .outOfScope ∧ decode cm32 [0x48, 0x0F, 0xC7, 0x27] = .outOfScope := by decide

/-- A REX byte that is not in force, and one that is; two in a row match no format (R60, R73). -/
theorem test_decode_rex_place :
    decode cm64 [0x40, 0x48, 0x0F, 0xC7, 0x27] = .outOfScope ∧ decode cm64 [0x40, 0x48, 0x64, 0x0F, 0xC7, 0x27] = .outOfScope ∧
    decode cm64 [0x48, 0x64, 0x0F, 0xC7, 0x27] = .instr (.xsavec ⟨[.strayRex 8, .seg .fs], none, .based 7 .noDisp⟩) ∧
    decode cm64 [0x64, 0x48, 0x0F, 0xC7, 0x27] =
      .instr (.xsavec64 ⟨[.seg .fs], some ⟨false, false, false⟩, .based 7 .noDisp⟩) ∧
    decode cm64 [0x40, 0x0F, 0xC7, 0x27] = .instr (.xsavec rdi64) := by decide

/-! Reset (10_state.md R30). -/

/-- Straight after reset both rows run and raise #UD: CR4.OSXSAVE = 0. -/
theorem test_reset_step :
    faultIs (step (State.reset.withFetchWord 24 0x0FC720)) .ud none (fun t => t.pc == 0xFFF0) = true ∧
    faultIs (step (State.reset.withFetchWord 32 0x480FC720)) .ud none (fun t => t.pc == 0xFFF0) = true := by
  decide +kernel

/-! One-step vectors, at most two theorems an instruction. -/

/-- Configuration TC3 of 95_test_vectors.md, ALIGN64(17) by `al`, mask `mask`; components 9 and 17 begin with 99H and 77H. -/
def tc3 (mask : Word) (al : Bool) : State :=
  { tc1 mask with
    xcr0 := 0x20207, xinuse := 0x20207
    comps := ((Vector.replicate 61 []).set 7 [0x99]).set 15 [0x77]
    params := { Params.atReset with
      compSize := (((Vector.replicate 61 0).set 0 256).set 7 8).set 15 64
      align64 := (Vector.replicate 61 false).set 15 al } }

/-- P4 with stray upper halves in RAX and RDX (V7): 32-bit protected mode, SSE only by the MXCSR exception (V3), eight XMM registers;
and P5: real-address mode up to the last byte of the segment, the linear address is base + EA. -/
theorem test_xsavec_completes :
    nextIs (exec (.xsavec ecx) { prot 0 0 0xFFFFFFFF with
        gpr := regs 0xFFFFFFFF00000003 0x402000 0xDEADBEEF00000000 0 0 0, xinuse := 0, mxcsr := 0x1FA0 }) (fun t =>
      t.pc == 0x1003 && Memory.readLE t.mem 0x402018 4 == some 0x1FA0 && Memory.readLE t.mem 0x402200 8 == some 2 &&
      Memory.readLE t.mem 0x402208 8 == some 0x8000000000000003 && t.mem.length == 152) = true ∧
    nextIs (exec (.xsavec bx) (real 1 0xFDC0)) (fun t => t.pc == 0x7C03 && Memory.readLE t.mem 0x1FFC0 8 == some 1) = true := by
  decide +kernel

/-- EX5, EX8, EX11 through SS, EX14, EX15 and EX17 of section 2.6. -/
theorem test_xsavec_faults :
    faultIs (exec (.xsavec rdi) { tc1 0 with cr0 := 8 }) .nm none (fun _ => true) = true ∧
    faultIs (exec (.xsavec rdi) { tc1 0 with gpr := regs 0 0 0 0 0 0x2020 }) .gp (some 0) (fun _ => true) = true ∧
    faultIs (exec (.xsavec ⟨[], none, .sib 0 4 4 .noDisp⟩) { tc1 0 with gpr := regs 0 0 0 0 0x0000800000000000 0 })
      .ss (some 0) (fun _ => true) = true ∧
    faultIs (exec (.xsavec ecx) (prot 0 0xE00 0xFFF)) .gp (some 0) (fun _ => true) = true ∧
    faultIs (exec (.xsavec ⟨[.seg .ss], none, .based 1 .noDisp⟩) (prot 0 0xE00 0xFFF)) .ss (some 0) (fun _ => true) = true ∧
    faultIs (exec (.xsavec bx) (real 1 0xFE00)) .gp none (fun t => t.pc == 0x7C00 && t.mem == []) = true := by decide +kernel

/-- V6 by XSAVEC64: only the x87 state (XINUSE bits 1 and 2 dropped); FIP is a 64-bit offset. -/
theorem test_xsavec64_completes :
    nextIs (exec (.xsavec64 rdi64) { tc1 1 with x87 := { State.reset.x87 with fip := 0x1122334455667788 } }) (fun t =>
      t.pc == 0x1004 && Memory.readLE t.mem 0x2008 8 == some 0x1122334455667788 &&
      Memory.readLE t.mem 0x2200 8 == some 1 && Memory.readLE t.mem 0x2208 8 == some 0x8000000000000001 &&
      t.mem.length == 168) = true := by decide +kernel

/-- LY10 and LY11: component 17 at 584, and at 640 with ALIGN64(17). -/
theorem test_xsavec64_compacts :
    nextIs (exec (.xsavec64 rdi64) (tc3 0x20200 false)) (fun t => Memory.read t.mem 0x2240 == some 0x99 &&
      Memory.read t.mem 0x2248 == some 0x77 && Memory.readLE t.mem 0x2200 8 == some 0x20200 && t.mem.length == 88) = true ∧
    nextIs (exec (.xsavec64 rdi64) (tc3 0x20200 true)) (fun t => Memory.read t.mem 0x2240 == some 0x99 &&
      Memory.read t.mem 0x2280 == some 0x77 && t.mem.length == 88) = true := by decide +kernel

/-! Witnesses: for each statement with hypotheses, a state and operands that meet all of them together. -/

theorem exists_next {o : Outcome} {p : State → Bool} (h : nextIs o p = true) : ∃ t, o = .next t ∧ p t = true := by
  cases o with
  | next t => exact ⟨t, rfl, h⟩
  | fault _ => cases h
  | refused _ => cases h

theorem exists_fault {o : Outcome} {x : Exception} {c : Option ErrorCode} {p : State → Bool} (h : faultIs o x c p = true) :
    ∃ t, o = .fault (.exception x c t) ∧ p t = true := by
  cases o with
  | fault f =>
    cases f with
    | exception y d t =>
      simp only [faultIs, Bool.and_eq_true, beq_iff_eq] at h
      obtain ⟨⟨rfl, rfl⟩, h⟩ := h
      exact ⟨t, rfl, h⟩
    | fetchAbsent _ => cases h
  | next _ => cases h
  | refused _ => cases h

theorem is_refused {o : Outcome} {q : Refusal} (h : refusedIs o q = true) : o = .refused q := by
  cases o with
  | refused r => rw [show r = q from by simpa [refusedIs] using h]
  | next _ => cases h
  | fault _ => cases h

/-- An instruction of 15 bytes: six prefixes, REX, SIB and disp32. -/
def longest : Operand :=
  ⟨List.replicate 5 .addrSize ++ [.seg .gs], some ⟨true, true, true⟩, .sib 3 4 5 (.disp32 0x80000000)⟩

theorem test_witness_DecodeReadsBackEncoding :
    (Instr.xsavec longest).wellFormed cm64 = true ∧ (Instr.xsavec64 longest).wellFormed cm64 = true ∧
    (Instr.xsavec bx).wellFormed cm16 = true ∧ (Instr.xsavec ecx).wellFormed cm32 = true := by decide

theorem test_witness_DecodedBytesAreTheEncoding :
    decode cm64 (encode (.xsavec64 longest) ++ [1, 2]) = .instr (.xsavec64 longest) := by decide

theorem test_witness_Xsavec64OnlyInLongMode :
    decode cm64 [0x48, 0x0F, 0xC7, 0x27] = .instr (.xsavec64 rdi64) ∧ cm32.mode ≠ .bits64 ∧
    State.reset.mode ≠ .bits64 := by decide

theorem test_witness_UndefinedEncodingsRaiseUd :
    (Operand.shapeOk (codeMode (tc1 0)) ⟨[.opSize], none, .based 7 .noDisp⟩ = true ∧ hasMandatory [.opSize] = true ∧
      fetchBytes (withCode (tc1 0) [0x66, 0x0F, 0xC7, 0x27]) = encodeOperand false ⟨[.opSize], none, .based 7 .noDisp⟩ ++ [] ∧
      overwritten (tc1 0) 4 = false) ∧
    (let op : Operand := ⟨[.strayRex 8, .seg .fs], some ⟨false, false, false⟩, .based 7 .noDisp⟩;
      op.rexOk (tc1 0).mode = true ∧ overwritten (tc1 0) 6 = false ∧
      fetchBytes (withCode (tc1 0) [0x48, 0x64, 0x48, 0x0F, 0xC7, 0xE7]) =
        op.prefixes.map prefixByte ++ (encodeRex true op.rex ++ 0x0F#8 :: 0xC7#8 :: modrmByte 3#2 7 :: [])) ∧
    (ecx.rexOk cm32.mode = true ∧
      fetchBytes (withCode (prot 0 0 0xFFFFFFFF) [0x0F, 0xC7, 0xE7]) =
        ecx.prefixes.map prefixByte ++ (encodeRex false ecx.rex ++ 0x0F#8 :: 0xC7#8 :: modrmByte 3#2 7 :: [])) := by
  decide +kernel

/-- Sixteen bytes: one too many. -/
def tooLong : Operand := ⟨List.replicate 12 (.seg .fs), some ⟨false, false, false⟩, .based 7 .noDisp⟩

theorem test_witness_OverlongInstructionRaisesGp :
    tooLong.shapeOk (codeMode (tc1 0)) = true ∧ instrLength (.xsavec tooLong) = 16 ∧
    fetchBytes (withCode (tc1 0) (encode (.xsavec tooLong))) = (encode (.xsavec tooLong)).take 15 ∧
    (tc1 0).mode = .bits64 ∧ tooLong.rex.isSome = true ∧ overwritten (tc1 0) 15 = false ∧
    fetchBytes (withCode (tc1 0) (encode (.xsavec64 tooLong))) = (encode (.xsavec64 tooLong)).take 15 := by decide +kernel

theorem test_witness_OtherGroupMembersRefused :
    let op : Operand := ⟨[.seg .fs], some ⟨false, false, false⟩, .based 7 .noDisp⟩
    (0x2F#8).extractLsb' 3 3 ≠ 4#3 ∧ op.rexOk (tc1 0).mode = true ∧ ecx.rexOk cm32.mode = true ∧
    fetchBytes (withCode (tc1 0) [0x64, 0x48, 0x0F, 0xC7, 0x2F]) =
      op.prefixes.map prefixByte ++ (encodeRex true op.rex ++ 0x0F#8 :: 0xC7#8 :: 0x2F#8 :: []) := by
  decide +kernel

/-- An instruction no XSAVEC has stored over, and one under an earlier operand. -/
theorem test_witness_StepRunsDecodedInstr :
    decode (codeMode (tc1 0)) (fetchBytes (withCode (tc1 0) [0x0F, 0xC7, 0x27])) = .instr (.xsavec rdi) ∧
    overwritten (withCode (tc1 0) [0x0F, 0xC7, 0x27]) 3 = false ∧
    overwritten { withCode (tc1 0) [0x0F, 0xC7, 0x27] with areasWritten := [⟨0x1002, 0x2000⟩] } 3 = true := by decide +kernel

/-- Premise `CodeWellFormed`, for both instructions; the second ends at the last pc of the mode but one. -/
theorem test_witness_StepRunsInstructionAtPc :
    CodeWellFormed (withCode (tc1 0) (encode (.xsavec rdi))) (.xsavec rdi) ∧
    CodeWellFormed (withCode { tc1 0 with pc := 0xFFFFFFFFFFFFFFFB } (encode (.xsavec64 rdi64))) (.xsavec64 rdi64) := by
  unfold CodeWellFormed PcFits
  decide +kernel

theorem test_witness_StepChangesOnlyPcAndMemory :
    ∃ t, step (withCode (tc1 0) [0x0F, 0xC7, 0x27]) = .next t ∧ (t.pc == 0x1003) = true := exists_next (by decide +kernel)

/-- The launch premises hold: for both instructions with every component saved, in 32-bit mode, and in real-address mode up to the
last byte of the segment. -/
theorem test_witness_XsavecCompletes :
    Launch (tc1 7) (.xsavec rdi) ∧ Launch (prot 7 0x402000 0xFFFFFFFF) (.xsavec ecx) ∧ Launch (real 3 0xFDC0) (.xsavec bx) := by
  unfold Launch ModeOk Enabled NoLock AreaAligned AreaAccessible AreaNoWrap AreaOrdinary PcFits
  decide +kernel

theorem test_witness_Xsavec64Completes : Launch (tc1 7) (.xsavec64 rdi64) := by
  unfold Launch ModeOk Enabled NoLock AreaAligned AreaAccessible AreaNoWrap AreaOrdinary PcFits
  decide +kernel

theorem test_witness_InstructionMaskIsEdxEax :
    (readGpr { tc1 0 with gpr := regs 0xFFFFFFFF00000007 0 0xDEADBEEF00000001 0 0 0 } 2).extractLsb' 0 32 =
      (readGpr { tc1 0 with gpr := regs 7 1 1 1 1 1 } 2).extractLsb' 0 32 ∧
    (readGpr { tc1 0 with gpr := regs 0xFFFFFFFF00000007 0 0xDEADBEEF00000001 0 0 0 } 0).extractLsb' 0 32 =
      (readGpr { tc1 0 with gpr := regs 7 1 1 1 1 1 } 0).extractLsb' 0 32 := by decide

/-- Mask bits XCR0 does not enable. -/
theorem test_witness_MaskActsOnlyThroughRfbm :
    rfbm { tc1 7 with gpr := regs 0xFFFFFFFF 9 0xFFFFFFFF 9 9 0x2000 } = rfbm (tc1 7) ∧
    targetOf (.xsavec rdi) { tc1 7 with gpr := regs 0xFFFFFFFF 9 0xFFFFFFFF 9 9 0x2000 } = targetOf (.xsavec rdi) (tc1 7) := by
  decide +kernel

theorem test_witness_ToBeSavedBits :
    (0, 0x40#8) ∈ x87Image (tc1 7) .xsavec ∧ (24, 0x80#8) ∈ sseImage (tc1 7) ∧ ⟨2, 576⟩ ∈ slots (tc1 7) ∧
    (831, 0#8) ∈ placeAt 576 (compImage (tc1 7) 2) := by decide +kernel

/-- An execution that saves components 0, 1 and 2; component 2 is not empty. -/
theorem test_witness_XstateBvIsToBeSaved :
    ∃ t, exec (.xsavec rdi) (tc1 7) = .next t ∧
      (decide (toBeSaved (tc1 7) = 7) && decide (x87Image (tc1 7) .xsavec ≠ []) && decide (0 < compSize (tc1 7).params 2) && !(rfbm (tc1 7)).getLsbD 3) = true :=
  exists_next (p := fun _ => _) (by decide +kernel)

theorem test_witness_XcompBvIsRfbmWithBit63 :
    ∃ t, exec (.xsavec64 rdi64) (tc1 7) = .next t ∧ ((toBeSaved (tc1 7)).getLsbD 2) = true :=
  exists_next (p := fun _ => _) (by decide +kernel)

theorem test_witness_XstateBvIsSubsetOfXcompBv : (toBeSaved (tc1 7)).getLsbD 2 = true := by decide

theorem test_witness_X87StateIsStored :
    (∃ t, exec (.xsavec rdi) (tc1 1) = .next t ∧
      ((toBeSaved (tc1 1)).getLsbD 0 && decide ((tc1 1).params.images = .standard)) = true) ∧
    (∃ t, exec (.xsavec64 rdi64) (tc1 1) = .next t ∧
      ((toBeSaved (tc1 1)).getLsbD 0 && decide ((tc1 1).params.images = .standard)) = true) :=
  ⟨exists_next (p := fun _ => _) (by decide +kernel), exists_next (p := fun _ => _) (by decide +kernel)⟩

/-- Both register counts: register 15 in 64-bit mode, register 7 elsewhere. -/
theorem test_witness_SseStateIsStored :
    (∃ t, exec (.xsavec rdi) (tc1 2) = .next t ∧ ((toBeSaved (tc1 2)).getLsbD 1 &&
      decide ((tc1 2).params.images = .standard) && decide (15 < xmmCount (tc1 2))) = true) ∧
    (∃ t, exec (.xsavec ecx) (prot 2 0x402000 0xFFFFFFFF) = .next t ∧
      ((toBeSaved (prot 2 0 0)).getLsbD 1 && decide (7 < xmmCount (prot 2 0 0)) && !decide (8 < xmmCount (prot 2 0 0))) = true) :=
  ⟨exists_next (p := fun _ => _) (by decide +kernel), exists_next (p := fun _ => _) (by decide +kernel)⟩

/-- Component 2, its last byte, and its slot. -/
theorem test_witness_ComponentsAreCompacted :
    ∃ t, exec (.xsavec rdi) (tc1 4) = .next t ∧
      (decide ((tc1 4).params.align64 = Vector.replicate 61 false) && (rfbm (tc1 4)).getLsbD 2 &&
        (toBeSaved (tc1 4)).getLsbD 2 && decide (255 < compSize (tc1 4).params 2) && decide (⟨2, 576⟩ ∈ slots (tc1 4))) = true :=
  exists_next (p := fun _ => _) (by decide +kernel)

theorem test_witness_SlotsAreDisjointAndInside :
    slots (tc3 0x20207 true) = [⟨2, 576⟩, ⟨9, 832⟩] ++ ⟨17, 896⟩ :: [] ∧
    (tc3 0x20207 true).params.align64[17 - 2]? = some true := by decide +kernel

theorem test_witness_FootprintIsW : (tc1 7).params.images = .standard ∧ 527 ∈ (stores (tc1 7) .xsavec).map Prod.fst ∧ 0 ∈ (stores (tc1 7) .xsavec).map Prod.fst := by
  decide +kernel

/-- A stored byte, a byte outside W under either policy, and an unsaved byte. -/
theorem test_witness_MemoryFrame :
    ∃ t, exec (.xsavec rdi) (tc1 4) = .next t ∧
      (decide (512 ∈ (stores (tc1 4) .xsavec).map Prod.fst) && decide (464 ∉ (stores (tc1 4) .xsavec).map Prod.fst) &&
        decide ((tc1 4).params.unsavedSlot = .unchanged) && decide (464 ∉ unsavedOffsets (tc1 4) .xsavec) &&
        decide (23 ∈ unsavedOffsets (tc1 4) .xsavec)) = true := exists_next (p := fun _ => _) (by decide +kernel)

theorem test_witness_BytesNeverModified :
    (∃ t, exec (.xsavec rdi) (tc1 0) = .next t ∧ true = true) ∧
    (∃ t, exec (.xsavec rdi) { tc1 0 with cr0 := 8 } = .fault (.exception .nm none t) ∧ true = true) :=
  ⟨exists_next (p := fun _ => true) (by decide +kernel), exists_fault (p := fun _ => true) (by decide +kernel)⟩

theorem test_witness_EmptyRequestWritesHeaderOnly :
    ∃ t, exec (.xsavec rdi) (tc1 0) = .next t ∧
      (decide (rfbm (tc1 0) = 0) && decide ((tc1 0).params.unsavedSlot = .unchanged)) = true :=
  exists_next (p := fun _ => _) (by decide +kernel)

/-- A state whose operand is device memory. -/
def device : State := { tc1 0 with regions := [⟨⟨0x2000, 0x2000⟩, .device⟩] }

theorem test_witness_FormsDifferOnlyInX87Pointers :
    (tc1 1).mode = .bits64 ∧ (tc1 1).params.images = .standard ∧ (∃ t, exec (.xsavec rdi64) (tc1 1) = .next t ∧ true = true) ∧
    (∃ t, exec (.xsavec rdi64) { tc1 1 with cr0 := 8 } = .fault (.exception .nm none t) ∧ true = true) ∧
    exec (.xsavec rdi64) device = .refused (.notOrdinary .device) :=
  ⟨rfl, rfl, exists_next (p := fun _ => true) (by decide +kernel), exists_fault (p := fun _ => true) (by decide +kernel),
    is_refused (by decide +kernel)⟩

theorem test_witness_NoDataReadFromMemory :
    (∃ t, exec (.xsavec64 rdi64) (tc1 1) = .next t ∧ true = true) ∧
    (∃ t, exec (.xsavec64 rdi64) { tc1 1 with cr0 := 8 } = .fault (.exception .nm none t) ∧ true = true) ∧
    exec (.xsavec64 rdi64) device = .refused (.notOrdinary .device) :=
  ⟨exists_next (p := fun _ => true) (by decide +kernel), exists_fault (p := fun _ => true) (by decide +kernel),
    is_refused (by decide +kernel)⟩

/-- A page at 3000H that is not present, under an aligned operand that crosses into it (EX12). -/
def paged : State :=
  { tc1 7 with gpr := regs 7 0 0 0 0 0x2FC0, pageFaults := [⟨⟨0x3000, 0x3FFF⟩, 2⟩] }

theorem paged_faults : ∃ c t, exec (.xsavec rdi) paged = .fault (.exception .pf c t) := by
  have h : (match exec (.xsavec rdi) paged with
      | .fault (.exception x _ _) => x == .pf
      | _ => false) = true := by decide +kernel
  revert h
  cases exec (.xsavec rdi) paged with
  | next t => intro h; cases h
  | refused q => intro h; cases h
  | fault f =>
    cases f with
    | fetchAbsent a => intro h; cases h
    | exception x c t =>
      intro h
      have hx : x = .pf := by simpa using h
      exact ⟨c, t, by rw [hx]⟩

/-- A next state, a fault that is no page fault, and a page fault. -/
theorem test_witness_RegisterFrame :
    (∃ t, exec (.xsavec rdi) (tc1 0) = .next t ∧ true = true) ∧
    (∃ t, exec (.xsavec rdi) { tc1 0 with cr0 := 8 } = .fault (.exception .nm none t) ∧ true = true) ∧
    (∃ c t, exec (.xsavec rdi) paged = .fault (.exception .pf c t)) :=
  ⟨exists_next (p := fun _ => true) (by decide +kernel), exists_fault (p := fun _ => true) (by decide +kernel), paged_faults⟩

theorem test_witness_ConstantsAndCr2Frame :
    (∃ t, exec (.xsavec rdi) (tc1 0) = .next t ∧ true = true) ∧
    (∃ t, exec (.xsavec rdi) { tc1 0 with cr0 := 8 } = .fault (.exception .nm none t) ∧ true = true) :=
  ⟨exists_next (p := fun _ => true) (by decide +kernel), exists_fault (p := fun _ => true) (by decide +kernel)⟩

/-- `lock xsavec [rdi]`. -/
def locked : Operand := ⟨[.lock], none, .based 7 .noDisp⟩

theorem test_witness_UdConditions :
    ModeOk (.xsavec64 rdi64) (tc1 7) ∧ DefaultOrder (tc1 7) ∧
    ({ tc1 7 with params := { sized 256 with cpuidXsave := false } } : State).params.cpuidXsave = false ∧
    ({ tc1 7 with params := { sized 256 with cpuidXsavec := false } } : State).params.cpuidXsavec = false ∧
    ({ tc1 7 with cr4 := 0 } : State).cr4.getLsbD 18 = false ∧
    LegacyPrefix.lock ∈ (instrOperand (.xsavec locked)).prefixes := by
  unfold ModeOk DefaultOrder
  decide +kernel

theorem test_witness_LockPrefixRaisesUd :
    LegacyPrefix.lock ∈ (instrOperand (.xsavec locked)).prefixes ∧ ModeOk (.xsavec locked) (tc1 7) ∧ DefaultOrder (tc1 7) := by
  unfold ModeOk DefaultOrder
  decide +kernel

theorem test_witness_NmWhenTaskSwitched :
    let s : State := { tc1 0 with cr0 := 8 }
    s.cr0.getLsbD 3 = true ∧ ModeOk (.xsavec64 rdi64) s ∧ DefaultOrder s ∧ s.params.cpuidXsave = true ∧
    s.params.cpuidXsavec = true ∧ s.cr4.getLsbD 18 = true ∧ LegacyPrefix.lock ∉ (instrOperand (.xsavec64 rdi64)).prefixes := by
  unfold ModeOk DefaultOrder
  decide +kernel

/-- The first failing byte of each mode: 10000H, the first non-canonical address, one past the limit (through DS and through SS). -/
theorem test_witness_ExtentViolationRaises :
    (let s := real 0 0xFE00;
      ModeOk (.xsavec bx) s ∧ DefaultOrder s ∧ Enabled s ∧ NoLock (.xsavec bx) ∧ (512, 0#8) ∈ stores s .xsavec ∧
      s.mode = .realAddress ∧ (targetOf (.xsavec bx) s).ea + 512 = 0x10000) ∧
    (let s : State := { tc1 0 with gpr := regs 0 0 0 0 0 0x00007FFFFFFFFE00 };
      ModeOk (.xsavec64 rdi64) s ∧ DefaultOrder s ∧ Enabled s ∧ NoLock (.xsavec64 rdi64) ∧ (512, 0#8) ∈ stores s .xsavec64 ∧
      s.mode = .bits64 ∧ canonical s.params.canonForm (byteAddress s (targetOf (.xsavec64 rdi64) s) 512) = false) ∧
    (let s := prot 0 0xE00 0xFFF;
      ModeOk (.xsavec ecx) s ∧ DefaultOrder s ∧ Enabled s ∧ NoLock (.xsavec ecx) ∧ (512, 0#8) ∈ stores s .xsavec ∧
      s.mode ≠ .realAddress ∧ s.mode ≠ .bits64 ∧ (targetOf (.xsavec ecx) s).seg = .ds ∧
      (targetOf (.xsavec ⟨[.seg .ss], none, .based 1 .noDisp⟩) s).seg = .ss ∧
      segOffsetOk (segment s .ds) ((targetOf (.xsavec ecx) s).ea + 512) = false) := by
  unfold ModeOk DefaultOrder Enabled NoLock
  decide +kernel

/-- A slot that is not written runs past FFFFH. -/
def unwritten : State := { real 4 0xFDC0 with xinuse := 0 }

theorem test_witness_UnwrittenExtentMayRaise :
    (ModeOk (.xsavec bx) unwritten ∧ Enabled unwritten ∧ NoLock (.xsavec bx) ∧ AreaAligned (targetOf (.xsavec bx) unwritten) ∧
      operandRefusal unwritten (targetOf (.xsavec bx) unwritten) 3 = none ∧ PcFits unwritten 3) ∧
    (∀ w ∈ stores unwritten .xsavec, extentOk unwritten (targetOf (.xsavec bx) unwritten) w.1 = true) ∧
    (∀ k < areaSize unwritten, pageBad unwritten (targetOf (.xsavec bx) unwritten) k = false) ∧
    extentOk unwritten (targetOf (.xsavec bx) unwritten) 576 = false := by
  unfold ModeOk Enabled NoLock AreaAligned PcFits
  decide +kernel

/-- Alignment checking enabled at CPL 3, #AC for a 2-byte misalignment. -/
def checked (rdi : Word) : State :=
  { tc1 0 with
    gpr := regs 0 0 0 0 0 rdi, cr0 := 0x40000, rflags := 0x40002, cplField := 3
    params := { sized 256 with acMisaligned := [2] } }

theorem test_witness_MisalignmentRaisesGpOrAc :
    (let s := checked 0x2002;
      ModeOk (.xsavec64 rdi64) s ∧ DefaultOrder s ∧ Enabled s ∧ NoLock (.xsavec64 rdi64) ∧
      (∀ k < areaSize s, extentOk s (targetOf (.xsavec64 rdi64) s) k = true) ∧
      alignedAddress s (targetOf (.xsavec64 rdi64) s) % 64 = 2 ∧ s.mode ≠ .realAddress ∧ acEnabled s = true ∧ cpl s = 3 ∧
      alignedAddress s (targetOf (.xsavec64 rdi64) s) % 64 ∈ s.params.acMisaligned) ∧
    (let s := checked 0x2001;
      (∀ k < areaSize s, extentOk s (targetOf (.xsavec64 rdi64) s) k = true) ∧
      alignedAddress s (targetOf (.xsavec64 rdi64) s) % 64 = 1 ∧
      alignedAddress s (targetOf (.xsavec64 rdi64) s) % 64 ∉ s.params.acMisaligned) ∧
    (let s := real 0 0x3F;
      ModeOk (.xsavec bx) s ∧ DefaultOrder s ∧ Enabled s ∧ NoLock (.xsavec bx) ∧
      (∀ k < areaSize s, extentOk s (targetOf (.xsavec bx) s) k = true) ∧
      alignedAddress s (targetOf (.xsavec bx) s) % 64 = 63 ∧ s.mode = .realAddress) := by
  unfold ModeOk DefaultOrder Enabled NoLock
  decide +kernel

theorem test_witness_MisalignedNeverCompletes : ∃ t, exec (.xsavec rdi) (tc1 0) = .next t ∧ true = true :=
  exists_next (p := fun _ => true) (by decide +kernel)

theorem test_witness_PageFaultRaisesPf :
    (ModeOk (.xsavec rdi) paged ∧ DefaultOrder paged ∧ Enabled paged ∧ NoLock (.xsavec rdi) ∧
      AreaAligned (targetOf (.xsavec rdi) paged) ∧ paged.mode ≠ .realAddress ∧ (512, 7#8) ∈ stores paged .xsavec ∧
      pageFault paged (byteAddress paged (targetOf (.xsavec rdi) paged) 512) = some 2 ∧
      operandRefusal paged (targetOf (.xsavec rdi) paged) 3 = none) ∧
    (∀ k < areaSize paged, extentOk paged (targetOf (.xsavec rdi) paged) k = true) := by
  unfold ModeOk DefaultOrder Enabled NoLock AreaAligned
  decide +kernel

/-- Each of the six exceptions is raised somewhere. -/
theorem test_witness_EveryFaultHasItsCause :
    (∃ t, exec (.xsavec locked) (tc1 7) = .fault (.exception .ud none t) ∧ true = true) ∧
    (∃ t, exec (.xsavec rdi) { tc1 0 with cr0 := 8 } = .fault (.exception .nm none t) ∧ true = true) ∧
    (∃ t, exec (.xsavec ⟨[.seg .ss], none, .based 1 .noDisp⟩) (prot 0 0xE00 0xFFF) = .fault (.exception .ss (some 0) t) ∧
      true = true) ∧
    (∃ t, exec (.xsavec ecx) (prot 0 0xE00 0xFFF) = .fault (.exception .gp (some 0) t) ∧ true = true) ∧
    (∃ c t, exec (.xsavec rdi) paged = .fault (.exception .pf c t)) ∧
    (∃ t, exec (.xsavec64 rdi64) (checked 0x2002) = .fault (.exception .ac (some 0) t) ∧ true = true) :=
  ⟨exists_fault (p := fun _ => true) (by decide +kernel), exists_fault (p := fun _ => true) (by decide +kernel),
    exists_fault (p := fun _ => true) (by decide +kernel), exists_fault (p := fun _ => true) (by decide +kernel), paged_faults,
    exists_fault (p := fun _ => true) (by decide +kernel)⟩

/-- A page fault, with some and with no bytes stored, and another fault. -/
theorem test_witness_MemoryAtAFault :
    (∃ c t, exec (.xsavec rdi) paged = .fault (.exception .pf c t)) ∧
    (∃ t, exec (.xsavec rdi) { tc1 0 with cr0 := 8, params := { sized 256 with faultWrite := .noBytes } } =
      .fault (.exception .nm none t) ∧ true = true) :=
  ⟨paged_faults, exists_fault (p := fun _ => true) (by decide +kernel)⟩

theorem test_witness_NotPrivileged :
    acEnabled (tc1 0) = false ∧ acEnabled { tc1 0 with cr0 := 8 } = false ∧ acEnabled device = false ∧
    (∃ t, exec (.xsavec rdi) (tc1 0) = .next t ∧ true = true) ∧
    (∃ t, exec (.xsavec rdi) { tc1 0 with cr0 := 8 } = .fault (.exception .nm none t) ∧ true = true) ∧
    exec (.xsavec rdi) device = .refused (.notOrdinary .device) :=
  ⟨by decide +kernel, by decide +kernel, by decide +kernel, exists_next (p := fun _ => true) (by decide +kernel),
    exists_fault (p := fun _ => true) (by decide +kernel), is_refused (by decide +kernel)⟩

/-- Each refusal: the last 512 bytes of 32-bit linear memory, device memory, the instruction's own bytes, code run before, the last
pc; and an operand that passes 2^32 in real-address mode, where no wrap is refused. -/
theorem test_witness_RefusalsByName :
    (let s := prot 0 0xFFFFFE00 0x1FFFFFFFF;
      ModeOk (.xsavec ecx) s ∧ reported s .xsavec ecx (targetOf (.xsavec ecx) s) = none ∧ s.mode ≠ .realAddress ∧
      s.mode ≠ .bits64 ∧ 2 ^ 32 < (targetOf (.xsavec ecx) s).area + areaSize s) ∧
    (let s : State := { real 0 0 with segs := { State.reset.segs with ds := Segment.atReset 0 0xFFFFFFC0 } };
      ModeOk (.xsavec bx) s ∧ reported s .xsavec bx (targetOf (.xsavec bx) s) = none ∧ s.mode = .realAddress ∧
      2 ^ 32 < (targetOf (.xsavec bx) s).area + areaSize s) ∧
    (ModeOk (.xsavec rdi) device ∧ reported device .xsavec rdi (targetOf (.xsavec rdi) device) = none ∧ device.mode = .bits64 ∧
      ∃ r ∈ device.regions, r.range.has (byteAddress device (targetOf (.xsavec rdi) device) 0) = true) ∧
    (let s : State := { tc1 0 with pc := 0x2200 };
      reported s .xsavec rdi (targetOf (.xsavec rdi) s) = none ∧ s.regions = [] ∧ s.mode = .bits64 ∧
      byteAddress s (targetOf (.xsavec rdi) s) 514 ∈ codeBytes s (instrLength (.xsavec rdi)) ++ s.codeSeen) ∧
    (let s : State := { tc1 0 with codeSeen := [0x223F] };
      reported s .xsavec rdi (targetOf (.xsavec rdi) s) = none ∧ s.regions = [] ∧ s.mode = .bits64 ∧ 575 < areaSize s ∧
      byteAddress s (targetOf (.xsavec rdi) s) 575 ∈ codeBytes s (instrLength (.xsavec rdi)) ++ s.codeSeen) ∧
    (let s : State := { tc1 0 with pc := 0xFFFFFFFFFFFFFFFD };
      reported s .xsavec rdi (targetOf (.xsavec rdi) s) = none ∧
      operandRefusal s (targetOf (.xsavec rdi) s) (instrLength (.xsavec rdi)) = none ∧
      2 ^ pcWidth s.mode ≤ s.pc.toNat + instrLength (.xsavec rdi)) := by
  unfold ModeOk
  decide +kernel

/-- Prefixes without an override, with several, and in 64-bit mode an SS override among ignored ones. -/
theorem test_witness_SegmentOfOperand :
    cm32.mode ≠ .bits64 ∧ cm16.mode ≠ .bits64 ∧
    (∀ r ∈ [SegReg.es, .cs, .ss, .ds, .fs, .gs], LegacyPrefix.seg r ∉ [LegacyPrefix.addrSize, .lock]) ∧
    (∀ r ∈ [SegReg.fs, .gs], LegacyPrefix.seg r ∉ [LegacyPrefix.addrSize, .seg .es]) ∧
    ((∀ r ∈ [SegReg.fs, .gs], LegacyPrefix.seg r ∉ [LegacyPrefix.seg .ss, .seg .es]) ∧
      LegacyPrefix.seg .ss ∈ [LegacyPrefix.seg .ss, .seg .es]) ∧
    (∀ r ∈ [SegReg.fs, .gs, .ss], LegacyPrefix.seg r ∉ [LegacyPrefix.seg .cs, .addrSize]) := by decide

/-- Outside 64-bit mode, in 64-bit mode through DS, and through FS. -/
theorem test_witness_LinearAddressOfArea :
    (real 1 0xFDC0).mode ≠ .bits64 ∧
    ((tc1 0).mode = .bits64 ∧ (targetOf (.xsavec rdi) (tc1 0)).seg = .ds) ∧
    (targetOf (.xsavec ⟨[.seg .fs], none, .based 7 .noDisp⟩) (tc1 0)).seg = .fs := by decide +kernel

/-- A state that meets the invariant and steps on. -/
def sound : State := withCode { tc1 0 with xinuse := 0x7FFFFFFFFFFFFFFF } [0x0F, 0xC7, 0x27]

theorem test_witness_StepKeepsInv : Inv sound ∧ ∃ t, step sound = .next t ∧ true = true := by
  refine ⟨⟨by decide +kernel, by decide +kernel, by unfold LegalXCR0; decide +kernel, ?_, ?_, ?_⟩,
    exists_next (p := fun _ => true) (by decide +kernel)⟩
  · exact fun h => absurd h (by decide +kernel)
  · exact fun h => absurd h (by decide +kernel)
  · have : ∀ i ∈ componentIds, sound.xinuse.getLsbD i = true := by decide +kernel
    intro i hi h
    rw [this i hi] at h
    cases h

theorem test_witness_SecondRexRefused :
    (tc1 0).mode = .bits64 ∧ straysOk [.strayRex 8, .seg .fs] = true ∧
    fetchBytes (withCode (tc1 0) [0x48, 0x64, 0x40, 0x48, 0x0F, 0xC7, 0x27]) =
      [LegacyPrefix.strayRex 8, .seg .fs].map prefixByte ++ (4#4 ++ 0#4) :: (4#4 ++ 8#4) :: [0x0F, 0xC7, 0x27] := by
  decide +kernel

/-- Two instructions in a row, and the third stands at the first byte of their operand; and three in a row that complete. -/
theorem test_witness_CodeStoredOverIsRefused :
    (let s := withCode { tc1 0 with pc := 0x1FFA } [0x0F, 0xC7, 0x27, 0x0F, 0xC7, 0x27, 0x0F, 0xC7, 0x27];
      ∃ t, exec (.xsavec rdi) s = .next t ∧
        (nextIs (execAll [.xsavec rdi] t) fun v => decide (decode (codeMode v) (fetchBytes v) = .instr (.xsavec rdi)) &&
          v.areasWritten.any (·.has (codeAddress v 0)) && decide (0 < areaSize s)) = true) ∧
    (∃ t, exec (.xsavec rdi) { tc1 0 with codeSeen := [1], areasWritten := [⟨2, 3⟩] } = .next t ∧
      (nextIs (execAll [.xsavec64 rdi64] t) fun v => nextIs (exec (.xsavec rdi) v) fun _ => decide (0 < areaSize v)) = true) :=
  ⟨exists_next (p := fun t => _) (by decide +kernel), exists_next (p := fun t => _) (by decide +kernel)⟩

/-- Component 2 is in its initial configuration, so not stored, and its slot's first byte page-faults. -/
def unwrittenPage : State := { tc1 4 with xinuse := 0, pageFaults := [⟨⟨0x2240, 0x2240⟩, 2⟩] }

theorem test_witness_UnwrittenPageFaultMayRaise :
    (ModeOk (.xsavec rdi) unwrittenPage ∧ Enabled unwrittenPage ∧ NoLock (.xsavec rdi) ∧
      AreaAligned (targetOf (.xsavec rdi) unwrittenPage) ∧
      operandRefusal unwrittenPage (targetOf (.xsavec rdi) unwrittenPage) 3 = none ∧ PcFits unwrittenPage 3) ∧
    (∀ k < areaSize unwrittenPage, extentOk unwrittenPage (targetOf (.xsavec rdi) unwrittenPage) k = true) ∧
    (∀ w ∈ stores unwrittenPage .xsavec, pageBad unwrittenPage (targetOf (.xsavec rdi) unwrittenPage) w.1 = false) ∧
    pageBad unwrittenPage (targetOf (.xsavec rdi) unwrittenPage) 576 = true := by
  unfold ModeOk Enabled NoLock AreaAligned PcFits
  decide +kernel

/-- A byte of each image, states that agree on the images, and where MXCSR and MXCSR_MASK stand in other images. -/
theorem test_witness_ImagesObeyTheLaws :
    (0, 0x40#8) ∈ x87Image (tc1 7) .xsavec64 ∧ (24, 0x80#8) ∈ sseImage (tc1 7) ∧
    (let u : State := { tc1 7 with draws := 1, gpr := regs 0 0 0 0 0 0 };
      u.params = (tc1 7).params ∧ u.x87 = (tc1 7).x87 ∧ u.xmm = (tc1 7).xmm ∧ u.mxcsr = (tc1 7).mxcsr ∧ u.mode = (tc1 7).mode) ∧
    (mxcsrOffset { sized 0 with images := .other 1 460 100 } = 460 ∧ maskOffset { sized 0 with images := .other 1 460 100 } = 100) ∧
    (0, 0x80#8) ∈ sseImage { tc1 7 with params := { sized 256 with images := .other 1 0 4 } } := by decide +kernel

theorem test_witness_RepetitionLeavesTheSameMemory :
    (tc1 7).params.unsavedSlot = .unchanged ∧
    (∀ k ∈ unsavedOffsets (tc1 4) .xsavec, 0x2200 ≠ byteAddress (tc1 4) (targetOf (.xsavec rdi) (tc1 4)) k) ∧
    Launch (tc1 7) (.xsavec rdi) ∧
    ∃ t, exec (.xsavec rdi) (tc1 7) = .next t ∧
      (nextIs (exec (.xsavec rdi) { t with pc := (tc1 7).pc }) fun _ => true) = true :=
  ⟨rfl, by decide +kernel, test_witness_XsavecCompletes.1, exists_next (p := fun t => _) (by decide +kernel)⟩

/-- Which of the four ways a run stands. -/
def kind : RunResult → Nat
  | .final _ => 0
  | .faulted _ => 1
  | .refused _ => 2
  | .running _ => 3

/-- One instruction at 1000H: at its end, not yet run, run, with #NM, and over device memory. -/
theorem test_witness_RunsEndAsDefined :
    let p : Program := ⟨0x1000, [.xsavec rdi]⟩
    ({ tc1 0 with pc := 0x1003 } : State).pc = p.stop ∧ (tc1 0).pc ≠ p.stop ∧
    kind (p.run 0 (withCode (tc1 0) p.bytes)) = 3 ∧ kind (p.run 1 (withCode (tc1 0) p.bytes)) = 0 ∧
    (nextIs (step (withCode (tc1 0) p.bytes)) fun u => decide (u.pc = p.stop)) = true ∧
    kind (p.run 0 (withCode { tc1 0 with cr0 := 8 } p.bytes)) = 3 ∧
    kind (p.run 1 (withCode { tc1 0 with cr0 := 8 } p.bytes)) = 1 ∧ kind (p.run 1 (withCode device p.bytes)) = 2 := by
  decide +kernel

/-- `xsavec [rdi]; xsavec64 [rdi]` at 1000H. -/
def pair : Program := ⟨0x1000, [.xsavec rdi, .xsavec64 rdi64]⟩

def pairStart : State := withCode (tc1 0) pair.bytes

theorem test_witness_ProgramRunsToItsEnd : pair.StartsIn pairStart ∧ LaunchAll (pair.addresses pairStart) pair.instrs pairStart := by
  refine ⟨by unfold Program.StartsIn; decide +kernel, ?_, ?_, fun t h => ?_⟩
  · unfold Launch ModeOk Enabled NoLock AreaAligned AreaAccessible AreaNoWrap AreaOrdinary PcFits
    decide +kernel
  · unfold OffProgram
    decide +kernel
  · obtain ⟨-, -, -, -, rfl⟩ := exec_next h
    refine ⟨?_, ?_, fun _ _ => trivial⟩
    · unfold Launch ModeOk Enabled NoLock AreaAligned AreaAccessible AreaNoWrap AreaOrdinary PcFits
      decide +kernel
    · unfold OffProgram
      decide +kernel

/-- Each address size outside and in 64-bit mode, and twelve prefixes. -/
theorem test_witness_AddressSizeByMode :
    decode ⟨.compatibility, .bits16⟩ [0x0F, 0xC7, 0x27] = .instr (.xsavec bx) ∧
    codeMode { real 0 0 with mode := .compatibility } = ⟨.compatibility, .bits16⟩ ∧
    decode ⟨.virtual8086, .bits16⟩ [0x67, 0x0F, 0xC7, 0x27] = .instr (.xsavec ⟨[.addrSize], none, .based 7 .noDisp⟩) ∧
    decode cm64 [0x67, 0x0F, 0xC7, 0x27] = .instr (.xsavec ⟨[.addrSize], none, .based 7 .noDisp⟩) ∧
    (let ps := [LegacyPrefix.strayRex 8, .lock, .seg .fs] ++ List.replicate 9 .addrSize;
      Operand.rexOk .bits64 ⟨ps, none, .based 7 .noDisp⟩ = true ∧ hasMandatory ps = false ∧ ps.length ≤ 12) := by decide

end

end Sys2Proof.Tests
end

section
/-! PROOFS. The state family (10_state.md): what an execution keeps of the registers, and the invariant of a step. -/

namespace Sys2Proof.Machine

/-! What a completion and a fault keep of the registers (10_state.md R29). -/

/-- Every register but pc and CR2, the mode and the CPL are those of `s` (10_state.md R10 to R27). -/
structure RegistersKept (s t : State) : Prop where
  gpr      : t.gpr = s.gpr
  rflags   : t.rflags = s.rflags
  xcr0     : t.xcr0 = s.xcr0
  cr0      : t.cr0 = s.cr0
  cr4      : t.cr4 = s.cr4
  mxcsr    : t.mxcsr = s.mxcsr
  xinuse   : t.xinuse = s.xinuse
  x87      : t.x87 = s.x87
  xmm      : t.xmm = s.xmm
  comps    : t.comps = s.comps
  mode     : t.mode = s.mode
  codeSize : t.codeSize = s.codeSize
  cplField : t.cplField = s.cplField
  segs     : t.segs = s.segs

/-- The CPL is a function of the mode and of its field (10_state.md R26). -/
theorem RegistersKept.cpl {s t : State} (h : RegistersKept s t) : cpl t = cpl s := by
  simp only [Machine.cpl, h.mode, h.cplField]

theorem registersKept_completed (s : State) (form : Form) (t : Target) (len : Nat) :
    RegistersKept s (completed s form t len) := by
  constructor <;> simp

theorem registersKept_faultState (s : State) (form : Form) (t : Target) (r : Raised) :
    RegistersKept s (faultState s form t r) := by
  constructor <;> simp

/-- The state a fault carries is a fault state of the instruction's operand. -/
theorem exec_exception {i : Instr} {s t : State} {x : Exception} {code : Option ErrorCode}
    (h : exec i s = .fault (.exception x code t)) : ∃ r, t = faultState s (instrForm i) (targetOf i s) r := by
  obtain ⟨-, r, -, hf, -⟩ := exec_fault h
  exact ⟨r, (Fault.exception.inj hf).2.2⟩

theorem registersKept_of_exec {i : Instr} {s t : State}
    (h : exec i s = .next t ∨ ∃ x code, exec i s = .fault (.exception x code t)) : RegistersKept s t := by
  rcases h with h | ⟨x, code, h⟩
  · obtain ⟨-, -, -, -, rfl⟩ := exec_next h
    exact registersKept_completed s _ _ _
  · obtain ⟨r, rfl⟩ := exec_exception h
    exact registersKept_faultState s _ _ r

/-- Completion moves pc to pc + L (10_state.md R12). -/
theorem pc_of_exec_next {i : Instr} {s t : State} (h : exec i s = .next t) :
    t.pc = s.pc + BitVec.ofNat 64 (instrLength i) := by
  obtain ⟨-, -, -, -, rfl⟩ := exec_next h
  exact completed_pc s _ _ _

/-- A fault leaves pc at the faulting instruction (10_state.md R12). -/
theorem pc_of_exec_exception {i : Instr} {s t : State} {x : Exception} {code : Option ErrorCode}
    (h : exec i s = .fault (.exception x code t)) : t.pc = s.pc := by
  obtain ⟨r, rfl⟩ := exec_exception h
  exact faultState_pc s _ _ r

/-! What a completion keeps of the invariant. -/

/-- Every byte a completion writes, free bytes of unsaved slots included, has a linear address of its own. -/
theorem hasByte_of_written {i : Instr} {s t : State} (h : exec i s = .next t) {w : Nat × Byte}
    (hw : w ∈ stores s (instrForm i) ++ unsavedBytes s (instrForm i) (targetOf i s)) :
    hasByte s (targetOf i s) w.1 = true := by
  rcases List.mem_append.mp hw with hw | hw
  · exact hasByte_of_next h hw
  · obtain ⟨-, -, hb⟩ := mem_unsavedBytes hw
    exact hb

/-- A completion keeps memory in canonical form: it writes below 2^64 only. -/
theorem wf_mem_of_exec_next {i : Instr} {s t : State} (hm : Memory.wf s.mem) (h : exec i s = .next t) :
    Memory.wf t.mem := by
  have hlt {w : Nat × Byte} (hw : w ∈ stores s (instrForm i) ++ unsavedBytes s (instrForm i) (targetOf i s)) :
      byteAddress s (targetOf i s) w.1 < 2 ^ 64 := (hasByte_iff.mp (hasByte_of_written h hw)).1
  obtain ⟨-, -, -, -, rfl⟩ := exec_next h
  rw [completed_mem]
  exact wf_storeAll hm fun w hw => hlt hw

@[simp] theorem legalXCR0_completed {s : State} {form : Form} {t : Target} {len : Nat} :
    LegalXCR0 (completed s form t len) ↔ LegalXCR0 s := by
  simp [LegalXCR0]

@[simp] theorem compImage_completed (s : State) (form : Form) (t : Target) (len k : Nat) :
    compImage (completed s form t len) k = compImage s k := by
  simp [compImage]

@[simp] theorem xinuseSound_completed {s : State} {form : Form} {t : Target} {len : Nat} :
    XinuseSound (completed s form t len) ↔ XinuseSound s := by
  simp [XinuseSound]

/-- A completion keeps the invariant: the refused wrap keeps pc in its width, and nothing the last two parts speak of changes. -/
theorem inv_of_exec_next {i : Instr} {s t : State} (hs : Inv s) (h : exec i s = .next t) : Inv t := by
  obtain ⟨hm, -, hx, hu⟩ := hs
  have hmem := wf_mem_of_exec_next hm h
  obtain ⟨-, -, -, hp, rfl⟩ := exec_next h
  refine ⟨hmem, ?_, legalXCR0_completed.mpr hx, xinuseSound_completed.mpr hu⟩
  rw [toNat_pc_completed hp, completed_mode]
  exact hp

/-! #UD comes first in the default order (60_exceptions.md R122). -/

theorem reported_of_udCondition {s : State} {form : Form} {op : Operand} {t : Target} (ho : DefaultOrder s)
    (h : udCondition s op = true) : reported s form op t = some ⟨.ud, none, none⟩ := by
  simp [reported_default ho, check_ud, h]

/-- With CR4.OSXSAVE = 0 every operand meets the condition of #UD (60_exceptions.md R111). -/
theorem udCondition_of_crOsxsave {s : State} (h : crOsxsave s = false) (op : Operand) : udCondition s op = true := by
  simp [udCondition, h]

end Sys2Proof.Machine

/-! The statements of the family. -/

namespace Sys2Proof.Proofs

open Machine

/-- Settles O47: a step that goes on is a completed execution, which keeps the invariant. -/
theorem stepKeepsInv : Obligations.StepKeepsInv := by
  intro s t hs h
  obtain ⟨i, -, -, he⟩ := step_next h
  exact inv_of_exec_next hs he

/-- Settles O10: a step that goes on is a completed execution of the decoded instruction, and `completed` names every change. -/
theorem stepChangesOnlyPcAndMemory : Obligations.StepChangesOnlyPcAndMemory := by
  intro s t h
  obtain ⟨i, hd, -, he⟩ := step_next h
  obtain ⟨-, -, -, hp, rfl⟩ := exec_next he
  exact ⟨i, hd, completed_pc s _ _ _, hp, rfl⟩

/-- Settles O29: both outcomes keep the registers; pc is the one that depends on which of them it is. -/
theorem registerFrame : Obligations.RegisterFrame := by
  intro i s t h
  have k := registersKept_of_exec h
  exact ⟨k.gpr, k.rflags, k.xcr0, k.cr0, k.cr4, k.mxcsr, k.xinuse, k.x87, k.xmm, k.comps, k.mode, k.codeSize, k.cpl,
    k.cplField, k.segs, pc_of_exec_next, fun _ _ => pc_of_exec_exception⟩

/-- Settles O50: CR4.OSXSAVE is 0 at reset, and the order there is the default one, in which #UD comes first. -/
theorem xsavecAfterResetRaisesUd : Obligations.XsavecAfterResetRaisesUd := by
  intro op
  have hord : DefaultOrder State.reset := rfl
  have hud : udCondition State.reset op = true := udCondition_of_crOsxsave (by decide) op
  exact exec_of_reported (i := .xsavec op) nofun (reported_of_udCondition hord hud) rfl

end Sys2Proof.Proofs
end

section
/-! PROOFS. The memory family (20_memory.md): the slots of the layout, the footprint and what it leaves alone, what is refused, and
that memory is written and never read. -/

namespace Sys2Proof.Machine

/-! The compacted layout (20_memory.md R47). -/

/-- Where the slots of `l` end: the end of the last of them, or the running offset `off` when there is none (20_memory.md R47). -/
def endAfter (p : Params) (off : Nat) (l : List Slot) : Nat :=
  (l.getLast?.map (fun sl => sl.offset + compSize p sl.comp)).getD off

@[simp] theorem endAfter_nil (p : Params) (off : Nat) : endAfter p off [] = off := rfl

@[simp] theorem endAfter_cons (p : Params) (off : Nat) (a : Slot) (l : List Slot) :
    endAfter p off (a :: l) = endAfter p (a.offset + compSize p a.comp) l := by
  cases l with
  | nil => rfl
  | cons b l => simp [endAfter, List.getLast?_cons]

/-- The running offset ends where the last slot does. -/
theorem endFrom_eq_endAfter (p : Params) (mask : BitVec 64) (is : List Nat) (off : Nat) :
    endFrom p mask is off = endAfter p off (slotsFrom p mask is off) := by
  induction is generalizing off with
  | nil => rfl
  | cons i is ih =>
    unfold endFrom slotsFrom
    split
    · rw [endAfter_cons, ih]
    · exact ih off

/-- Each slot stands at the running offset, after the ALIGN64 step. -/
theorem offset_of_slotsFrom_eq {p : Params} {mask : BitVec 64} {is : List Nat} {off : Nat} {l r : List Slot} {sl : Slot}
    (h : slotsFrom p mask is off = l ++ sl :: r) : sl.offset = slotOffset p sl.comp (endAfter p off l) := by
  induction is generalizing off l with
  | nil => simp [slotsFrom] at h
  | cons i is ih =>
    unfold slotsFrom at h
    split at h
    · cases l with
      | nil =>
        obtain ⟨rfl, -⟩ := List.cons.inj h
        rfl
      | cons a l =>
        obtain ⟨rfl, hrest⟩ := List.cons.inj h
        rw [endAfter_cons]
        exact ih hrest
    · exact ih h

/-- The ALIGN64 step, as the parameter's list gives it. -/
theorem slotOffset_eq (p : Params) (i off : Nat) :
    slotOffset p i off = if p.align64[i - 2]? = some true then 64 * ((off + 63) / 64) else off := by
  unfold slotOffset
  cases p.align64[i - 2]? <;> simp

/-- The slots are those of the requested components, in the order of the list. -/
theorem comps_slotsFrom (p : Params) (mask : BitVec 64) (is : List Nat) (off : Nat) :
    (slotsFrom p mask is off).map Slot.comp = is.filter mask.getLsbD := by
  induction is generalizing off with
  | nil => rfl
  | cons i is ih =>
    unfold slotsFrom
    split
    · rw [List.map_cons, ih, List.filter_cons_of_pos ‹_›]
    · rw [ih, List.filter_cons_of_neg ‹_›]

/-- The components of the slots rise. -/
theorem comps_slots_pairwise (s : State) : (slots s).Pairwise (fun a b => a.comp < b.comp) := by
  have h : ((slots s).map Slot.comp).Pairwise (· < ·) := by
    rw [slots, comps_slotsFrom]
    exact (List.pairwise_lt_range' (s := 2) (n := 61)).filter _
  exact List.pairwise_map.mp h

/-- A requested component is one that has a slot. -/
theorem requested_iff_slot {s : State} {k : Nat} (hk : k ∈ componentIds) :
    (rfbm s).getLsbD k = true ↔ ∃ sl ∈ slots s, sl.comp = k := by
  constructor
  · exact exists_slotsFrom hk
  · rintro ⟨sl, hsl, rfl⟩
    obtain ⟨-, hreq, -⟩ := mem_slots hsl
    exact hreq

/-! The linear address of the area (20_memory.md R40). -/

theorem area_targetOf (i : Instr) (s : State) :
    (targetOf i s).area = linearAddress s (targetOf i s).seg (targetOf i s).ea := rfl

theorem segBase_of_ne {s : State} {r : SegReg} (hm : s.mode ≠ .bits64) : segBase s r = (segment s r).base.toNat := by
  simp [segBase, hm]

/-- FS and GS have their base in every mode (10_state.md R27). -/
theorem segBase_fsGs {s : State} {r : SegReg} (h : r = .fs ∨ r = .gs) : segBase s r = (segment s r).base.toNat := by
  by_cases hm : s.mode = .bits64
  · rcases h with rfl | rfl <;> simp [segBase, segment, hm]
  · exact segBase_of_ne hm

/-- In 64-bit mode a segment other than FS and GS has base 0 (10_state.md R27). -/
theorem segBase_bits64 {s : State} {r : SegReg} (hm : s.mode = .bits64) (hf : r ≠ .fs) (hg : r ≠ .gs) : segBase s r = 0 := by
  cases r <;> simp_all [segBase]

/-- An effective address fits into 64 bits. -/
theorem ea_lt (i : Instr) (s : State) : (targetOf i s).ea < 2 ^ 64 :=
  Nat.lt_of_le_of_lt (Nat.mod_le _ _) (BitVec.isLt _)

/-! The footprint (20_memory.md R48). -/

/-- The offsets of the stores: the saved images, the slots of the saved components and the two header fields. -/
theorem mem_fst_stores {s : State} {form : Form} {k : Nat} : k ∈ (stores s form).map Prod.fst ↔
    (512 ≤ k ∧ k ≤ 527) ∨
    ((toBeSaved s).getLsbD 0 = true ∧ k ∈ (x87Image s form).map Prod.fst) ∨
    ((toBeSaved s).getLsbD 1 = true ∧ k ∈ (sseImage s).map Prod.fst) ∨
    ∃ sl ∈ slots s, (toBeSaved s).getLsbD sl.comp = true ∧ sl.offset ≤ k ∧ k < sl.offset + compSize s.params sl.comp := by
  have hx : k ∈ (storeX87 s form).map Prod.fst ↔
      (toBeSaved s).getLsbD 0 = true ∧ k ∈ (x87Image s form).map Prod.fst := by
    unfold storeX87
    cases (toBeSaved s).getLsbD 0 <;> simp
  have hs : k ∈ (storeSse s).map Prod.fst ↔ (toBeSaved s).getLsbD 1 = true ∧ k ∈ (sseImage s).map Prod.fst := by
    unfold storeSse
    cases (toBeSaved s).getLsbD 1 <;> simp
  have he : k ∈ (storeExtended s).map Prod.fst ↔ ∃ sl ∈ slots s, (toBeSaved s).getLsbD sl.comp = true ∧
      sl.offset ≤ k ∧ k < sl.offset + compSize s.params sl.comp := by
    rw [storeExtended, List.map_flatMap, List.mem_flatMap]
    refine exists_congr fun sl => and_congr_right fun _ => ?_
    rw [fst_storeSlot]
    cases (toBeSaved s).getLsbD sl.comp <;> simp
  have hh : k ∈ (storeHeader s).map Prod.fst ↔ 512 ≤ k ∧ k ≤ 527 := by
    rw [fst_storeHeader, List.mem_range'_1]
    omega
  rw [stores, List.map_append, List.map_append, List.map_append, List.mem_append, List.mem_append, List.mem_append,
    hx, hs, he, hh]
  exact or_comm.trans (or_congr_right or_assoc)

theorem mem_fst_standardX87_iff {s : State} {form : Form} {k : Nat} :
    k ∈ (standardX87 s form).map Prod.fst ↔ k ≤ 23 ∨ (32 ≤ k ∧ k ≤ 159) := by
  rw [fst_standardX87, List.mem_append, List.mem_range'_1, List.mem_range'_1]
  omega

theorem mem_fst_standardSse_iff {s : State} {k : Nat} :
    k ∈ (standardSse s).map Prod.fst ↔ (24 ≤ k ∧ k ≤ 31) ∨ (160 ≤ k ∧ k < 160 + 16 * xmmCount s) := by
  rw [fst_standardSse, List.mem_append, List.mem_range'_1, List.mem_range'_1]
  omega

/-! What no execution writes (20_memory.md R45). -/

/-- The offsets no XSAVEC writes: bytes 511:464 of the legacy region, and the header but for XSTATE_BV and XCOMP_BV. -/
def NeverWritten (k : Nat) : Prop := (464 ≤ k ∧ k ≤ 511) ∨ (528 ≤ k ∧ k ≤ 575)

/-- Stores to operand bytes of their own, none of them to such an offset, leave its byte alone. -/
theorem read_storeAll_neverWritten {s : State} {t : Target} {ws : List (Nat × Byte)} {k : Nat} (hk : NeverWritten k)
    (hb : ∀ w ∈ ws, hasByte s t w.1 = true) (ho : ∀ w ∈ ws, ¬NeverWritten w.1) :
    Memory.read (storeAll s.mem (byteAddress s t) ws) (byteAddress s t k) = Memory.read s.mem (byteAddress s t k) := by
  refine read_storeAll_outside fun w hw he => ho w hw ?_
  have hlt : k < 2 ^ 32 := by
    unfold NeverWritten at hk
    omega
  have hkw : k = w.1 := byteAddress_inj (fun _ => hlt) (hasByte_iff.mp (hb w hw)).2 he
  exact hkw ▸ hk

theorem not_neverWritten_of_stores {s : State} {form : Form} {w : Nat × Byte} (hw : w ∈ stores s form) :
    ¬NeverWritten w.1 := by
  have := (stores_offset hw).2
  unfold NeverWritten
  omega

theorem not_neverWritten_of_unsavedBytes {s : State} {form : Form} {t : Target} {w : Nat × Byte}
    (hw : w ∈ unsavedBytes s form t) : ¬NeverWritten w.1 := by
  obtain ⟨-, hu, -⟩ := mem_unsavedBytes hw
  have := (unsavedOffsets_offset hu).2
  unfold NeverWritten
  omega

theorem hasByte_of_storedAtFault {s : State} {t : Target} {k : Nat} (h : storedAtFault s t k = true) :
    hasByte s t k = true := by
  simp only [storedAtFault, Bool.and_eq_true] at h
  obtain ⟨⟨⟨-, hb⟩, -⟩, -⟩ := h
  exact hb

theorem read_neverWritten_of_next {i : Instr} {s t : State} {k : Nat} (hk : NeverWritten k) (h : exec i s = .next t) :
    Memory.read t.mem (byteAddress s (targetOf i s) k) = Memory.read s.mem (byteAddress s (targetOf i s) k) := by
  have hb {w : Nat × Byte} (hw : w ∈ stores s (instrForm i) ++ unsavedBytes s (instrForm i) (targetOf i s)) :
      hasByte s (targetOf i s) w.1 = true := hasByte_of_written h hw
  obtain ⟨-, -, -, -, rfl⟩ := exec_next h
  refine read_storeAll_neverWritten hk (fun w hw => hb hw) fun w hw => ?_
  rcases List.mem_append.mp hw with hw | hw
  · exact not_neverWritten_of_stores hw
  · exact not_neverWritten_of_unsavedBytes hw

theorem read_neverWritten_of_exception {i : Instr} {s t : State} {x : Exception} {code : Option ErrorCode} {k : Nat}
    (hk : NeverWritten k) (h : exec i s = .fault (.exception x code t)) :
    Memory.read t.mem (byteAddress s (targetOf i s) k) = Memory.read s.mem (byteAddress s (targetOf i s) k) := by
  obtain ⟨r, rfl⟩ := exec_exception h
  rw [faultState_mem]
  split
  · rfl
  · refine read_storeAll_neverWritten hk (fun w hw => ?_) fun w hw => ?_
    · exact hasByte_of_storedAtFault (List.mem_filter.mp hw).2
    · exact not_neverWritten_of_stores (List.mem_filter.mp hw).1

/-! Refusals (20_memory.md R50, R56, R57; 10_state.md R12). -/

/-- An execution that reports no exception completes or is refused. -/
theorem exec_of_reported_none {i : Instr} {s : State} (hm : ModeOk i s)
    (h : reported s (instrForm i) (instrOperand i) (targetOf i s) = none) :
    exec i s = complete s (instrForm i) (targetOf i s) (instrLength i) := by
  have h' : reported s (instrForm i) (instrOperand i) (resolve s (instrOperand i) (instrLength i)) = none := h
  rw [exec_of_modeOk hm, xsavecCommon, h']
  rfl

/-- An execution that reports an exception raises it or is refused. -/
theorem exec_of_reported_some {i : Instr} {s : State} {r : Raised} (hm : ModeOk i s)
    (h : reported s (instrForm i) (instrOperand i) (targetOf i s) = some r) :
    exec i s = raise s (instrForm i) (targetOf i s) (instrLength i) r := by
  have h' : reported s (instrForm i) (instrOperand i) (resolve s (instrOperand i) (instrLength i)) = some r := h
  rw [exec_of_modeOk hm, xsavecCommon, h']
  rfl

theorem exec_of_not_modeOk {i : Instr} {s : State} (hm : ¬ModeOk i s) : exec i s = .refused .notEncodable := by
  rw [exec_eq, if_pos (Classical.not_imp.mp hm)]

/-- Without an exception the refusals are the operand's and, after them, that of a pc + L that wraps. -/
theorem complete_eq_refused {s : State} {form : Form} {t : Target} {len : Nat} {q : Refusal} :
    complete s form t len = .refused q ↔ operandRefusal s t len = some q ∨
      (operandRefusal s t len = none ∧ 2 ^ pcWidth s.mode ≤ s.pc.toNat + len ∧ q = .pcWrap) := by
  unfold complete
  cases operandRefusal s t len with
  | some q' => simp
  | none =>
    by_cases hp : 2 ^ pcWidth s.mode ≤ s.pc.toNat + len
    · simp [hp, eq_comm]
    · simp [hp]

/-- An exception gives way to the operand's refusal only when it records an address, as #PF does. -/
theorem raise_eq_refused {s : State} {form : Form} {t : Target} {len : Nat} {r : Raised} {q : Refusal} :
    raise s form t len r = .refused q ↔ r.record ≠ none ∧ operandRefusal s t len = some q := by
  unfold raise takeException
  cases r.record <;> cases operandRefusal s t len <;> simp

theorem raise_of_not_refused {s : State} {form : Form} {t : Target} {len : Nat} {r : Raised}
    (h : r.record ≠ none → operandRefusal s t len = none) :
    raise s form t len r = .fault (.exception r.x r.code (faultState s form t r)) := by
  unfold raise takeException
  cases hrec : r.record with
  | none => rfl
  | some la => rw [h (by simp [hrec])]

theorem wraps_eq_true {s : State} {t : Target} :
    wraps s t = true ↔ s.mode ≠ .realAddress ∧ s.mode ≠ .bits64 ∧ 2 ^ 32 < t.area + areaSize s := by
  simp [wraps, and_assoc]

/-- The operand holds a byte of a range when the range meets it. -/
theorem meetsOperand_targetOf {i : Instr} {s : State} {r : Range} :
    meetsOperand s (targetOf i s) r = true ↔ ∃ k < areaSize s, r.has (byteAddress s (targetOf i s) k) = true := by
  simp only [meetsOperand_iff, inOperand_targetOf]
  constructor
  · rintro ⟨_, ha, k, hk, rfl⟩
    exact ⟨k, hk, ha⟩
  · rintro ⟨k, hk, ha⟩
    exact ⟨_, ha, k, hk, rfl⟩

/-- The operand is on code when one of its bytes is: the instruction's own or that of an instruction run before. -/
theorem onCode_targetOf {i : Instr} {s : State} {len : Nat} :
    onCode s (targetOf i s) len = true ↔
      ∃ k < areaSize s, byteAddress s (targetOf i s) k ∈ codeBytes s len ++ s.codeSeen := by
  have hany : onCode s (targetOf i s) len = (codeBytes s len ++ s.codeSeen).any (inOperand s (targetOf i s)) := by
    rw [onCode, codeBytes, List.any_append, List.any_map]
    rfl
  simp only [hany, List.any_eq_true, inOperand_targetOf]
  constructor
  · rintro ⟨_, ha, k, hk, rfl⟩
    exact ⟨k, hk, ha⟩
  · rintro ⟨k, hk, ha⟩
    exact ⟨_, ha, k, hk, rfl⟩

/-- A wrap is the one reason for `addressWrap`. -/
theorem operandRefusal_eq_addressWrap {s : State} {t : Target} {len : Nat} :
    operandRefusal s t len = some .addressWrap ↔ wraps s t = true := by
  unfold operandRefusal
  split
  · simp [*]
  · split
    · simp [*]
    · split <;> simp [*]

/-- Where nothing wraps, an operand that meets a region is refused under the kind of a region it meets. -/
theorem operandRefusal_of_region {s : State} {t : Target} {len : Nat} (hw : wraps s t = false)
    (h : ∃ r ∈ s.regions, meetsOperand s t r.range = true) :
    ∃ r ∈ s.regions, meetsOperand s t r.range = true ∧ operandRefusal s t len = some (.notOrdinary r.kind) := by
  obtain ⟨r, hr⟩ := Option.isSome_iff_exists.mp (List.find?_isSome.mpr h)
  have hmeets := List.find?_some hr
  exact ⟨r, List.mem_of_find?_eq_some hr, hmeets, by simp [operandRefusal, hw, hr]⟩

/-- Where nothing wraps and no region is met, an operand on code is refused. -/
theorem operandRefusal_of_onCode {s : State} {t : Target} {len : Nat} (hw : wraps s t = false)
    (hr : ∀ r ∈ s.regions, meetsOperand s t r.range = false) (hc : onCode s t len = true) :
    operandRefusal s t len = some (.notOrdinary .code) := by
  have hn : s.regions.find? (fun r => meetsOperand s t r.range) = none :=
    List.find?_eq_none.mpr fun r hmem => by simp [hr r hmem]
  simp [operandRefusal, hw, hn, hc]

/-! Code and operands recorded (20_memory.md R57). -/

/-- The recorded operand holds each of its bytes. -/
theorem exists_span_has {i : Instr} {s : State} {k : Nat} (hk : k < areaSize s) :
    ∃ r ∈ spans s (targetOf i s), r.has (byteAddress s (targetOf i s) k) = true :=
  List.any_eq_true.mp (inOperand_targetOf.mpr ⟨k, hk, rfl⟩)

/-- A code byte in a recorded operand makes the code one that was stored over. -/
theorem overwritten_of_has {s : State} {n k : Nat} {r : Range} (hk : k < n) (hr : r ∈ s.areasWritten)
    (h : r.has (codeAddress s k) = true) : overwritten s n = true :=
  List.any_eq_true.mpr ⟨k, List.mem_range.mpr hk, List.any_eq_true.mpr ⟨r, hr, h⟩⟩

/-- No byte of a completed execution's operand is recorded code. -/
theorem not_mem_codeSeen_of_next {i : Instr} {s t : State} (h : exec i s = .next t) {k : Nat} (hk : k < areaSize s) :
    byteAddress s (targetOf i s) k ∉ s.codeSeen := by
  obtain ⟨-, -, hq, -, -⟩ := exec_next h
  obtain ⟨-, -, hcode⟩ := operandRefusal_eq_none.mp hq
  intro hmem
  rw [onCode_targetOf.mpr ⟨k, hk, List.mem_append_right _ hmem⟩] at hcode
  cases hcode

/-! What the images depend on (20_memory.md R46, law 3). -/

/-- X87Image is a function of the x87 state, the constants and the form. -/
theorem x87Image_congr {s s' : State} (hp : s'.params = s.params) (hx : s'.x87 = s.x87) (form : Form) :
    x87Image s' form = x87Image s form := by
  have h : x87Image s' form = x87Image { s with params := s'.params, x87 := s'.x87 } form := rfl
  rw [h, hp, hx]

/-- SSEImage is a function of the XMM registers, MXCSR, the mode and the constants. -/
theorem sseImage_congr {s s' : State} (hp : s'.params = s.params) (hx : s'.xmm = s.xmm) (hc : s'.mxcsr = s.mxcsr)
    (hm : s'.mode = s.mode) : sseImage s' = sseImage s := by
  have h : sseImage s' = sseImage { s with params := s'.params, xmm := s'.xmm, mxcsr := s'.mxcsr, mode := s'.mode } := rfl
  rw [h, hp, hx, hc, hm]

/-- A field's bytes are its byte string placed where the field stands. -/
theorem mem_placeAt_bytesLE {w : Nat} {off n j : Nat} {v : BitVec w} (hj : j < n) :
    (off + j, v.extractLsb' (8 * j) 8) ∈ placeAt off (bytesLE n v) :=
  mem_placeAt.mpr ⟨j, by rw [bytesLE_getElem?, if_pos hj], rfl⟩

/-! No data is read from memory (20_memory.md R50). -/

/-- Memory has no part in what is stored and checked. -/
theorem sameChecks_withMem (s : State) (m : Memory) : SameChecks s { s with mem := m } := by
  refine ⟨⟨?_, ?_, ?_, ?_, ?_, ?_, ?_, ?_⟩, ?_, ?_, ?_, ?_, ?_, Iff.rfl⟩ <;> rfl

theorem reported_withMem (s : State) (m : Memory) (form : Form) (op : Operand) (t : Target) :
    reported { s with mem := m } form op t = reported s form op t := (sameChecks_withMem s m).reported form op t

/-- A completion from another memory makes the same stores into that memory and is the same elsewhere. -/
theorem completed_withMem (s : State) (m : Memory) (form : Form) (t : Target) (len : Nat) :
    completed { s with mem := m } form t len = { completed s form t len with
      mem := storeAll m (byteAddress s t) (stores s form ++ unsavedBytes s form t) } := rfl

/-- A fault from another memory makes the same stores into that memory and is the same elsewhere. -/
theorem faultState_withMem (s : State) (m : Memory) (form : Form) (t : Target) (r : Raised) :
    faultState { s with mem := m } form t r = { faultState s form t r with
      mem := if r.record = none then m
        else storeAll m (byteAddress s t) ((stores s form).filter (fun w => storedAtFault s t w.1)) } := by
  cases h : r.record with
  | none =>
    simp only [faultState, h]
    rfl
  | some la =>
    simp only [faultState, h]
    rfl

/-- What completes from one memory completes from every other. -/
theorem exec_withMem_next {i : Instr} {s t : State} (m : Memory) (h : exec i s = .next t) :
    exec i { s with mem := m } =
      .next (completed { s with mem := m } (instrForm i) (targetOf i s) (instrLength i)) := by
  obtain ⟨hm, hr, hq, hp, -⟩ := exec_next h
  have hr' := (reported_withMem s m _ _ _).trans hr
  exact exec_of_clear (s := { s with mem := m }) hm hr' hq hp

/-- What faults from one memory faults alike from every other. -/
theorem exec_withMem_exception {i : Instr} {s t : State} {x : Exception} {code : Option ErrorCode} (m : Memory)
    (h : exec i s = .fault (.exception x code t)) : ∃ r, t = faultState s (instrForm i) (targetOf i s) r ∧
      exec i { s with mem := m } =
        .fault (.exception x code (faultState { s with mem := m } (instrForm i) (targetOf i s) r)) := by
  obtain ⟨hm, r, hr, hf, hq⟩ := exec_fault h
  obtain ⟨rfl, rfl, rfl⟩ := Fault.exception.inj hf
  have hr' := (reported_withMem s m _ _ _).trans hr
  exact ⟨r, rfl, (exec_of_reported_some (s := { s with mem := m }) hm hr').trans (raise_of_not_refused hq)⟩

/-- What is refused from one memory is refused alike from every other: no refusal looks at memory. -/
theorem exec_withMem_refused {i : Instr} {s : State} {q : Refusal} (m : Memory) (h : exec i s = .refused q) :
    exec i { s with mem := m } = .refused q := by
  by_cases hm : ModeOk i s
  · have hm' : ModeOk i { s with mem := m } := hm
    cases hr : reported s (instrForm i) (instrOperand i) (targetOf i s) with
    | none =>
      rw [exec_of_reported_none hm hr, complete_eq_refused] at h
      rw [exec_of_reported_none hm' ((reported_withMem s m _ _ _).trans hr), complete_eq_refused]
      exact h
    | some r =>
      rw [exec_of_reported_some hm hr, raise_eq_refused] at h
      rw [exec_of_reported_some hm' ((reported_withMem s m _ _ _).trans hr), raise_eq_refused]
      exact h
  · rw [exec_of_not_modeOk hm] at h
    rw [← h]
    exact exec_of_not_modeOk (s := { s with mem := m }) hm

/-! A second run (20_memory.md R50). -/

/-- The state after a completion, its pc back at the instruction. -/
def rerunState (i : Instr) (s : State) : State :=
  { completed s (instrForm i) (targetOf i s) (instrLength i) with pc := s.pc }

/-- A completion writes nothing its stores depend on. -/
theorem sameStores_rerunState (i : Instr) (s : State) : SameStores s (rerunState i s) := by
  constructor <;> rfl

/-- The operand is a function of the general registers, pc, the mode and the segment registers. -/
theorem targetOf_congr {s s' : State} (hg : s'.gpr = s.gpr) (hp : s'.pc = s.pc) (hm : s'.mode = s.mode)
    (hs : s'.segs = s.segs) (i : Instr) : targetOf i s' = targetOf i s := by
  have hr : readGpr s' = readGpr s := by
    funext n
    simp only [readGpr, hg]
  have hsum : addressSum s' = addressSum s := by
    funext op next
    simp only [addressSum, regOf, indexPart, base16, hr, hm]
  have hb : segBase s' = segBase s := by
    funext r
    simp only [segBase, segment, hs, hm]
  simp only [targetOf, resolve, effectiveAddress, linearAddress, hsum, hb, hm, hp]

theorem targetOf_rerunState (i : Instr) (s : State) : targetOf i (rerunState i s) = targetOf i s :=
  targetOf_congr (s := s) (s' := rerunState i s) rfl rfl rfl rfl i

theorem stores_rerunState (i : Instr) (s : State) (form : Form) : stores (rerunState i s) form = stores s form :=
  (sameStores_rerunState i s).stores form

theorem byteAddress_rerunState (i : Instr) (s : State) : byteAddress (rerunState i s) = byteAddress s :=
  (sameStores_rerunState i s).byteAddress

theorem areaSize_rerunState (i : Instr) (s : State) : areaSize (rerunState i s) = areaSize s :=
  (sameStores_rerunState i s).areaSize

theorem inOperand_rerunState (i : Instr) (s : State) : inOperand (rerunState i s) = inOperand s := by
  funext t a
  rw [inOperand, inOperand, (sameStores_rerunState i s).spans]

theorem meetsOperand_rerunState (i : Instr) (s : State) : meetsOperand (rerunState i s) = meetsOperand s := by
  funext t r
  rw [meetsOperand, meetsOperand, (sameStores_rerunState i s).spans]

theorem extentOk_rerunState (i : Instr) (s : State) : extentOk (rerunState i s) = extentOk s := rfl

theorem pageBad_rerunState (i : Instr) (s : State) : pageBad (rerunState i s) = pageBad s := rfl

/-- The code a completion records is the instruction's own, which the operand missed already. -/
theorem onCode_rerunState {i : Instr} {s : State} {t : Target} (h : onCode s t (instrLength i) = false) :
    onCode (rerunState i s) t (instrLength i) = false := by
  obtain ⟨hown, hseen⟩ := Bool.or_eq_false_iff.mp h
  have haddr : codeAddress (rerunState i s) = codeAddress s := rfl
  have hrecord : (rerunState i s).codeSeen = codeBytes s (instrLength i) ++ s.codeSeen := rfl
  have hbytes : (codeBytes s (instrLength i)).any (inOperand s t) = false := by
    rw [codeBytes, List.any_map]
    exact hown
  rw [onCode, haddr, hrecord, inOperand_rerunState, hown, List.any_append, hbytes, hseen]
  rfl

/-- A completion keeps every launch premise but the moved pc. -/
theorem launch_rerunState {i : Instr} {s : State} (h : Launch s i) : Launch (rerunState i s) i := by
  obtain ⟨hm, he, hl, ha, hacc, hw, ⟨hreg, hcode⟩, hp⟩ := h
  refine ⟨hm, he, hl, ?_⟩
  rw [targetOf_rerunState]
  refine ⟨ha, ?_, ?_, ⟨?_, onCode_rerunState hcode⟩, hp⟩
  · rw [AreaAccessible, areaSize_rerunState, extentOk_rerunState, pageBad_rerunState]
    exact hacc
  · rw [AreaNoWrap, areaSize_rerunState]
    exact hw
  · rw [meetsOperand_rerunState]
    exact hreg

/-- A byte the policy `any` does not leave open reads after the second run as after the first: either both stored it, or the second
stores nothing there. -/
theorem read_rerun {i : Instr} {s t u : State} (h : exec i s = .next t) (hu : exec i (rerunState i s) = .next u) {a : Nat}
    (ha : s.params.unsavedSlot = .unchanged ∨
      ∀ k ∈ unsavedOffsets s (instrForm i), a ≠ byteAddress s (targetOf i s) k) :
    Memory.read u.mem a = Memory.read t.mem a := by
  by_cases hw : ∃ w ∈ stores s (instrForm i), a = byteAddress s (targetOf i s) w.1
  · obtain ⟨w, hw, rfl⟩ := hw
    have hsecond := read_stored hu (w := w) (by rwa [stores_rerunState])
    rw [byteAddress_rerunState, targetOf_rerunState] at hsecond
    rw [hsecond, read_stored h hw]
  · obtain ⟨-, -, -, -, rfl⟩ := exec_next hu
    obtain ⟨-, -, -, -, rfl⟩ := exec_next h
    refine read_storeAll_outside fun w hmem he => ?_
    rw [stores_rerunState] at hmem
    rw [byteAddress_rerunState, targetOf_rerunState] at he
    rcases List.mem_append.mp hmem with hmem | hmem
    · exact hw ⟨w, hmem, he⟩
    · obtain ⟨hany, hoff, -⟩ := mem_unsavedBytes hmem
      rw [(sameStores_rerunState i s).unsavedOffsets] at hoff
      rcases ha with hun | hne
      · cases hun.symm.trans hany
      · exact hne w.1 hoff he

end Sys2Proof.Machine

/-! The statements of the family. -/

namespace Sys2Proof.Proofs

open Machine

/-- Settles O22: the slots follow the recursion of `slotsFrom`, whose running offset is the end of the slots before. -/
theorem slotsAreDisjointAndInside : Obligations.SlotsAreDisjointAndInside := by
  intro s after
  have hoff {l r : List Slot} {sl : Slot} (h : slots s = l ++ sl :: r) :
      sl.offset = if s.params.align64[sl.comp - 2]? = some true then 64 * ((after l + 63) / 64) else after l :=
    (offset_of_slotsFrom_eq h).trans (slotOffset_eq _ _ _)
  refine ⟨fun k hk => requested_iff_slot hk, ?_, fun sl hsl => ?_, fun sl hsl hal => ?_, fun l sl r h => hoff h,
    endFrom_eq_endAfter _ _ _ _⟩
  · exact (comps_slots_pairwise s).and (slotsFrom_pairwise _ _ _ _)
  · obtain ⟨hc, -, hlo, hhi⟩ := mem_slots hsl
    exact ⟨hc, hlo, hhi⟩
  · obtain ⟨l, r, hlr⟩ := List.append_of_mem hsl
    rw [hoff hlr, if_pos hal]
    exact Nat.mul_mod_right _ _

/-- Settles O23: the stores are the concatenation of the parts W is the union of. -/
theorem footprintIsW : Obligations.FootprintIsW := by
  intro s form
  refine ⟨fun k => mem_fst_stores, fun h k => ?_, fun k hk => ?_, nodup_stores s form⟩
  · rw [x87Image_standard h, sseImage_standard h]
    exact ⟨mem_fst_standardX87_iff, mem_fst_standardSse_iff⟩
  · obtain ⟨w, hw, rfl⟩ := List.mem_map.mp hk
    have := stores_offset hw
    omega

/-- Settles O25: neither a completion nor a fault stores to such an offset, and distinct offsets have distinct addresses. -/
theorem bytesNeverModified : Obligations.BytesNeverModified := fun _ _ _ hk =>
  ⟨fun _ => read_neverWritten_of_next hk, fun _ _ _ => read_neverWritten_of_exception hk⟩

/-- Settles O28: memory has no part in the checks, the refusals and the bytes stored. -/
theorem noDataReadFromMemory : Obligations.NoDataReadFromMemory := by
  intro i s m alike
  refine ⟨fun t h => ?_, fun x code t h => ?_, fun q => exec_withMem_refused m⟩
  · have hu := exec_withMem_next m h
    obtain ⟨-, -, -, -, rfl⟩ := exec_next h
    refine ⟨_, hu, ⟨?_, fun a => ?_⟩, fun w hw => read_stored hu hw⟩
    · rw [completed_withMem]
    · rw [completed_withMem]
      exact read_storeAll_two _ _ _ _ a
  · obtain ⟨r, rfl, hu⟩ := exec_withMem_exception m h
    refine ⟨_, hu, ?_, fun a => ?_⟩
    · rw [faultState_withMem]
    · rw [faultState_withMem, faultState_mem]
      split
      · exact .inl ⟨rfl, rfl⟩
      · exact read_storeAll_two _ _ _ _ a

/-- Settles O37: a misaligned operand fails the alignment check, and a completion failed none. -/
theorem misalignedNeverCompletes : Obligations.MisalignedNeverCompletes := by
  intro i s t h
  obtain ⟨-, hr, -⟩ := exec_next h
  exact alignmentCheck_eq_none.mp (reported_eq_none.mp hr .alignment)

/-- Settles O42: without an exception what is refused is read off `operandRefusal`, a wrap first, then regions, then code. -/
theorem refusalsByName : Obligations.RefusalsByName := by
  intro i s hm hr
  have hrefused {q : Refusal} (h : operandRefusal s (targetOf i s) (instrLength i) = some q) : exec i s = .refused q := by
    rw [exec_of_reported_none hm hr, complete_eq_refused]
    exact .inl h
  refine ⟨fun h1 h2 h3 => ?_, fun hno => ?_, fun hq hp => ?_⟩
  · exact hrefused (operandRefusal_eq_addressWrap.mpr (wraps_eq_true.mpr ⟨h1, h2, h3⟩))
  · have hw : wraps s (targetOf i s) = false := wraps_eq_false.mpr fun h1 h2 => by tauto
    refine ⟨fun h => ?_, fun h => ?_, fun hreg hcode => ?_⟩
    · rw [exec_of_reported_none hm hr, complete_eq_refused, operandRefusal_eq_addressWrap, hw] at h
      simp at h
    · simp only [← meetsOperand_targetOf] at h ⊢
      obtain ⟨r, hmem, hmeet, hq⟩ := operandRefusal_of_region hw h
      exact ⟨r, hmem, hmeet, hrefused hq⟩
    · have hmiss : ∀ r ∈ s.regions, meetsOperand s (targetOf i s) r.range = false := by
        simpa [← Bool.not_eq_true, meetsOperand_targetOf] using hreg
      exact hrefused (operandRefusal_of_onCode hw hmiss (onCode_targetOf.mpr hcode))
  · rw [exec_of_reported_none hm hr, complete_eq_refused]
    exact .inr ⟨hq, hp, rfl⟩

/-- Settles O52: the records only grow, a step looks at the operands recorded, and an execution at the code recorded. -/
theorem codeStoredOverIsRefused : Obligations.CodeStoredOverIsRefused := by
  intro i s t h is v hv
  obtain ⟨hcode, hareas⟩ := records_of_execAll hv
  obtain ⟨-, -, -, -, rfl⟩ := exec_next h
  refine ⟨hcode, hareas, fun n hn => ?_, fun j hj k hk r hr hhas => ?_, fun j u hu n hn => not_mem_codeSeen_of_next hu hn⟩
  · obtain ⟨r, hr, hhas⟩ := exists_span_has (i := i) hn
    exact ⟨r, hareas r (List.mem_append_left _ hr), hhas⟩
  · rw [step_instr hj, unlessOverwritten_of_true (overwritten_of_has hk hr hhas)]

/-- Settles O54: the laws of the images one by one. -/
theorem imagesObeyTheLaws : Obligations.ImagesObeyTheLaws := by
  intro s form
  refine ⟨nodup_x87Image s form, nodup_sseImage s, fun w hw => ⟨x87Image_lt hw, fun hmem => ?_⟩, fun w => sseImage_lt,
    fun s' hp hx => x87Image_congr hp hx form, fun s' => sseImage_congr, fun j hj => ?_⟩
  · obtain ⟨v, hv, he⟩ := List.mem_map.mp hmem
    exact images_disjoint hw hv he.symm
  · exact ⟨mxcsr_in_sseImage s (mem_placeAt_bytesLE hj), mask_in_sseImage s (mem_placeAt_bytesLE hj)⟩

/-- Settles O55: a completion writes nothing that the operand, the stores or the launch premises depend on but the code recorded, and
that records the instruction's own bytes only. -/
theorem repetitionLeavesTheSameMemory : Obligations.RepetitionLeavesTheSameMemory := by
  intro i s t h
  have hread {u : State} (hu : exec i (rerunState i s) = .next u) {a : Nat} := read_rerun h hu (a := a)
  obtain ⟨-, -, -, -, rfl⟩ := exec_next h
  exact ⟨targetOf_rerunState i s, stores_rerunState i s _, fun u hu a ha => hread hu ha,
    fun hl => ⟨_, exec_of_launch (launch_rerunState hl)⟩⟩

/-- Settles O46: the base plus the effective address, cut by mode; in 64-bit mode only FS and GS have a base. -/
theorem linearAddressOfArea : Obligations.LinearAddressOfArea := by
  intro i s
  refine ⟨fun hm => ?_, fun hm hf hg => ?_, fun hm hr => ?_⟩
  · rw [area_targetOf, linearAddress, segBase_of_ne hm, linearWidth, if_neg hm]
  · rw [area_targetOf, linearAddress, segBase_bits64 hm hf hg, linearWidth, if_pos hm, Nat.zero_add]
    exact Nat.mod_eq_of_lt (ea_lt i s)
  · rw [area_targetOf, linearAddress, segBase_fsGs hr, linearWidth, if_pos hm]

end Sys2Proof.Proofs
end

section
/-! PROOFS. The encoding family (30_encoding.md): the decoder and the encoder are inverse; what the decoder refuses or finds
undefined or too long; the address size, the effective address and the segment of an operand. -/

namespace Sys2Proof

open Machine

/-! Well-formed instructions, taken apart. -/

theorem Operand.shapeOk_iff {cm : CodeMode} {op : Operand} : op.shapeOk cm = true ↔
    op.rexOk cm.mode = true ∧ formIs16 op.form = (addressSize cm (has67 op.prefixes) == .a16) ∧
      op.form.fieldsOk = true := by
  simp [Operand.shapeOk, and_assoc]

theorem Operand.wellFormed_iff {cm : CodeMode} {op : Operand} : op.wellFormed cm = true ↔
    hasMandatory op.prefixes = false ∧ op.shapeOk cm = true ∧ operandLength op ≤ 15 := by
  simp [Operand.wellFormed, and_assoc]

/-- XSAVEC64 asks for 64-bit mode and a REX byte on top of a well-formed operand (30_encoding.md R62, R72). -/
theorem Instr.wellFormed_iff {cm : CodeMode} {i : Instr} : i.wellFormed cm = true ↔
    (instrOperand i).wellFormed cm = true ∧
      (instrForm i = .xsavec64 → cm.mode = .bits64 ∧ (instrOperand i).rex.isSome = true) := by
  cases i with
  | xsavec op => simp [Instr.wellFormed, instrOperand, instrForm]
  | xsavec64 op => simp [Instr.wellFormed, instrOperand, instrForm, and_assoc]

/-! The decoder on the bytes of an instruction. -/

/-- REX.W is what tells the two encodings apart (30_encoding.md R62). -/
theorem encode_eq (i : Instr) : encode i = encodeOperand (instrForm i == .xsavec64) (instrOperand i) := by
  cases i <;> rfl

theorem instrLength_eq (i : Instr) : instrLength i = operandLength (instrOperand i) := by
  cases i <;> rfl

theorem instrLength_le {cm : CodeMode} {i : Instr} (h : i.wellFormed cm = true) : instrLength i ≤ 15 := by
  obtain ⟨hop, -⟩ := Instr.wellFormed_iff.mp h
  obtain ⟨-, -, hl⟩ := Operand.wellFormed_iff.mp hop
  rwa [instrLength_eq]

@[simp] theorem length_encode (i : Instr) : (encode i).length = instrLength i := by
  cases i with
  | xsavec op => exact Laws.EncodedLength.xsavec op
  | xsavec64 op => exact Laws.EncodedLength.xsavec64 op

/-- Without the prefixes NP forbids, the bytes of an instruction that fits its mode decode to it, whatever follows. -/
theorem decodeBytes_encode {cm : CodeMode} {i : Instr} (hs : (instrOperand i).shapeOk cm = true)
    (hn : hasMandatory (instrOperand i).prefixes = false)
    (hr : instrForm i = .xsavec64 → (instrOperand i).rex.isSome = true) (rest : List Byte) :
    decodeBytes cm (encode i ++ rest) = some (.instr i) := by
  rw [encode_eq, decodeBytes_encodeOperand _ hs, hn]
  cases i with
  | xsavec op => exact congrArg (some ∘ Decoded.instr) (makeInstr_encode_false op)
  | xsavec64 op => exact congrArg (some ∘ Decoded.instr) (makeInstr_encode_true op (hr rfl))

theorem decode_encode {cm : CodeMode} {i : Instr} (h : i.wellFormed cm = true) (rest : List Byte) :
    decode cm (encode i ++ rest) = .instr i := by
  obtain ⟨hop, h64⟩ := Instr.wellFormed_iff.mp h
  obtain ⟨hn, hs, -⟩ := Operand.wellFormed_iff.mp hop
  have hl : (encode i).length ≤ 15 := by
    rw [length_encode]
    exact instrLength_le h
  exact decode_of_decodeBytes hl (decodeBytes_encode hs hn fun hf => (h64 hf).2)

/-! What the decoder accepts. -/

/-- What REX.W makes of the prefixes, the REX byte and the form; an XSAVEC64 has a REX byte (30_encoding.md R62). -/
theorem makeInstr_cases (ps : List LegacyPrefix) (rex : Option (BitVec 4)) (f : MemForm) :
    (makeInstr ps rex f = .xsavec ⟨ps, rex.map rexOf, f⟩ ∧ encodeRex false (rex.map rexOf) = rexBytes rex) ∨
    (rex.isSome = true ∧ makeInstr ps rex f = .xsavec64 ⟨ps, rex.map rexOf, f⟩ ∧
      encodeRex true (rex.map rexOf) = rexBytes rex) := by
  cases rex with
  | none => exact .inl ⟨rfl, rfl⟩
  | some low =>
    have hb : rexByteOf (low.getLsbD 3) (rexOf low) = 4#4 ++ low := rexByteOf_rexOf low
    cases hw : low.getLsbD 3 with
    | false => exact .inl ⟨if_neg (Bool.eq_false_iff.mp hw), congrArg ([·]) (hw ▸ hb)⟩
    | true => exact .inr ⟨rfl, if_pos hw, congrArg ([·]) (hw ▸ hb)⟩

@[simp] theorem instrOperand_makeInstr (ps : List LegacyPrefix) (rex : Option (BitVec 4)) (f : MemForm) :
    instrOperand (makeInstr ps rex f) = ⟨ps, rex.map rexOf, f⟩ := by
  rcases makeInstr_cases ps rex f with ⟨h, -⟩ | ⟨-, h, -⟩ <;> rw [h] <;> rfl

theorem isSome_of_makeInstr_xsavec64 {ps : List LegacyPrefix} {rex : Option (BitVec 4)} {f : MemForm}
    (h : instrForm (makeInstr ps rex f) = .xsavec64) : rex.isSome = true := by
  rcases makeInstr_cases ps rex f with ⟨hi, -⟩ | ⟨hr, -⟩
  · rw [hi] at h
    cases h
  · exact hr

/-- An instruction made of what was scanned and parsed has the bytes it was made of. -/
theorem encode_makeInstr (ps : List LegacyPrefix) (rex : Option (BitVec 4)) (f : MemForm) :
    encode (makeInstr ps rex f) = ps.map prefixByte ++ (rexBytes rex ++ 0x0F#8 :: 0xC7#8 :: encodeForm f) := by
  rcases makeInstr_cases ps rex f with ⟨h, hb⟩ | ⟨-, h, hb⟩ <;> rw [h, ← hb] <;> rfl

/-- From ModRM on, what is decoded is a form of the mode's address size and its bytes. -/
theorem decodeModrm_eq_instr {cm : CodeMode} {ps : List LegacyPrefix} {rex : Option (BitVec 4)} {modrm : Byte} {bs : List Byte}
    {i : Instr} (h : decodeModrm cm ps rex modrm bs = some (.instr i)) :
    hasMandatory ps = false ∧ ∃ f, i = makeInstr ps rex f ∧ formIs16 f = (addressSize cm (has67 ps) == .a16) ∧
      f.fieldsOk = true ∧ ∃ rest, modrm :: bs = encodeForm f ++ rest := by
  unfold decodeModrm at h
  split at h
  · cases h
  next hreg =>
  split at h
  · cases h
  next hmod =>
  split at h
  · cases h
  next f hf =>
  split at h
  · cases h
  next hn =>
  cases h
  obtain ⟨h16, hok, hm, hrm, rest, rfl⟩ := parseForm_eq_some hmod hf
  refine ⟨by simpa using hn, f, rfl, h16, hok, rest, ?_⟩
  rw [encodeForm_eq, ← hm, ← hrm, ← modrmByte_of_reg modrm (not_not.mp hreg)]
  rfl

/-- An instruction is decoded from the opcode bytes and ModRM only (30_encoding.md R61). -/
theorem decodeOpcode_eq_instr {cm : CodeMode} {ps : List LegacyPrefix} {rex : Option (BitVec 4)} {bs : List Byte} {i : Instr}
    (h : decodeOpcode cm ps rex bs = some (.instr i)) : ∃ modrm tail, bs = 0x0F#8 :: 0xC7#8 :: modrm :: tail ∧
      decodeModrm cm ps rex modrm tail = some (.instr i) := by
  unfold decodeOpcode at h
  split at h
  · cases h
  next b0 bs =>
  split at h
  · cases h
  next h0 =>
  split at h
  · cases h
  next b1 bs =>
  split at h
  · cases h
  next h1 =>
  split at h
  · cases h
  next modrm tail => exact ⟨modrm, tail, by rw [not_not.mp h0, not_not.mp h1], h⟩

/-- What is decoded fits its mode, and the bytes begin with its encoding. -/
theorem decodeBytes_eq_instr {cm : CodeMode} {bs : List Byte} {i : Instr} (h : decodeBytes cm bs = some (.instr i)) :
    hasMandatory (instrOperand i).prefixes = false ∧ (instrOperand i).shapeOk cm = true ∧
      (instrForm i = .xsavec64 → cm.mode = .bits64 ∧ (instrOperand i).rex.isSome = true) ∧
      ∃ rest, bs = encode i ++ rest := by
  rcases hsc : scanPrefixes (cm.mode == .bits64) bs with ⟨ps, rex, tl⟩
  simp only [decodeBytes, hsc] at h
  obtain ⟨hbs, hm, hl⟩ := scan_inv hsc
  obtain ⟨modrm, tail, rfl, h⟩ := decodeOpcode_eq_instr h
  obtain ⟨hn, f, rfl, h16, hok, rest, hf⟩ := decodeModrm_eq_instr h
  have hmode (hr : rex ≠ none) : cm.mode = .bits64 := by simpa [hr] using hm
  simp only [instrOperand_makeInstr]
  refine ⟨hn, Operand.shapeOk_iff.mpr ⟨rexOk_iff.mpr ⟨?_, hm.imp id And.right, hl⟩, h16, hok⟩, fun h64 => ?_, rest, ?_⟩
  · simpa using hmode
  · have hr : rex.isSome = true := isSome_of_makeInstr_xsavec64 h64
    exact ⟨hmode (Option.isSome_iff_ne_none.mp hr), by rwa [Option.isSome_map]⟩
  · rw [hbs, encode_makeInstr, hf]
    simp

theorem decode_eq_instr {cm : CodeMode} {bs : List Byte} {i : Instr} (h : decode cm bs = .instr i) :
    decodeBytes cm (bs.take 15) = some (.instr i) := by
  unfold decode at h
  split at h
  · rw [‹decodeBytes cm _ = _›, h]
  · split at h <;> cases h

/-- What the decoder accepts is well-formed, and the bytes begin with its encoding. -/
theorem wellFormed_of_decode {cm : CodeMode} {bs : List Byte} {i : Instr} (h : decode cm bs = .instr i) :
    i.wellFormed cm = true ∧ ∃ rest, bs = encode i ++ rest := by
  obtain ⟨hn, hs, h64, rest, hr⟩ := decodeBytes_eq_instr (decode_eq_instr h)
  have hlen : operandLength (instrOperand i) ≤ 15 := by
    have hcut := congrArg List.length hr
    rw [List.length_take, List.length_append, length_encode, instrLength_eq] at hcut
    omega
  refine ⟨Instr.wellFormed_iff.mpr ⟨Operand.wellFormed_iff.mpr ⟨hn, hs, hlen⟩, h64⟩, rest ++ bs.drop 15, ?_⟩
  rw [← List.append_assoc, ← hr, List.take_append_drop]

/-! What the decoder refuses, answers with #UD or finds too long (30_encoding.md R71, R73). -/

/-- Behind prefixes and a REX byte that fit the mode, `0F C7` leaves the verdict to the ModRM byte (30_encoding.md R61). -/
theorem decodeBytes_opcode {cm : CodeMode} {op : Operand} (w : Bool) (h : op.rexOk cm.mode = true) (modrm : Byte)
    (rest : List Byte) :
    decodeBytes cm (op.prefixes.map prefixByte ++ (encodeRex w op.rex ++ 0x0F#8 :: 0xC7#8 :: modrm :: rest)) =
      decodeModrm cm op.prefixes (op.rex.map (rexLow w)) modrm rest := by
  simp only [decodeBytes, scan_operand w h]
  rfl

theorem decodeModrm_otherReg {cm : CodeMode} {ps : List LegacyPrefix} {rex : Option (BitVec 4)} {modrm : Byte}
    (h : modrm.extractLsb' 3 3 ≠ 4#3) (bs : List Byte) : decodeModrm cm ps rex modrm bs = some .outOfScope :=
  if_pos h

/-- The register form, mod = 11 (30_encoding.md R65). -/
theorem decodeModrm_registerForm (cm : CodeMode) (ps : List LegacyPrefix) (rex : Option (BitVec 4)) (rm : BitVec 3)
    (bs : List Byte) : decodeModrm cm ps rex (modrmByte 3#2 rm) bs = some (.undefined (lengthToModrm ps rex)) := by
  simp [decodeModrm]

theorem lengthToModrm_rexLow (ps : List LegacyPrefix) (w : Bool) (rex : Option Rex) :
    lengthToModrm ps (rex.map (rexLow w)) = ps.length + (encodeRex w rex).length + 3 := by
  cases rex <;> rfl

/-- Where the opcode should stand, any byte but 0F is another instruction (30_encoding.md R73). -/
theorem decodeBytes_of_scan_other {cm : CodeMode} {bs tl : List Byte} {ps : List LegacyPrefix} {rex : Option (BitVec 4)}
    {b : Byte} (h : scanPrefixes (cm.mode == .bits64) bs = (ps, rex, b :: tl)) (hb : b ≠ 0x0F#8) :
    decodeBytes cm bs = some .outOfScope := by
  simp only [decodeBytes, h]
  exact if_pos hb

theorem rexByte_ne_opcode (low : BitVec 4) : 4#4 ++ low ≠ 0x0F#8 := by
  revert low
  decide

/-- Outside 64-bit mode a byte 40 to 4F is the opcode of another instruction (30_encoding.md R72). -/
theorem decodeBytes_rexByte {cm : CodeMode} (hm : cm.mode ≠ .bits64) (low : BitVec 4) (bs : List Byte) :
    decodeBytes cm ((4#4 ++ low) :: bs) = some .outOfScope := by
  have hscan : scanPrefixes (cm.mode == .bits64) ((4#4 ++ low) :: bs) = ([], none, (4#4 ++ low) :: bs) := by
    rw [beq_eq_false_iff_ne.mpr hm, scanPrefixes, classify_rex_legacy]
  exact decodeBytes_of_scan_other hscan (rexByte_ne_opcode low)

/-- In 64-bit mode the second of two REX bytes in a row leaves a REX byte in the opcode's place (30_encoding.md R60). -/
theorem decodeBytes_twoRex {cm : CodeMode} {ps : List LegacyPrefix} (hm : cm.mode = .bits64) (hs : straysOk ps = true)
    (l l' : BitVec 4) (rest : List Byte) :
    decodeBytes cm (ps.map prefixByte ++ (4#4 ++ l) :: (4#4 ++ l') :: rest) = some .outOfScope := by
  have h64 : (cm.mode == .bits64) = true := beq_iff_eq.mpr hm
  obtain ⟨rex, h | h⟩ := scan_two_rex l l' rest
  · exact decodeBytes_of_scan_other (h64 ▸ scan_prefixes h (.inl rfl) hs) (rexByte_ne_opcode l)
  · exact decodeBytes_of_scan_other (h64 ▸ scan_prefixes h (.inl rfl) hs) (rexByte_ne_opcode l')

/-- The first 15 bytes of a longer instruction (30_encoding.md R71). -/
theorem decode_tooLong {cm : CodeMode} {i : Instr} (hs : (instrOperand i).shapeOk cm = true) (hl : 15 < instrLength i) :
    decode cm ((encode i).take 15) = .tooLong := by
  have hnone : decodeBytes cm ((encode i).take 15) = none := by
    rw [encode_eq]
    exact decodeBytes_short _ hs (instrLength_eq i ▸ hl)
  have hlen : 15 ≤ ((encode i).take 15).length := by
    rw [List.length_take, length_encode]
    omega
  unfold decode
  rw [List.take_take, Nat.min_self, hnone]
  exact if_pos hlen

end Sys2Proof

namespace Sys2Proof.Machine

/-! A step by the decoder's verdict. -/

theorem step_outOfScope {s : State} (h : decodeBytes (codeMode s) (fetchBytes s) = some .outOfScope) :
    step s = .refused .outOfScope := by
  rw [step, decode_fetch h]
  rfl

theorem step_tooLong {s : State} (h : decode (codeMode s) (fetchBytes s) = .tooLong) (ho : overwritten s 15 = false) :
    step s = .fault (.exception .gp (zeroCode s.mode) (tick s)) := by
  rw [step, h]
  exact unlessOverwritten_of_false ho

/-- The fetch of a well-formed instruction that stands at pc begins with its encoding. -/
theorem fetchBytes_of_codeWellFormed {s : State} {i : Instr} (h : CodeWellFormed s i) :
    ∃ rest, fetchBytes s = encode i ++ rest := by
  obtain ⟨hw, hp, -, hr⟩ := h
  have hp : s.pc.toNat + instrLength i < 2 ^ pcWidth s.mode := hp
  rw [← length_encode i] at hp hr
  refine fetchFrom_of_read ?_ (.inr (by omega)) fun j hj => ?_
  · rw [length_encode]
    exact instrLength_le hw
  · rw [Nat.zero_add]
    exact hr j hj

/-! #UD of LOCK (30_encoding.md R64). -/

theorem udCondition_of_lock {op : Operand} (h : LegacyPrefix.lock ∈ op.prefixes) (s : State) : udCondition s op = true := by
  simp [udCondition, hasLock, h]

/-- With a condition of #UD nothing completes, whatever the order of exceptions is. -/
theorem exec_ne_next_of_udCondition {i : Instr} {s : State} (h : udCondition s (instrOperand i) = true) (t : State) :
    exec i s ≠ .next t := by
  intro ht
  obtain ⟨-, hr, -⟩ := exec_next ht
  have hud := reported_eq_none.mp hr .ud
  simp [check_ud, h] at hud

/-- In the default order a condition of #UD is what is reported. -/
theorem exec_of_udCondition {i : Instr} {s : State} (hm : ModeOk i s) (ho : DefaultOrder s)
    (h : udCondition s (instrOperand i) = true) : exec i s = .fault (.exception .ud none (tick s)) :=
  exec_of_reported hm (reported_of_udCondition ho h) rfl

/-! The address size (30_encoding.md R67). -/

/-- The number of bits of an address size. -/
def bitsOf : AddrSize → Nat
  | .a16 => 16
  | .a32 => 32
  | .a64 => 64

theorem bitsOf_eq_16 {n : AddrSize} : bitsOf n = 16 ↔ (n == .a16) = true := by
  cases n <;> decide

theorem has67_eq (ps : List LegacyPrefix) : has67 ps = decide (.addrSize ∈ ps) := List.contains_eq_mem _ _

/-- The table of R67. -/
theorem bitsOf_addressSize (cm : CodeMode) (ps : List LegacyPrefix) : bitsOf (addressSize cm (has67 ps)) =
    if cm.mode = .bits64 then (if .addrSize ∈ ps then 32 else 64)
    else if (cm.mode = .protectedMode ∨ cm.mode = .compatibility) ∧ cm.codeSize = .bits32 then
      (if .addrSize ∈ ps then 16 else 32)
    else (if .addrSize ∈ ps then 32 else 16) := by
  obtain ⟨mode, size⟩ := cm
  rw [has67_eq]
  by_cases h67 : LegacyPrefix.addrSize ∈ ps <;> simp only [h67, decide_true, decide_false, if_true, if_false]
  all_goals cases mode <;> cases size <;> rfl

/-- An operand whose form has the mode's address size is computed with it. -/
theorem addressBits_eq {cm : CodeMode} {op : Operand}
    (h : formIs16 op.form = (addressSize cm (has67 op.prefixes) == .a16)) :
    addressBits cm.mode op = bitsOf (addressSize cm (has67 op.prefixes)) := by
  obtain ⟨mode, size⟩ := cm
  rw [addressBits, h]
  cases has67 op.prefixes <;> cases mode <;> cases size <;> rfl

/-- The form of the ModRM byte 27 by address size: `[bx]`, or base register 7 (30_encoding.md R68, R69). -/
def formOf27 (cm : CodeMode) (ps : List LegacyPrefix) : MemForm :=
  if bitsOf (addressSize cm (has67 ps)) = 16 then .based16 7 .noDisp else .based 7 .noDisp

theorem encode_formOf27 (cm : CodeMode) (ps : List LegacyPrefix) (rest : List Byte) :
    encode (.xsavec ⟨ps, none, formOf27 cm ps⟩) ++ rest = ps.map prefixByte ++ 0x0F#8 :: 0xC7#8 :: 0x27#8 :: rest := by
  have hform : encodeForm (formOf27 cm ps) = [0x27#8] := by
    unfold formOf27
    split <;> decide
  simp [encode, encodeOperand, encodeRex, hform]

theorem wellFormed_formOf27 {cm : CodeMode} {ps : List LegacyPrefix}
    (hr : Operand.rexOk cm.mode ⟨ps, none, .based 7 .noDisp⟩ = true) (hn : hasMandatory ps = false) (hl : ps.length ≤ 12) :
    (Instr.xsavec ⟨ps, none, formOf27 cm ps⟩).wellFormed cm = true := by
  refine Operand.wellFormed_iff.mpr ⟨hn, Operand.shapeOk_iff.mpr ⟨hr, ?_, ?_⟩, ?_⟩
  · rw [Bool.eq_iff_iff, ← bitsOf_eq_16, formOf27]
    split <;> simp [*, formIs16]
  · rw [formOf27]
    split <;> rfl
  · have hf : formLength (formOf27 cm ps) = 0 := by
      rw [formOf27]
      split <;> rfl
    simp only [operandLength, hf]
    exact Nat.add_le_add_right hl 3

/-! The effective address (30_encoding.md R68, R69). -/

/-- A sum of register words, cut to an address size, is the sum of the numbers. -/
theorem toNat_add_modEq {n : Nat} (hn : n ≤ 64) (a b : Word) : (a + b).toNat ≡ a.toNat + b.toNat [MOD 2 ^ n] := by
  rw [BitVec.toNat_add]
  exact Nat.mod_mod_of_dvd _ (Nat.pow_dvd_pow 2 hn)

/-- The same of `pc + L`. -/
theorem toNat_add_ofNat_modEq {n : Nat} (hn : n ≤ 64) (a : Word) (len : Nat) :
    (a + BitVec.ofNat 64 len).toNat ≡ a.toNat + len [MOD 2 ^ n] := by
  refine (toNat_add_modEq hn a _).trans (Nat.ModEq.add_left _ ?_)
  rw [BitVec.toNat_ofNat]
  exact Nat.mod_mod_of_dvd _ (Nat.pow_dvd_pow 2 hn)

/-- The low bits of a sign extension to 64 bits. -/
theorem setWidth_sext {w n : Nat} (hn : n ≤ 64) (v : BitVec w) : (sext 64 v).setWidth n = v.signExtend n := by
  apply BitVec.eq_of_getLsbD_eq
  intro i hi
  have hi64 : i < 64 := by omega
  simp only [sext, BitVec.getLsbD_setWidth, BitVec.getLsbD_signExtend, hi, hi64, decide_true, Bool.true_and]

/-- The low 16 bits of a 16-bit form's displacement (30_encoding.md R69). -/
theorem setWidth_disp16Value (d : Disp16) : (disp16Value d).setWidth 16 =
    match d with
    | .noDisp => 0
    | .disp8 v => v.signExtend 16
    | .disp16 v => v := by
  cases d with
  | noDisp => rfl
  | disp8 v => exact setWidth_sext (by omega) v
  | disp16 v => exact (setWidth_sext (by omega) v).trans (BitVec.signExtend_eq v)

theorem base16_eq (s : State) (rm : BitVec 3) : base16 s rm =
    if rm = 0 then readGpr s 3 + readGpr s 6 else if rm = 1 then readGpr s 3 + readGpr s 7
    else if rm = 2 then readGpr s 5 + readGpr s 6 else if rm = 3 then readGpr s 5 + readGpr s 7
    else if rm = 4 then readGpr s 6 else if rm = 5 then readGpr s 7 else if rm = 6 then readGpr s 5 else readGpr s 3 := by
  have hrm : rm = 0 ∨ rm = 1 ∨ rm = 2 ∨ rm = 3 ∨ rm = 4 ∨ rm = 5 ∨ rm = 6 ∨ rm = 7 := by
    revert rm
    decide
  rcases hrm with rfl | rfl | rfl | rfl | rfl | rfl | rfl | rfl <;> rfl

theorem effectiveAddress_16 {op : Operand} (h : formIs16 op.form = true) (s : State) (len : Nat) :
    effectiveAddress s op len = ((addressSum s op (s.pc + BitVec.ofNat 64 len)).setWidth 16).toNat := by
  rw [effectiveAddress, addressBits, if_pos h, BitVec.toNat_setWidth]

/-- The address size of a 32-bit or 64-bit form (30_encoding.md R67). -/
def size3264 (m : Mode) (ps : List LegacyPrefix) : Nat := if m = .bits64 ∧ has67 ps = false then 64 else 32

theorem size3264_le (m : Mode) (ps : List LegacyPrefix) : size3264 m ps ≤ 64 := by
  unfold size3264
  split <;> omega

theorem effectiveAddress_3264 {op : Operand} (h : formIs16 op.form = false) (s : State) (len : Nat) :
    effectiveAddress s op len =
      (addressSum s op (s.pc + BitVec.ofNat 64 len)).toNat % 2 ^ size3264 s.mode op.prefixes := by
  simp only [effectiveAddress, addressBits, h, size3264, Bool.false_eq_true, if_false]

/-- The scaled index of a SIB form as a number: 0 when all four bits say 0100 (30_encoding.md R68). -/
theorem indexPart_modEq {n : Nat} (hn : n ≤ 64) (s : State) (x : Bool) (scale : BitVec 2) (index : BitVec 3) :
    (indexPart s x scale index).toNat ≡
      if (BitVec.ofBool x ++ index : BitVec 4) = 4 then 0
      else (readGpr s (BitVec.ofBool x ++ index)).toNat * 2 ^ scale.toNat [MOD 2 ^ n] := by
  have hno : (x = false ∧ index = 4#3) ↔ (BitVec.ofBool x ++ index : BitVec 4) = 4 := by
    revert x index
    decide
  unfold indexPart
  simp only [hno]
  split
  · rfl
  · rw [regOf, BitVec.toNat_shiftLeft, Nat.shiftLeft_eq]
    exact Nat.mod_mod_of_dvd _ (Nat.pow_dvd_pow 2 hn)

/-- The sign extension of a 32-bit value has that value in its low half. -/
theorem toNat_sext_mod (v : BitVec 32) : (sext 64 v).toNat % 2 ^ 32 = v.toNat := by
  rw [← BitVec.toNat_setWidth, setWidth_sext (by omega), BitVec.signExtend_eq]

/-! The segment of the operand (30_encoding.md R66, R70). -/

theorem mem_overrides {ps : List LegacyPrefix} {r : SegReg} : r ∈ ps.filterMap overrideOf ↔ .seg r ∈ ps := by
  have hov (p : LegacyPrefix) : overrideOf p = some r ↔ p = .seg r := by
    cases p <;> simp [overrideOf]
  simp [List.mem_filterMap, hov]

theorem overrides_eq_nil {ps : List LegacyPrefix} (h : ∀ r, .seg r ∉ ps) : ps.filterMap overrideOf = [] :=
  List.eq_nil_iff_forall_not_mem.mpr fun r hr => h r (mem_overrides.mp hr)

/-- No FS or GS override among the prefixes leaves none among the overrides. -/
theorem fsGsOverrides_eq_nil {ps : List LegacyPrefix} (h : ∀ r ∈ [SegReg.fs, .gs], .seg r ∉ ps) :
    (ps.filterMap overrideOf).filter isFsGs = [] := by
  rw [List.filter_eq_nil_iff]
  intro r hr hfg
  refine h r ?_ (mem_overrides.mp hr)
  simpa [isFsGs] using hfg

theorem overrides_append_seg (ps qs : List LegacyPrefix) (r : SegReg) :
    (ps ++ .seg r :: qs).filterMap overrideOf = ps.filterMap overrideOf ++ r :: qs.filterMap overrideOf := by
  rw [List.filterMap_append]
  rfl

/-- Outside 64-bit mode the last override decides. -/
theorem operandSegment_of_ne {m : Mode} (hm : m ≠ .bits64) (op : Operand) :
    operandSegment m op = (op.prefixes.filterMap overrideOf).getLast?.getD (defaultSegment op) :=
  if_neg hm

/-- In 64-bit mode the last FS or GS override decides. -/
theorem operandSegment_fsGs {op : Operand} {ps qs : List LegacyPrefix} {r : SegReg}
    (hp : op.prefixes = ps ++ .seg r :: qs) (hr : isFsGs r = true) (h : ∀ r ∈ [SegReg.fs, .gs], .seg r ∉ qs) :
    operandSegment .bits64 op = r := by
  have hlast : ((op.prefixes.filterMap overrideOf).filter isFsGs).getLast? = some r := by
    rw [hp, overrides_append_seg, List.filter_append, List.filter_cons_of_pos hr, fsGsOverrides_eq_nil h]
    exact List.getLast?_concat
  simp only [operandSegment, if_true, hlast]

/-- In 64-bit mode without an FS or GS override an SS override decides, and no other. -/
theorem operandSegment_bits64 {op : Operand} (h : ∀ r ∈ [SegReg.fs, .gs], .seg r ∉ op.prefixes) :
    operandSegment .bits64 op = if .seg .ss ∈ op.prefixes then .ss else defaultSegment op := by
  simp only [operandSegment, if_true, fsGsOverrides_eq_nil h, List.getLast?_nil, List.contains_iff_mem, mem_overrides]

/-- Without an override the segment is the default one, in every mode. -/
theorem operandSegment_default {op : Operand} (h : ∀ r, .seg r ∉ op.prefixes) (m : Mode) :
    operandSegment m op = defaultSegment op := by
  by_cases hm : m = .bits64
  · subst hm
    rw [operandSegment_bits64 fun r _ => h r, if_neg (h .ss)]
  · rw [operandSegment_of_ne hm, overrides_eq_nil h]
    rfl

end Sys2Proof.Machine

/-! The statements of the family. -/

namespace Sys2Proof.Proofs

open Machine

/-- Settles O1: within 15 bytes the prefixes, REX, ModRM, SIB and displacement are each read back. -/
theorem decodeReadsBackEncoding : Obligations.DecodeReadsBackEncoding := fun _ _ rest h => decode_encode h rest

/-- Settles O2: each part of the decoder, inverted. -/
theorem decodedBytesAreTheEncoding : Obligations.DecodedBytesAreTheEncoding := fun _ _ _ => wellFormed_of_decode

/-- Settles O4: what is decoded is well-formed, and XSAVEC64 is so in 64-bit mode only. -/
theorem xsavec64OnlyInLongMode : Obligations.Xsavec64OnlyInLongMode := by
  refine ⟨fun cm bs op h => ?_, fun cm low bs hm => ?_, fun op s hm => ?_⟩
  · obtain ⟨hw, -⟩ := wellFormed_of_decode h
    obtain ⟨-, h64⟩ := Instr.wellFormed_iff.mp hw
    exact (h64 rfl).1
  · exact decode_of_decodeBytes (bs := [4#4 ++ low]) (by simp) fun rest => decodeBytes_rexByte hm low rest
  · exact exec_of_not_modeOk fun h => hm (h rfl)

/-- Settles O5: behind the prefixes NP forbids the operand is read whole, in the register form up to ModRM; then the verdict is #UD. -/
theorem undefinedEncodingsRaiseUd : Obligations.UndefinedEncodingsRaiseUd := by
  refine ⟨fun s w op rest hs hn hf ho => ?_, fun s w op rm rest hr hf ho => ?_⟩
  · have hd : decodeBytes (codeMode s) (fetchBytes s) = some (.undefined (operandLength op)) := by
      rw [hf, decodeBytes_encodeOperand w hs, if_pos hn]
    exact step_undefined (decode_fetch hd) ho
  · have hd : decodeBytes (codeMode s) (fetchBytes s) =
        some (.undefined (op.prefixes.length + (encodeRex w op.rex).length + 3)) := by
      rw [hf, decodeBytes_opcode w hr, decodeModrm_registerForm, lengthToModrm_rexLow]
    exact step_undefined (decode_fetch hd) ho

/-- Settles O6: the first 15 bytes of a longer instruction hold none. -/
theorem overlongInstructionRaisesGp : Obligations.OverlongInstructionRaisesGp := by
  intro s i hs _ hl hf ho
  exact step_tooLong (hf ▸ decode_tooLong hs hl) ho

/-- Settles O7: the verdict is the ModRM byte's. -/
theorem otherGroupMembersRefused : Obligations.OtherGroupMembersRefused := by
  intro s w op modrm rest hr hreg hf
  apply step_outOfScope
  rw [hf, decodeBytes_opcode w hr, decodeModrm_otherReg hreg]

/-- Settles O9: the fetch begins with the encoding, which the decoder reads back. -/
theorem stepRunsInstructionAtPc : Obligations.StepRunsInstructionAtPc := by
  intro s i h
  obtain ⟨rest, hf⟩ := fetchBytes_of_codeWellFormed h
  obtain ⟨hw, -, ho, -⟩ := h
  rw [step_instr (hf ▸ decode_encode hw rest), unlessOverwritten_of_false ho]

/-- Settles O32: LOCK is a condition of #UD, the first exception of the default order. -/
theorem lockPrefixRaisesUd : Obligations.LockPrefixRaisesUd := by
  refine ⟨rfl, fun i s h => ?_⟩
  have hud : udCondition s (instrOperand i) = true := udCondition_of_lock h s
  exact ⟨exec_ne_next_of_udCondition hud, fun hm ho => exec_of_udCondition hm ho hud⟩

/-- Settles O51: the scan leaves a REX byte where the opcode should stand. -/
theorem secondRexRefused : Obligations.SecondRexRefused := by
  intro s ps l l' rest hm hs hf
  apply step_outOfScope
  rw [hf]
  exact decodeBytes_twoRex hm hs l l' rest

/-- Settles O58: what is decoded is well-formed, so its form has the mode's address size; and `0F C7 27` encodes such a form. -/
theorem addressSizeByMode : Obligations.AddressSizeByMode := by
  unfold Obligations.AddressSizeByMode
  simp only [← bitsOf_addressSize]
  refine ⟨fun cm bs i h => ?_, fun cm ps rest hr hn hl => ?_⟩
  · obtain ⟨hw, -⟩ := wellFormed_of_decode h
    obtain ⟨hop, -⟩ := Instr.wellFormed_iff.mp hw
    obtain ⟨-, hs, -⟩ := Operand.wellFormed_iff.mp hop
    obtain ⟨-, h16, -⟩ := Operand.shapeOk_iff.mp hs
    refine ⟨by rw [h16, bitsOf_eq_16], ?_⟩
    rintro s rfl
    rw [← addressBits_eq h16]
    rfl
  · rw [← encode_formOf27 cm]
    exact decode_encode (wellFormed_formOf27 hr hn hl) rest

/-- Settles O3: the strings are closed terms, on which the decoder runs. -/
theorem workedEncodingsDecode : Obligations.WorkedEncodingsDecode := by
  unfold Obligations.WorkedEncodingsDecode
  decide

/-- Settles O8: a step looks at the operands recorded, then runs the instruction. -/
theorem stepRunsDecodedInstr : Obligations.StepRunsDecodedInstr := by
  intro s i h
  rw [step_instr h]
  exact ⟨unlessOverwritten_of_false, unlessOverwritten_of_true⟩

/-- Settles O43: 16-bit addresses are the low 16 bits of the sum, row by row. -/
theorem effectiveAddress16 : Obligations.EffectiveAddress16 := by
  intro s ps rex len rm d bx bp si di regs disp
  refine ⟨?_, fun v => ?_⟩
  · have hdisp : (disp16Value d).setWidth 16 = disp := setWidth_disp16Value d
    rw [effectiveAddress_16 rfl, addressSum, BitVec.setWidth_add _ _ (by omega), base16_eq, hdisp]
  · rw [effectiveAddress_16 rfl, addressSum, setWidth_sext (by omega), BitVec.signExtend_eq]

/-- Settles O44: each sum is taken as numbers, modulo the address size. -/
theorem effectiveAddressOfBaseForms : Obligations.EffectiveAddressOfBaseForms := by
  intro s ps rex len base index scale d v n b x scaled disp
  have hn : n ≤ 64 := size3264_le s.mode ps
  have hdisp : dispValue d = disp := by cases d <;> rfl
  have hindex : (indexPart s (rex.any (·.x)) scale index).toNat ≡ scaled [MOD 2 ^ n] := indexPart_modEq hn _ _ _ _
  have hadd (a c : Word) : (a + c).toNat ≡ a.toNat + c.toNat [MOD 2 ^ n] := toNat_add_modEq hn a c
  refine ⟨?_, ?_, ?_, ?_⟩
  · rw [effectiveAddress_3264 rfl, ← hdisp]
    exact hadd _ _
  · rw [effectiveAddress_3264 rfl, ← hdisp]
    exact (hadd _ _).trans (((hadd _ _).trans (hindex.add_left _)).add_right _)
  · rw [effectiveAddress_3264 rfl]
    exact (hadd _ _).trans (hindex.add_left _)
  · rw [effectiveAddress_3264 rfl]
    by_cases hm : s.mode = .bits64
    · have hnext : (s.pc + BitVec.ofNat 64 len).toNat ≡ s.pc.toNat + len [MOD 2 ^ n] := toNat_add_ofNat_modEq hn _ _
      simp only [addressSum, if_pos hm]
      exact (hadd _ _).trans (hnext.add_right _)
    · have h32 : n = 32 := if_neg fun h => hm h.1
      simp only [addressSum, if_neg hm]
      show (sext 64 v).toNat % 2 ^ n = v.toNat
      rw [h32, toNat_sext_mod]

/-- Settles O45: the overrides in stream order decide, by mode; without one the form's base register does. -/
theorem segmentOfOperand : Obligations.SegmentOfOperand := by
  unfold Obligations.SegmentOfOperand
  intro without every
  have hevery {ps : List LegacyPrefix} (h : without every ps) (r : SegReg) : .seg r ∉ ps :=
    h r (by cases r <;> simp [every])
  refine ⟨fun m ps qs r rex form hm h => ?_,
    fun m ps rex base d h => operandSegment_default (hevery h) m,
    fun m ps rex scale index base d h => operandSegment_default (hevery h) m,
    fun m ps rex rm d h => operandSegment_default (hevery h) m,
    fun m ps rex scale index v u h => ⟨operandSegment_default (hevery h) m, operandSegment_default (hevery h) m,
      operandSegment_default (hevery h) m⟩,
    fun ps qs rex form r hr h => operandSegment_fsGs rfl (by simpa [isFsGs] using hr) h,
    fun ps rex form h hss => ?_, fun ps rex form h => ?_⟩
  · rw [operandSegment_of_ne hm, overrides_append_seg, overrides_eq_nil (hevery h), List.getLast?_concat]
    rfl
  · rw [operandSegment_bits64 h, if_pos hss]
  · have hfg : ∀ r ∈ [SegReg.fs, .gs], LegacyPrefix.seg r ∉ ps := fun r hr => h r (List.mem_append_left [SegReg.ss] hr)
    have hss : LegacyPrefix.seg .ss ∉ ps := h .ss (by simp)
    rw [operandSegment_bits64 hfg, if_neg hss, operandSegment_default (by simp)]
    rfl

end Sys2Proof.Proofs
end

section
/-! PROOFS. The XSAVEC family (40_xsavec.md): the masks, which stores are made and what they leave in memory, and the one difference
between the two forms. -/

namespace Sys2Proof.Machine

/-! The masks (40_xsavec.md R82 to R84, R89). -/

theorem extractLsb'_concat32_high (hi lo : BitVec 32) : (concat32 hi lo).extractLsb' 32 32 = hi := by
  ext k hk
  simp [concat32, hk, show 32 + k < 64 by omega]

theorem extractLsb'_concat32_low (hi lo : BitVec 32) : (concat32 hi lo).extractLsb' 0 32 = lo := by
  ext k hk
  simp [concat32, hk, show k < 64 by omega]

/-- The mask is EDX:EAX, the low halves of registers 2 and 0 (R82). -/
theorem instructionMask_eq (s : State) :
    instructionMask s = concat32 ((readGpr s 2).extractLsb' 0 32) ((readGpr s 0).extractLsb' 0 32) := by
  simp only [instructionMask, BitVec.setWidth_eq_extractLsb' (show 32 ≤ 64 by omega)]

theorem getLsbD_rfbm (s : State) (k : Nat) :
    (rfbm s).getLsbD k = (s.xcr0.getLsbD k && (instructionMask s).getLsbD k) := BitVec.getLsbD_and

/-- Bit by bit: what is requested and in use, or the MXCSR exception of component 1 (R84). -/
theorem getLsbD_toBeSaved (s : State) (k : Nat) : (toBeSaved s).getLsbD k =
    ((rfbm s).getLsbD k && (s.xinuse.getLsbD k || (decide (k = 1) && s.mxcsr != 0x1F80))) := by
  have hbit : (2 : BitVec 64).getLsbD k = decide (k = 1) := by
    rw [show (2 : BitVec 64) = BitVec.twoPow 64 1 from rfl, BitVec.getLsbD_twoPow]
    simp [eq_comm]
  unfold toBeSaved
  split
  · rename_i h
    obtain ⟨hm, hr⟩ := h
    rw [BitVec.getLsbD_or, BitVec.getLsbD_and, hbit, bne_iff_ne.mpr hm, Bool.and_true]
    by_cases hk : k = 1
    · subst hk
      rw [hr, Bool.true_and, Bool.true_and]
    · rw [decide_eq_false hk, Bool.or_false, Bool.or_false]
  · rename_i h
    rw [BitVec.getLsbD_and]
    by_cases hk : k = 1
    · subst hk
      cases hr : (rfbm s).getLsbD 1 with
      | false => rw [Bool.false_and, Bool.false_and]
      | true =>
        have hm : s.mxcsr = 0x1F80 := by_contra fun hm => h ⟨hm, hr⟩
        rw [hm, bne_self_eq_false, Bool.and_false, Bool.or_false]
    · rw [decide_eq_false hk, Bool.false_and, Bool.or_false]

theorem getLsbD_toBeSaved_of_ne {s : State} {k : Nat} (hk : k ≠ 1) :
    (toBeSaved s).getLsbD k = ((rfbm s).getLsbD k && s.xinuse.getLsbD k) := by
  simp [getLsbD_toBeSaved, hk]

/-- What is saved was requested. -/
theorem requested_of_toBeSaved {s : State} {k : Nat} (h : (toBeSaved s).getLsbD k = true) : (rfbm s).getLsbD k = true := by
  rw [getLsbD_toBeSaved, Bool.and_eq_true] at h
  exact h.1

theorem getLsbD_xcompBv (s : State) (k : Nat) : (xcompBv s).getLsbD k = ((rfbm s).getLsbD k || decide (k = 63)) := by
  rw [xcompBv, BitVec.getLsbD_or, show (0x8000000000000000 : BitVec 64) = BitVec.twoPow 64 63 from rfl,
    BitVec.getLsbD_twoPow]
  simp [eq_comm]

/-- Nothing requested, nothing saved. -/
theorem toBeSaved_of_rfbm_zero {s : State} (h : rfbm s = 0) : toBeSaved s = 0 := by
  simp [toBeSaved, h]

/-- States that differ in the general registers and have the same RFBM agree on every store and every check (R83). -/
theorem sameChecks_withGpr {s : State} {regs : Vector Word 16} (h : rfbm { s with gpr := regs } = rfbm s) :
    SameChecks s { s with gpr := regs } := by
  refine ⟨⟨h, ?_, ?_, ?_, ?_, ?_, ?_, ?_⟩, ?_, ?_, ?_, ?_, ?_, Iff.rfl⟩ <;> rfl

/-! Which stores are made (40_xsavec.md R84 to R89). -/

/-- A store below the header is one of a saved image. -/
theorem mem_image_of_stores {s : State} {form : Form} {w : Nat × Byte} (h : w ∈ stores s form) (hlt : w.1 < 464) :
    (w ∈ x87Image s form ∧ (toBeSaved s).getLsbD 0 = true) ∨ (w ∈ sseImage s ∧ (toBeSaved s).getLsbD 1 = true) := by
  rcases mem_stores_cases h with hx87 | hsse | hext | hhdr
  · exact .inl hx87
  · exact .inr hsse
  · obtain ⟨sl, hsl, -, hlo, -⟩ := mem_fst_storeExtended hext
    have := mem_slots hsl
    omega
  · have := mem_fst_storeHeader hhdr
    omega

theorem mem_stores_of_x87Image {s : State} {form : Form} {w : Nat × Byte} (hw : w ∈ x87Image s form) :
    w ∈ stores s form ↔ (toBeSaved s).getLsbD 0 = true := by
  refine ⟨fun h => ?_, fun h => by simp [stores, storeX87, h, hw]⟩
  rcases mem_image_of_stores h (x87Image_lt hw) with ⟨-, hb⟩ | ⟨hsse, -⟩
  · exact hb
  · exact absurd rfl (images_disjoint hw hsse)

theorem mem_stores_of_sseImage {s : State} {form : Form} {w : Nat × Byte} (hw : w ∈ sseImage s) :
    w ∈ stores s form ↔ (toBeSaved s).getLsbD 1 = true := by
  refine ⟨fun h => ?_, fun h => by simp [stores, storeSse, h, hw]⟩
  rcases mem_image_of_stores h (sseImage_lt hw) with ⟨hx87, -⟩ | ⟨-, hb⟩
  · exact absurd rfl (images_disjoint hx87 hw)
  · exact hb

/-- The bytes of a component's slot lie in the slot. -/
theorem offset_of_mem_slot {s : State} {sl : Slot} {w : Nat × Byte} (hw : w ∈ placeAt sl.offset (compImage s sl.comp)) :
    sl.offset ≤ w.1 ∧ w.1 < sl.offset + compSize s.params sl.comp := by
  have := List.mem_map_of_mem (f := Prod.fst) hw
  rwa [fst_placeAt, length_compImage, List.mem_range'_1] at this

theorem mem_stores_of_slot {s : State} {form : Form} {sl : Slot} (hsl : sl ∈ slots s) {w : Nat × Byte}
    (hw : w ∈ placeAt sl.offset (compImage s sl.comp)) : w ∈ stores s form ↔ (toBeSaved s).getLsbD sl.comp = true := by
  refine ⟨fun h => ?_, fun h => ?_⟩
  · have hin := offset_of_mem_slot hw
    have hge := mem_slots hsl
    rcases mem_stores_cases h with ⟨hx87, -⟩ | ⟨hsse, -⟩ | hext | hhdr
    · have := x87Image_lt hx87
      omega
    · have := sseImage_lt hsse
      omega
    · obtain ⟨sl', hsl', hb, hin'⟩ := mem_fst_storeExtended hext
      rwa [slot_unique hsl hsl' hin hin']
    · have := mem_fst_storeHeader hhdr
      omega
  · have hext : w ∈ storeExtended s := List.mem_flatMap.mpr ⟨sl, hsl, by rwa [storeSlot, if_pos h]⟩
    simp [stores, hext]

/-- Bytes that are stored exactly when a bit is 1: with one byte at least, the bit is 1 exactly when one of them is stored. -/
theorem bit_iff_exists_stored {l ws : List (Nat × Byte)} {b : Bool} (hne : l ≠ []) (h : ∀ w ∈ l, (w ∈ ws ↔ b = true)) :
    b = true ↔ ∃ w ∈ l, w ∈ ws := by
  refine ⟨fun hb => ?_, fun ⟨w, hw, hs⟩ => (h w hw).mp hs⟩
  obtain ⟨w, hw⟩ := List.exists_mem_of_ne_nil l hne
  exact ⟨w, hw, (h w hw).mpr hb⟩

/-- SSEImage always has the bytes of MXCSR (20_memory.md R46 law 4). -/
theorem sseImage_ne_nil (s : State) : sseImage s ≠ [] :=
  List.ne_nil_of_mem (mxcsr_in_sseImage s (mem_placeAt_bytesLE (j := 0) (by omega)))

theorem placeAt_ne_nil {off : Nat} {bs : List Byte} (h : 0 < bs.length) : placeAt off bs ≠ [] :=
  List.ne_nil_of_length_pos (by rwa [length_placeAt])

/-- Component k of the extended region is saved exactly when a byte of its slot is stored. -/
theorem saved_iff_exists_slot_stored {s : State} {form : Form} {k : Nat} (hk : k ∈ componentIds)
    (hpos : 0 < compSize s.params k) : (toBeSaved s).getLsbD k = true ↔
      ∃ sl ∈ slots s, sl.comp = k ∧ ∃ w ∈ placeAt sl.offset (compImage s k), w ∈ stores s form := by
  have hslot {sl : Slot} (hsl : sl ∈ slots s) (hc : sl.comp = k) : (toBeSaved s).getLsbD k = true ↔
      ∃ w ∈ placeAt sl.offset (compImage s k), w ∈ stores s form := by
    subst hc
    exact bit_iff_exists_stored (placeAt_ne_nil (by rwa [length_compImage])) fun w hw => mem_stores_of_slot hsl hw
  constructor
  · intro hb
    obtain ⟨sl, hsl, hc⟩ := (requested_iff_slot hk).mp (requested_of_toBeSaved hb)
    exact ⟨sl, hsl, hc, (hslot hsl hc).mp hb⟩
  · rintro ⟨sl, hsl, hc, hw⟩
    exact (hslot hsl hc).mpr hw

/-! What memory holds after a completion. -/

/-- A stored field at least as wide as its value reads back as the value. -/
theorem readAt_field {w : Nat} {i : Instr} {s t : State} (h : exec i s = .next t) {off n : Nat} {v : BitVec w}
    (hn : w ≤ 8 * n) (hsub : ∀ u ∈ placeAt off (bytesLE n v), u ∈ stores s (instrForm i)) :
    readAt t.mem (byteAddress s (targetOf i s)) off n = some v.toNat := by
  rw [readAt_stored h hsub, Nat.mod_eq_of_lt (Nat.lt_of_lt_of_le v.isLt (Nat.pow_le_pow_right (by omega) hn))]

/-- XSTATE_BV is TO_BE_SAVED (R88). -/
theorem readAt_xstateBv {i : Instr} {s t : State} (h : exec i s = .next t) :
    readAt t.mem (byteAddress s (targetOf i s)) 512 8 = some (toBeSaved s).toNat :=
  readAt_field h (by omega) fun u hu => by simp [stores, storeHeader, hu]

/-- XCOMP_BV is RFBM with bit 63 set (R89). -/
theorem readAt_xcompBv {i : Instr} {s t : State} (h : exec i s = .next t) :
    readAt t.mem (byteAddress s (targetOf i s)) 520 8 = some (xcompBv s).toNat :=
  readAt_field h (by omega) fun u hu => by simp [stores, storeHeader, hu]

/-- A byte no store names reads as before, when the policy `any` leaves it alone too (R90). -/
theorem read_outside_of_next {i : Instr} {s t : State} (h : exec i s = .next t) {a : Nat}
    (hw : ∀ w ∈ stores s (instrForm i), a ≠ byteAddress s (targetOf i s) w.1)
    (hu : s.params.unsavedSlot = .unchanged ∨
      ∀ k ∈ unsavedOffsets s (instrForm i), a ≠ byteAddress s (targetOf i s) k) :
    Memory.read t.mem a = Memory.read s.mem a := by
  obtain ⟨-, -, -, -, rfl⟩ := exec_next h
  refine read_storeAll_outside fun w hmem => ?_
  rcases List.mem_append.mp hmem with hmem | hmem
  · exact hw w hmem
  · obtain ⟨hany, hoff, -⟩ := mem_unsavedBytes hmem
    rcases hu with hun | hne
    · cases hun.symm.trans hany
    · exact hne w.1 hoff

/-! The empty request (40_xsavec.md R96 item 1). -/

theorem slots_of_rfbm_zero {s : State} (h : rfbm s = 0) : slots s = [] := by
  refine List.eq_nil_iff_forall_not_mem.mpr fun sl hsl => ?_
  obtain ⟨-, hreq, -⟩ := mem_slots hsl
  simp [h] at hreq

theorem areaSize_of_rfbm_zero {s : State} (h : rfbm s = 0) : areaSize s = 576 := by
  have hend : areaSize s = endAfter s.params 576 (slots s) := endFrom_eq_endAfter _ _ _ _
  rw [hend, slots_of_rfbm_zero h, endAfter_nil]

theorem fst_stores_of_rfbm_zero {s : State} (h : rfbm s = 0) {form : Form} {w : Nat × Byte} (hw : w ∈ stores s form) :
    512 ≤ w.1 ∧ w.1 ≤ 527 := by
  simpa [toBeSaved_of_rfbm_zero h] using mem_fst_stores.mp (List.mem_map_of_mem (f := Prod.fst) hw)

/-! The x87 state in the default image (20_memory.md R46, log 14). -/

theorem mem_standardX87 {s : State} {form : Form} {w : Nat × Byte} : w ∈ standardX87 s form ↔
    w ∈ placeAt 0 (bytesLE 2 s.x87.fcw) ∨ w ∈ placeAt 2 (bytesLE 2 s.x87.fsw) ∨ w = (4, abridgedTags s.x87.tags) ∨
    w = reserved s 5 ∨ w ∈ fopImage s ∨ w ∈ pointerImage s form ∨ ∃ k < 8, w ∈ stImage s k := by
  simp [standardX87]

/-- A two-bit tag is 11 exactly when both its bits are 1. -/
theorem tagUsed_eq (tags : BitVec 16) (j : Nat) : tagUsed tags j = !(tags.getLsbD (2 * j) && tags.getLsbD (2 * j + 1)) := by
  have htwo : ∀ v : BitVec 2, (v != 3) = !(v.getLsbD 0 && v.getLsbD 1) := by decide
  rw [tagUsed, htwo]
  simp

theorem getLsbD_setBit (b : Bool) (v : Byte) (n : Nat) {j : Nat} (hj : j < 8) :
    (if b then v ||| (1#8 <<< n) else v).getLsbD j = (v.getLsbD j || (decide (j = n) && b)) := by
  have hbit : (1#8 <<< n).getLsbD j = decide (j = n) := by
    rw [show 1#8 <<< n = BitVec.twoPow 8 n from rfl, BitVec.getLsbD_twoPow]
    by_cases hjn : j = n
    · simp [← hjn, hj]
    · simp [hjn, Ne.symm hjn]
  cases b <;> simp [hbit]

/-- Setting one bit after the other by a test: bit j of the byte is the test of j. -/
theorem getLsbD_foldl_setBit (p : Nat → Bool) (n : Nat) {j : Nat} (hj : j < 8) :
    ((List.range n).foldl (fun v j => if p j then v ||| (1#8 <<< j) else v) 0).getLsbD j = (decide (j < n) && p j) := by
  induction n with
  | zero => simp
  | succ n ih =>
    rw [List.range_succ, List.foldl_append, List.foldl_cons, List.foldl_nil, getLsbD_setBit _ _ _ hj, ih]
    by_cases hjn : j = n
    · simp [hjn]
    · simp [hjn, show j < n + 1 ↔ j < n by omega]

/-- Bit j of the abridged tag word is 0 exactly when the tag of register j is 11. -/
theorem getLsbD_abridgedTags (tags : BitVec 16) {j : Nat} (hj : j < 8) :
    (abridgedTags tags).getLsbD j = !(tags.getLsbD (2 * j) && tags.getLsbD (2 * j + 1)) := by
  rw [abridgedTags, getLsbD_foldl_setBit (tagUsed tags) 8 hj, tagUsed_eq]
  simp [hj]

/-- The low part of an appended word is the second word. -/
theorem toNat_append_mod {v w : Nat} (x : BitVec v) (y : BitVec w) : (x ++ y).toNat % 2 ^ w = y.toNat := by
  rw [← BitVec.toNat_setWidth, BitVec.setWidth_append_eq_right]

/-! Packing without ALIGN64 (20_memory.md R47). -/

/-- The bytes a component takes in the compacted layout without ALIGN64: its size when it is requested. -/
def packedSize (p : Params) (mask : BitVec 64) (j : Nat) : Nat := if mask.getLsbD j then compSize p j else 0

theorem slotOffset_of_not_aligned {p : Params} (h : p.align64 = Vector.replicate 61 false) (i off : Nat) :
    slotOffset p i off = off := by
  rw [slotOffset_eq, if_neg]
  rw [h, Vector.getElem?_replicate]
  split <;> simp

/-- Without ALIGN64 a slot stands after the sizes of the requested components below it. -/
theorem offset_of_packed {p : Params} (h : p.align64 = Vector.replicate 61 false) {mask : BitVec 64} {a n off : Nat} {sl : Slot}
    (hsl : sl ∈ slotsFrom p mask (List.range' a n) off) :
    sl.offset = off + ((List.range' a (sl.comp - a)).map (packedSize p mask)).sum := by
  induction n generalizing a off with
  | zero => simp [slotsFrom] at hsl
  | succ n ih =>
    rw [List.range'_succ] at hsl
    have htail {off' : Nat} (hmem : sl ∈ slotsFrom p mask (List.range' (a + 1) n) off')
        (hoff : off' = off + packedSize p mask a) :
        sl.offset = off + ((List.range' a (sl.comp - a)).map (packedSize p mask)).sum := by
      obtain ⟨hc, -⟩ := mem_slotsFrom hmem
      rw [List.mem_range'_1] at hc
      rw [ih hmem, hoff, show sl.comp - a = (sl.comp - (a + 1)) + 1 by omega, List.range'_succ, List.map_cons,
        List.sum_cons, Nat.add_assoc]
    unfold slotsFrom at hsl
    split at hsl
    · rename_i ha
      rcases List.mem_cons.mp hsl with rfl | hsl
      · simp [slotOffset_of_not_aligned h]
      · exact htail hsl (by rw [slotOffset_of_not_aligned h, packedSize, if_pos ha])
    · rename_i ha
      exact htail hsl (by rw [packedSize, if_neg ha, Nat.add_zero])

/-- Without ALIGN64 the area ends after the sizes of the requested components. -/
theorem endFrom_of_packed {p : Params} (h : p.align64 = Vector.replicate 61 false) (mask : BitVec 64) (is : List Nat) (off : Nat) :
    endFrom p mask is off = off + (is.map (packedSize p mask)).sum := by
  induction is generalizing off with
  | nil => rfl
  | cons i is ih =>
    rw [List.map_cons, List.sum_cons, packedSize, endFrom]
    split
    · rw [ih, slotOffset_of_not_aligned h, Nat.add_assoc]
    · rw [ih, Nat.zero_add]

theorem mem_placeAt_compImage {s : State} {k off j : Nat} (hj : j < compSize s.params k) :
    (off + j, ((s.comps[k - 2]?.getD [])[j]?).getD 0) ∈ placeAt off (compImage s k) :=
  mem_placeAt.mpr ⟨j, by simp [compImage, hj], rfl⟩

/-! The two forms (40_xsavec.md R94). -/

/-- Both forms write the same offsets. -/
theorem fst_stores_form (s : State) (form form' : Form) :
    (stores s form).map Prod.fst = (stores s form').map Prod.fst := by
  have hx : (storeX87 s form).map Prod.fst = (storeX87 s form').map Prod.fst := by
    unfold storeX87
    split
    · exact fst_x87Image_form s form form'
    · rfl
  simp only [stores, List.map_append, hx]

/-- A check that looks at the offsets written does not depend on the form. -/
theorem any_stores_form (s : State) (form form' : Form) (p : Nat → Bool) :
    (stores s form).any (fun w => p w.1) = (stores s form').any (fun w => p w.1) := by
  have hany (f : Form) : (stores s f).any (fun w => p w.1) = ((stores s f).map Prod.fst).any p := List.any_map.symm
  rw [hany, hany, fst_stores_form s form form']

theorem reported_form (s : State) (form form' : Form) (op : Operand) (t : Target) :
    reported s form op t = reported s form' op t := by
  have hcheck : check s form op t = check s form' op t := by
    funext c
    cases c with
    | ud => rfl
    | nm => rfl
    | extent => simp only [check, extentCheck, any_stores_form s form form' (fun k => !extentOk s t k)]
    | alignment => rfl
    | page => simp only [check, pageCheck, any_stores_form s form form' (pageBad s t)]
  rw [reported, reported, hcheck]

theorem unsavedBytes_form (s : State) (form form' : Form) (t : Target) :
    unsavedBytes s form t = unsavedBytes s form' t := by
  simp only [unsavedBytes, unsavedOffsets, fst_x87Image_form s form form']

/-- The stores in which the forms can differ: the default image's pointers, or the whole of another x87 image. -/
def formStores (s : State) (form : Form) : List (Nat × Byte) :=
  if (toBeSaved s).getLsbD 0 then
    if s.params.images = .standard then pointerImage s form else x87Image s form
  else []

/-- Around them both forms make the same stores. -/
theorem stores_around_formStores (s : State) : ∃ l r, ∀ form, stores s form = l ++ formStores s form ++ r := by
  unfold formStores stores storeX87
  split
  · split
    · rename_i hstd
      refine ⟨placeAt 0 (bytesLE 2 s.x87.fcw) ++ placeAt 2 (bytesLE 2 s.x87.fsw) ++
        [(4, abridgedTags s.x87.tags), reserved s 5] ++ fopImage s,
        (List.range 8).flatMap (stImage s) ++ storeSse s ++ storeExtended s ++ storeHeader s, fun form => ?_⟩
      simp [x87Image_standard hstd, standardX87]
    · exact ⟨[], storeSse s ++ storeExtended s ++ storeHeader s, fun form => by simp⟩
  · exact ⟨[], storeSse s ++ storeExtended s ++ storeHeader s, fun form => by simp⟩

/-- An address at which the forms cannot differ: none of the default image's pointers, or of another x87 image (R94). -/
def OffPointers (s : State) (t : Target) (a : Nat) : Prop :=
  (s.params.images = .standard → ∀ k, 8 ≤ k → k ≤ 23 → a ≠ byteAddress s t k) ∧
  (s.params.images ≠ .standard → ∀ w ∈ x87Image s .xsavec, a ≠ byteAddress s t w.1)

theorem ne_of_mem_formStores {s : State} {t : Target} {a : Nat} (ha : OffPointers s t a) {form : Form} {w : Nat × Byte}
    (hw : w ∈ formStores s form) : a ≠ byteAddress s t w.1 := by
  obtain ⟨hstd, hother⟩ := ha
  unfold formStores at hw
  split at hw
  · split at hw
    · rename_i himg
      have hoff := List.mem_map_of_mem (f := Prod.fst) hw
      rw [fst_pointerImage, List.mem_range'_1] at hoff
      exact hstd himg w.1 (by omega) (by omega)
    · rename_i himg
      have hoff := List.mem_map_of_mem (f := Prod.fst) hw
      rw [fst_x87Image_form s form .xsavec] at hoff
      obtain ⟨v, hv, he⟩ := List.mem_map.mp hoff
      exact he ▸ hother himg v hv
  · cases hw

/-- What a list of stores leaves at an address depends on memory at that address only. -/
theorem read_storeAll_congr {m m' : Memory} {a : Nat} (h : Memory.read m a = Memory.read m' a) (addr : Nat → Nat)
    (ws : List (Nat × Byte)) : Memory.read (storeAll m addr ws) a = Memory.read (storeAll m' addr ws) a := by
  rcases read_storeAll_two m m' addr ws a with ⟨h1, h2⟩ | h'
  · rw [h1, h2, h]
  · exact h'

/-- Stores to other addresses can be left out. -/
theorem read_storeAll_skip {m : Memory} {addr : Nat → Nat} {l x r : List (Nat × Byte)} {a : Nat}
    (h : ∀ w ∈ x, a ≠ addr w.1) :
    Memory.read (storeAll m addr (l ++ x ++ r)) a = Memory.read (storeAll m addr (l ++ r)) a := by
  rw [storeAll_append, storeAll_append, storeAll_append]
  exact read_storeAll_congr (read_storeAll_outside h) addr r

/-- Off the pointers the forms' stores, all or some of them by their offsets, leave the same byte, whatever is stored after them. -/
theorem read_stores_form {s : State} {t : Target} {a : Nat} (ha : OffPointers s t a) (form form' : Form) (p : Nat → Bool)
    (m : Memory) (ws : List (Nat × Byte)) :
    Memory.read (storeAll m (byteAddress s t) ((stores s form).filter (fun w => p w.1) ++ ws)) a =
      Memory.read (storeAll m (byteAddress s t) ((stores s form').filter (fun w => p w.1) ++ ws)) a := by
  obtain ⟨l, r, hlr⟩ := stores_around_formStores s
  have hskip (f : Form) := read_storeAll_skip (m := m) (l := l.filter (fun w => p w.1)) (r := r.filter (fun w => p w.1) ++ ws)
    (x := (formStores s f).filter (fun w => p w.1)) fun w hw => ne_of_mem_formStores ha (List.mem_filter.mp hw).1
  simp only [hlr, List.filter_append, List.append_assoc] at hskip ⊢
  rw [hskip, hskip]

theorem read_completed_form {s : State} {t : Target} {a : Nat} (ha : OffPointers s t a) (form form' : Form) (len : Nat) :
    Memory.read (completed s form t len).mem a = Memory.read (completed s form' t len).mem a := by
  rw [completed_mem, completed_mem, unsavedBytes_form s form form']
  simpa using read_stores_form ha form form' (fun _ => true) s.mem (unsavedBytes s form' t)

theorem read_faultState_form {s : State} {t : Target} {a : Nat} (ha : OffPointers s t a) (form form' : Form) (r : Raised) :
    Memory.read (faultState s form t r).mem a = Memory.read (faultState s form' t r).mem a := by
  rw [faultState_mem, faultState_mem]
  split
  · rfl
  · simpa using read_stores_form ha form form' (storedAtFault s t) s.mem []

/-- But for memory the forms fault in the same state. -/
theorem faultState_form (s : State) (form form' : Form) (t : Target) (r : Raised) :
    faultState s form t r = { faultState s form' t r with mem := (faultState s form t r).mem } := by
  cases h : r.record <;> simp only [faultState, h]

theorem reported_xsavec64 (op : Operand) (s : State) :
    reported s .xsavec64 op (targetOf (.xsavec64 op) s) = reported s .xsavec op (targetOf (.xsavec op) s) :=
  reported_form s _ _ _ _

theorem modeOk_xsavec (op : Operand) (s : State) : ModeOk (.xsavec op) s := nofun

/-- In 64-bit mode XSAVEC64 completes where XSAVEC does. -/
theorem exec_xsavec64_next {op : Operand} {s t : State} (hm : s.mode = .bits64) (h : exec (.xsavec op) s = .next t) :
    exec (.xsavec64 op) s =
      .next (completed s .xsavec64 (targetOf (.xsavec op) s) (instrLength (.xsavec op))) := by
  obtain ⟨-, hr, hq, hp, -⟩ := exec_next h
  exact exec_of_clear (i := .xsavec64 op) (fun _ => hm) ((reported_xsavec64 op s).trans hr) hq hp

/-- In 64-bit mode XSAVEC64 faults where XSAVEC does, with the same exception. -/
theorem exec_xsavec64_exception {op : Operand} {s t : State} {x : Exception} {code : Option ErrorCode} (hm : s.mode = .bits64)
    (h : exec (.xsavec op) s = .fault (.exception x code t)) :
    ∃ r, t = faultState s .xsavec (targetOf (.xsavec op) s) r ∧
      exec (.xsavec64 op) s = .fault (.exception x code (faultState s .xsavec64 (targetOf (.xsavec op) s) r)) := by
  obtain ⟨-, r, hr, hf, hq⟩ := exec_fault h
  obtain ⟨rfl, rfl, rfl⟩ := Fault.exception.inj hf
  have hr' := (reported_xsavec64 op s).trans hr
  exact ⟨r, rfl, (exec_of_reported_some (i := .xsavec64 op) (fun _ => hm) hr').trans (raise_of_not_refused hq)⟩

/-- In 64-bit mode XSAVEC64 is refused where XSAVEC is, for the same reason. -/
theorem exec_xsavec64_refused {op : Operand} {s : State} {q : Refusal} (hm : s.mode = .bits64)
    (h : exec (.xsavec op) s = .refused q) : exec (.xsavec64 op) s = .refused q := by
  have hm64 : ModeOk (.xsavec64 op) s := fun _ => hm
  cases hr : reported s .xsavec op (targetOf (.xsavec op) s) with
  | none =>
    rw [exec_of_reported_none (modeOk_xsavec op s) hr, complete_eq_refused] at h
    rw [exec_of_reported_none hm64 ((reported_xsavec64 op s).trans hr), complete_eq_refused]
    exact h
  | some r =>
    rw [exec_of_reported_some (modeOk_xsavec op s) hr, raise_eq_refused] at h
    rw [exec_of_reported_some hm64 ((reported_xsavec64 op s).trans hr), raise_eq_refused]
    exact h

end Sys2Proof.Machine

/-! The statements of the family. -/

namespace Sys2Proof.Proofs

open Machine

/-- Settles O11: under the launch premises nothing is reported or refused, and `completed` is that next state. -/
theorem xsavecCompletes : Obligations.XsavecCompletes := fun _ _ h => exec_of_launch h

/-- Settles O12: the launch premises hold XSAVEC64 to 64-bit mode, where it completes as XSAVEC does. -/
theorem xsavec64Completes : Obligations.Xsavec64Completes := fun _ _ h => exec_of_launch h

/-- Settles O14: RFBM is an AND, and the stores and checks look at the general registers through RFBM only. -/
theorem maskActsOnlyThroughRfbm : Obligations.MaskActsOnlyThroughRfbm := by
  refine ⟨getLsbD_rfbm, fun i s regs hrfbm htarget => ?_⟩
  have same := sameChecks_withGpr hrfbm
  rw [htarget]
  exact ⟨same.reported _ _ _, same.stores _, same.areaSize⟩

/-- Settles O15: TO_BE_SAVED bit by bit, and which parts of the stores each bit guards. -/
theorem toBeSavedBits : Obligations.ToBeSavedBits := by
  intro s
  refine ⟨fun k hk => getLsbD_toBeSaved_of_ne hk, ?_, fun form w => mem_stores_of_x87Image, fun form w => mem_stores_of_sseImage,
    fun form sl hsl w => mem_stores_of_slot hsl⟩
  rw [getLsbD_toBeSaved, decide_eq_true rfl, Bool.true_and]

/-- Settles O16: the header's first field, and that each bit guards the bytes of its component. -/
theorem xstateBvIsToBeSaved : Obligations.XstateBvIsToBeSaved := by
  intro i s t h
  refine ⟨readAt_xstateBv h, fun k hk => ?_, fun hne => bit_iff_exists_stored hne fun w => mem_stores_of_x87Image,
    bit_iff_exists_stored (sseImage_ne_nil s) fun w => mem_stores_of_sseImage, fun k => saved_iff_exists_slot_stored⟩
  rw [getLsbD_toBeSaved, hk, Bool.false_and]

/-- Settles O17: the header's second field, bit by bit, and the slots its bits speak of. -/
theorem xcompBvIsRfbmWithBit63 : Obligations.XcompBvIsRfbmWithBit63 := by
  intro i s t h
  have hbit (k : Nat) : (rfbm s ||| 0x8000000000000000).getLsbD k = ((rfbm s).getLsbD k || decide (k = 63)) :=
    getLsbD_xcompBv s k
  refine ⟨readAt_xcompBv h, ?_, fun k hk => ?_, fun k => requested_iff_slot, fun sl hsl w => mem_stores_of_slot hsl⟩
  · rw [hbit, decide_eq_true rfl, Bool.or_true]
  · rw [hbit, decide_eq_false (by omega), Bool.or_false]

/-- Settles O19: each field of the default x87 image is stored, and reads back. -/
theorem x87StateIsStored : Obligations.X87StateIsStored := by
  intro i s t h hb hstd addr
  have hst {w : Nat × Byte} (hw : w ∈ standardX87 s (instrForm i)) : w ∈ stores s (instrForm i) :=
    (mem_stores_of_x87Image (by rwa [x87Image_standard hstd])).mpr hb
  simp only [mem_standardX87] at hst
  have hfop {u : Nat × Byte} (hu : u ∈ fopImage s) : u ∈ stores s (instrForm i) := hst (by tauto)
  have hptr {w off n : Nat} {v : BitVec w} (hn : w ≤ 8 * n)
      (hsub : ∀ u ∈ placeAt off (bytesLE n v), u ∈ pointerImage s (instrForm i)) :
      readAt t.mem addr off n = some v.toNat := readAt_field h hn fun u hu => hst (by have := hsub u hu; tauto)
  refine ⟨?_, ?_, ?_, fun j => getLsbD_abridgedTags _, ?_, fun k hk => ?_, fun hf => ?_, fun hf => ?_⟩
  · exact readAt_field h (by omega) fun u hu => hst (.inl hu)
  · exact readAt_field h (by omega) fun u hu => hst (.inr (.inl hu))
  · exact read_stored h (hst (.inr (.inr (.inl rfl))))
  · exact ⟨_, readAt_field h (by omega) (fun u hu => hfop hu), toNat_append_mod _ s.x87.fop⟩
  · refine readAt_field h (by omega) fun u hu => ?_
    have hmem : u ∈ stImage s k := by simp [stImage, hk, hu]
    exact hst (.inr (.inr (.inr (.inr (.inr (.inr ⟨k, hk, hmem⟩))))))
  · simp only [hf, pointerImage, List.mem_append] at hptr
    exact ⟨hptr (by omega) fun u => .inl, hptr (by omega) fun u => .inr⟩
  · simp only [hf, pointerImage, List.mem_append] at hptr
    rw [← BitVec.toNat_setWidth, ← BitVec.toNat_setWidth]
    exact ⟨hptr (by omega) fun u hu => .inl (.inl (.inl hu)), hptr (by omega) fun u hu => .inl (.inl (.inr hu)),
      hptr (by omega) fun u hu => .inr (.inl (.inl hu)), hptr (by omega) fun u hu => .inr (.inl (.inr hu))⟩

/-- Settles O20: SSEImage has both fields, and in the default images the XMM registers. -/
theorem sseStateIsStored : Obligations.SseStateIsStored := by
  intro i s t h hb addr
  have hst {w : Nat × Byte} (hw : w ∈ sseImage s) : w ∈ stores s (instrForm i) := (mem_stores_of_sseImage hw).mpr hb
  refine ⟨?_, ?_, fun hstd => ⟨?_, ?_, fun k hk hx => ?_⟩, by simp [xmmCount]⟩
  · exact readAt_field h (by omega) fun u hu => hst (mxcsr_in_sseImage s hu)
  · exact readAt_field h (by omega) fun u hu => hst (mask_in_sseImage s hu)
  · simp [mxcsrOffset, otherImages_standard hstd]
  · simp [maskOffset, otherImages_standard hstd]
  · refine readAt_field h (by omega) fun u hu => hst ?_
    rw [sseImage_standard hstd]
    refine List.mem_append_right _ (List.mem_flatMap.mpr ⟨k, List.mem_range.mpr hx, ?_⟩)
    simpa [hk] using hu

/-- Settles O21: without ALIGN64 the running offset is 576 plus the sizes of the requested components so far. -/
theorem componentsAreCompacted : Obligations.ComponentsAreCompacted := by
  intro i s t h hal off
  have hoff {sl : Slot} (hsl : sl ∈ slots s) : sl.offset = off sl.comp := offset_of_packed hal hsl
  refine ⟨fun k hk hreq hb j hj => ?_, fun sl => hoff, endFrom_of_packed hal _ _ _⟩
  obtain ⟨sl, hsl, rfl⟩ := (requested_iff_slot hk).mp hreq
  rw [← hoff hsl]
  exact read_stored h ((mem_stores_of_slot hsl (mem_placeAt_compImage hj)).mpr hb)

/-- Settles O24: every store reads back, and nothing else is written but the free bytes of the policy `any`. -/
theorem memoryFrame : Obligations.MemoryFrame := fun _ _ _ h =>
  ⟨fun _ => read_stored h, fun _ => read_outside_of_next h, fun _ => mem_unsavedOffsets.mp⟩

/-- Settles O26: with RFBM = 0 there is no slot and nothing is saved, so the header is the one part stored. -/
theorem emptyRequestWritesHeaderOnly : Obligations.EmptyRequestWritesHeaderOnly := by
  intro i s t h hr hu
  have hbv := readAt_xstateBv h
  have hcomp := readAt_xcompBv h
  rw [toBeSaved_of_rfbm_zero hr] at hbv
  rw [xcompBv, hr] at hcomp
  refine ⟨areaSize_of_rfbm_zero hr, hbv, hcomp, fun a ha => ?_⟩
  refine read_outside_of_next h (fun w hw => ?_) (.inl hu)
  obtain ⟨hlo, hhi⟩ := fst_stores_of_rfbm_zero hr hw
  exact ha w.1 hlo hhi

/-- Settles O27: the form has a part in the bytes of the x87 image only, not in its offsets, and so in no check. -/
theorem formsDifferOnlyInX87Pointers : Obligations.FormsDifferOnlyInX87Pointers := by
  intro op s hm same
  refine ⟨fst_x87Image_form s _ _, fun t h => ?_, fun x code t h => ?_, fun q => exec_xsavec64_refused hm⟩
  · have hu := exec_xsavec64_next hm h
    obtain ⟨-, -, -, -, rfl⟩ := exec_next h
    exact ⟨_, hu, rfl, fun a hstd hother => read_completed_form ⟨hstd, hother⟩ _ _ _⟩
  · obtain ⟨r, rfl, hu⟩ := exec_xsavec64_exception hm h
    exact ⟨_, hu, faultState_form s _ _ _ r, fun a hstd hother => read_faultState_form ⟨hstd, hother⟩ _ _ r⟩

/-- Settles O13: the two halves of the mask are read back, and it is made of nothing else. -/
theorem instructionMaskIsEdxEax : Obligations.InstructionMaskIsEdxEax := by
  refine ⟨fun s => ?_, fun s s' hd ha => ?_⟩
  · rw [instructionMask_eq]
    exact ⟨extractLsb'_concat32_high _ _, extractLsb'_concat32_low _ _⟩
  · rw [instructionMask_eq, instructionMask_eq, hd, ha]

/-- Settles O18: the bits of TO_BE_SAVED, of RFBM and of XCOMP_BV. -/
theorem xstateBvIsSubsetOfXcompBv : Obligations.XstateBvIsSubsetOfXcompBv := by
  intro s k h
  have hreq := requested_of_toBeSaved h
  obtain ⟨hx, hm⟩ : s.xcr0.getLsbD k = true ∧ (instructionMask s).getLsbD k = true := by
    rwa [getLsbD_rfbm, Bool.and_eq_true] at hreq
  rw [getLsbD_toBeSaved] at h
  exact ⟨by rw [getLsbD_xcompBv, hreq, Bool.true_or], hx, hm, by simpa [hreq] using h⟩

end Sys2Proof.Proofs
end

section
/-! PROOFS. The exceptions family (60_exceptions.md): which exception the default order reports, what a fault says of the state and
leaves in memory, and that the CPL has a part in #AC alone. -/

namespace Sys2Proof.Machine

/-! The conditions of #UD and #NM (60_exceptions.md R111, R112). -/

theorem udCondition_iff {s : State} {op : Operand} : udCondition s op = true ↔
    s.params.cpuidXsave = false ∨ s.params.cpuidXsavec = false ∨ s.cr4.getLsbD 18 = false ∨
      LegacyPrefix.lock ∈ op.prefixes := by
  simp only [udCondition, crOsxsave, hasLock, Bool.or_eq_true, Bool.not_eq_true', List.contains_iff_mem]
  tauto

theorem check_ud_eq_some {s : State} {form : Form} {op : Operand} {t : Target} {r : Raised}
    (h : check s form op t .ud = some r) : udCondition s op = true ∧ r = ⟨.ud, none, none⟩ := by
  rw [check_ud, Option.ite_none_right_eq_some, Option.some_inj] at h
  exact h.imp_right Eq.symm

theorem check_nm_eq_some {s : State} {form : Form} {op : Operand} {t : Target} {r : Raised}
    (h : check s form op t .nm = some r) : crTs s = true ∧ r = ⟨.nm, none, none⟩ := by
  rw [check_nm, Option.ite_none_right_eq_some, Option.some_inj] at h
  exact h.imp_right Eq.symm

/-- With CR0.TS = 1 nothing completes, whatever the order of exceptions is. -/
theorem exec_ne_next_of_crTs {i : Instr} {s : State} (h : crTs s = true) (t : State) : exec i s ≠ .next t := by
  intro ht
  obtain ⟨-, hr, -⟩ := exec_next ht
  have hnm := reported_eq_none.mp hr .nm
  simp [check_nm, h] at hnm

/-- In the default order #NM is next to #UD. -/
theorem exec_of_crTs {i : Instr} {s : State} (hm : ModeOk i s) (ho : DefaultOrder s)
    (hud : udCondition s (instrOperand i) = false) (h : crTs s = true) :
    exec i s = .fault (.exception .nm none (tick s)) := by
  refine exec_of_reported (r := ⟨.nm, none, none⟩) hm ?_ rfl
  simp [reported_default ho, check_ud, check_nm, hud, h]

/-- Where neither #UD nor #NM applies, the default order is extent, alignment, page fault (60_exceptions.md R122). -/
theorem reported_of_enabled {i : Instr} {s : State} (ho : DefaultOrder s) (he : Enabled s) (hl : NoLock i) (form : Form)
    (t : Target) : reported s form (instrOperand i) t =
      (extentCheck s form t).or ((alignmentCheck s t).or (pageCheck s form t)) := by
  have ⟨_, _, _, hts⟩ := he
  rw [reported_default ho, check_ud, check_nm, udCondition_eq_false he hl, hts]
  rfl

/-! The extent check (60_exceptions.md R113, R115, R117, R119). -/

theorem extentOk_real {s : State} {t : Target} {k : Nat} (hm : s.mode = .realAddress) :
    extentOk s t k = decide (t.ea + k ≤ 0xFFFF) := by simp [extentOk, hm]

theorem extentOk_bits64 {s : State} {t : Target} {k : Nat} (hm : s.mode = .bits64) :
    extentOk s t k = canonical s.params.canonForm (byteAddress s t k) := by simp [extentOk, hm]

theorem extentOk_segment {s : State} {t : Target} {k : Nat} (hr : s.mode ≠ .realAddress) (h64 : s.mode ≠ .bits64) :
    extentOk s t k = segOffsetOk (segment s t.seg) (t.ea + k) := by
  unfold extentOk
  cases hm : s.mode with
  | realAddress => exact absurd hm hr
  | bits64 => exact absurd hm h64
  | protectedMode => rfl
  | virtual8086 => rfl
  | compatibility => rfl

theorem extentException_real {s : State} {t : Target} (hm : s.mode = .realAddress) :
    extentException s t = ⟨.gp, none, none⟩ := by simp [extentException, hm]

theorem extentException_of_ne {s : State} {t : Target} (hm : s.mode ≠ .realAddress) :
    extentException s t = ⟨if t.seg = .ss then .ss else .gp, some 0, none⟩ := by
  rw [extentException, if_neg hm]
  split <;> rfl

@[simp] theorem extentException_record (s : State) (t : Target) : (extentException s t).record = none := by
  unfold extentException
  split
  · rfl
  · split <;> rfl

/-- In the default order a byte of W that fails its extent check is what is reported, once #UD and #NM do not apply. -/
theorem exec_of_extentViolation {i : Instr} {s : State} {w : Nat × Byte} (hm : ModeOk i s) (ho : DefaultOrder s)
    (he : Enabled s) (hl : NoLock i) (hw : w ∈ stores s (instrForm i)) (hf : extentOk s (targetOf i s) w.1 = false) :
    exec i s = .fault (.exception (extentException s (targetOf i s)).x (extentException s (targetOf i s)).code (tick s)) := by
  refine exec_of_reported hm ?_ (extentException_record s _)
  rw [reported_of_enabled ho he hl, extentCheck_of_store hw hf]
  rfl

/-! The alignment check (60_exceptions.md R114, R118). -/

/-- The condition under which AC_POLICY is asked, and answers #AC (60_exceptions.md R118). -/
def RaisesAc (s : State) (t : Target) : Prop :=
  s.mode ≠ .realAddress ∧ acEnabled s = true ∧ cpl s = 3 ∧ alignedAddress s t % 64 ∈ s.params.acMisaligned

theorem alignmentCheck_ac {s : State} {t : Target} (hmis : alignedAddress s t % 64 ≠ 0) (h : RaisesAc s t) :
    alignmentCheck s t = some ⟨.ac, some 0, none⟩ := by
  obtain ⟨hm, hac, hcpl, hpol⟩ := h
  rw [alignmentCheck, if_neg hmis, if_pos ⟨hm, hac, hcpl, List.contains_iff_mem.mpr hpol⟩]

theorem alignmentCheck_gp {s : State} {t : Target} (hmis : alignedAddress s t % 64 ≠ 0) (h : ¬RaisesAc s t) :
    alignmentCheck s t = some ⟨.gp, zeroCode s.mode, none⟩ := by
  rw [alignmentCheck, if_neg hmis, if_neg]
  rintro ⟨hm, hac, hcpl, hpol⟩
  exact h ⟨hm, hac, hcpl, List.contains_iff_mem.mp hpol⟩

/-- A misalignment is #AC under its condition, else #GP. -/
theorem alignmentCheck_eq_some {s : State} {t : Target} {r : Raised} (h : alignmentCheck s t = some r) :
    alignedAddress s t % 64 ≠ 0 ∧
      ((RaisesAc s t ∧ r = ⟨.ac, some 0, none⟩) ∨ (¬RaisesAc s t ∧ r = ⟨.gp, zeroCode s.mode, none⟩)) := by
  have hmis : alignedAddress s t % 64 ≠ 0 := fun h0 => by
    rw [alignmentCheck_eq_none.mpr h0] at h
    cases h
  refine ⟨hmis, ?_⟩
  by_cases hac : RaisesAc s t
  · rw [alignmentCheck_ac hmis hac] at h
    exact .inl ⟨hac, (Option.some.inj h).symm⟩
  · rw [alignmentCheck_gp hmis hac] at h
    exact .inr ⟨hac, (Option.some.inj h).symm⟩

/-- In the default order a misalignment is what is reported, once no check before it applies. -/
theorem exec_of_misaligned {i : Instr} {s : State} {x : Exception} {code : Option ErrorCode} (hm : ModeOk i s)
    (ho : DefaultOrder s) (he : Enabled s) (hl : NoLock i) (hext : ∀ k < areaSize s, extentOk s (targetOf i s) k = true)
    (h : alignmentCheck s (targetOf i s) = some ⟨x, code, none⟩) : exec i s = .fault (.exception x code (tick s)) := by
  refine exec_of_reported (r := ⟨x, code, none⟩) hm ?_ rfl
  rw [reported_of_enabled ho he hl, extentCheck_eq_none hext, h]
  rfl

/-! The page check (60_exceptions.md R116, R123). -/

theorem pageBad_of_pageFault {s : State} {t : Target} {k : Nat} {c : ErrorCode} (hm : s.mode ≠ .realAddress)
    (h : pageFault s (byteAddress s t k) = some c) : pageBad s t k = true := by
  simp [pageBad, hm, h]

/-- A reported page fault carries the code of a faulting byte of the operand, whose address CR2 records. -/
theorem exec_of_pageCheck {i : Instr} {s : State} {r : Raised} (hm : ModeOk i s)
    (hr : reported s (instrForm i) (instrOperand i) (targetOf i s) = some r)
    (h : pageCheck s (instrForm i) (targetOf i s) = some r)
    (hq : operandRefusal s (targetOf i s) (instrLength i) = none) :
    s.mode ≠ .realAddress ∧ ∃ code t k, exec i s = .fault (.exception .pf (some code) t) ∧ k < areaSize s ∧
      pageFault s (byteAddress s (targetOf i s) k) = some code ∧
      t.cr2 = BitVec.ofNat 64 (byteAddress s (targetOf i s) k) := by
  have hx := (exec_of_reported_some hm hr).trans (raise_of_not_refused fun _ => hq)
  obtain ⟨hreal, k, hk, c, hc, rfl⟩ := pageCheck_eq_some h
  exact ⟨hreal, c, _, k, hx, hk, hc, faultState_cr2 s _ _ _⟩

/-- Whatever the order, an enabled and aligned operand reports nothing but its extent exception or its page fault. -/
theorem extentCheck_or_pageCheck_of_reported {i : Instr} {s : State} {form : Form} {t : Target} {r : Raised}
    (he : Enabled s) (hl : NoLock i) (ha : AreaAligned t) (hr : reported s form (instrOperand i) t = some r) :
    extentCheck s form t = some r ∨ pageCheck s form t = some r := by
  obtain ⟨c, hc⟩ := reported_eq_some hr
  cases c with
  | ud =>
    obtain ⟨hud, -⟩ := check_ud_eq_some hc
    cases hud.symm.trans (udCondition_eq_false he hl)
  | nm =>
    obtain ⟨-, -, -, hts⟩ := he
    cases hts.symm.trans (check_nm_eq_some hc).1
  | extent => exact .inl hc
  | alignment => cases hc.symm.trans (alignmentCheck_eq_none.mpr (alignedAddress_of_aligned ha))
  | page => exact .inr hc

/-! What a fault leaves in memory (60_exceptions.md R123). -/

/-- Only a page fault changes memory. -/
theorem mem_of_exec_exception {i : Instr} {s t : State} {x : Exception} {code : Option ErrorCode}
    (h : exec i s = .fault (.exception x code t)) (hx : x ≠ .pf) : t.mem = s.mem := by
  obtain ⟨-, r, hr, hf, -⟩ := exec_fault h
  obtain ⟨rfl, -, rfl⟩ := Fault.exception.inj hf
  obtain ⟨c, hc⟩ := reported_eq_some hr
  have hnone : r.record = none := by_contra fun hrec => hx ((check_record hc).mp hrec)
  rw [faultState_mem, if_pos hnone]

/-- What can be stored before a page fault: by policy, and at bytes that pass their own page check. -/
theorem storedAtFault_eq_true {s : State} {t : Target} {k : Nat} (h : storedAtFault s t k = true) :
    s.params.faultWrite = .someBytes ∧ pageBad s t k = false := by
  simp only [storedAtFault, Bool.and_eq_true, beq_iff_eq, Bool.not_eq_true'] at h
  obtain ⟨⟨⟨hpol, -⟩, hpage⟩, -⟩ := h
  exact ⟨hpol, hpage⟩

/-- A byte reads at a fault as before, or as a store that happened before it left it. -/
theorem read_faultState_cases (s : State) (form : Form) (t : Target) (r : Raised) (a : Nat) :
    Memory.read (faultState s form t r).mem a = Memory.read s.mem a ∨
      ∃ w ∈ stores s form, storedAtFault s t w.1 = true ∧ a = byteAddress s t w.1 ∧
        Memory.read (faultState s form t r).mem a = some w.2 := by
  rw [faultState_mem]
  split
  · exact .inl rfl
  · refine (read_storeAll_cases _ _ _ a).imp_right fun ⟨w, hw, ha, hread⟩ => ?_
    obtain ⟨hmem, hstored⟩ := List.mem_filter.mp hw
    exact ⟨w, hmem, hstored, ha, hread⟩

/-! The CPL (60_exceptions.md R127, 10_state.md R26). -/

/-- The state with another CPL. -/
def withCpl (c : BitVec 2) (s : State) : State := { s with cplField := c }

/-- An outcome, the state it carries replaced. -/
def mapOutcome (f : State → State) : Outcome → Outcome
  | .next t => .next (f t)
  | .fault (.exception x code t) => .fault (.exception x code (f t))
  | .fault (.fetchAbsent a) => .fault (.fetchAbsent a)
  | .refused q => .refused q

/-- The checks look at the CPL for #AC only, and there only with alignment checking enabled. -/
theorem sameChecks_withCpl {s : State} (h : acEnabled s = false) (c : BitVec 2) : SameChecks s (withCpl c s) := by
  have hc : acEnabled (withCpl c s) = false := h
  have hstores : SameStores s (withCpl c s) := by constructor <;> rfl
  exact { hstores with
    draws := rfl, cr0 := rfl, cr4 := rfl, segs := rfl, pageFaults := rfl, privilege := by simp [h, hc] }

theorem faultState_withCpl (c : BitVec 2) (s : State) (form : Form) (t : Target) (r : Raised) :
    faultState (withCpl c s) form t r = withCpl c (faultState s form t r) := by
  cases h : r.record <;> simp only [faultState, h] <;> rfl

/-- Refusals do not look at the CPL, and a completion keeps it. -/
theorem complete_withCpl (c : BitVec 2) (s : State) (form : Form) (t : Target) (len : Nat) :
    complete (withCpl c s) form t len = mapOutcome (withCpl c) (complete s form t len) := by
  have hq : operandRefusal (withCpl c s) t len = operandRefusal s t len := rfl
  unfold complete
  rw [hq]
  cases operandRefusal s t len with
  | some q => rfl
  | none =>
    exact (apply_ite (mapOutcome (withCpl c)) (2 ^ pcWidth s.mode ≤ s.pc.toNat + len) (.refused .pcWrap)
      (.next (completed s form t len))).symm

theorem raise_withCpl (c : BitVec 2) (s : State) (form : Form) (t : Target) (len : Nat) (r : Raised) :
    raise (withCpl c s) form t len r = mapOutcome (withCpl c) (raise s form t len r) := by
  have hq : operandRefusal (withCpl c s) t len = operandRefusal s t len := rfl
  unfold raise takeException
  rw [hq, faultState_withCpl]
  cases r.record <;> cases operandRefusal s t len <;> rfl

/-- With alignment checking disabled an execution at another CPL ends as it would, in the same state but for the CPL. -/
theorem exec_withCpl (i : Instr) {s : State} (h : acEnabled s = false) (c : BitVec 2) :
    exec i (withCpl c s) = mapOutcome (withCpl c) (exec i s) := by
  by_cases hm : ModeOk i s
  · have hm' : ModeOk i (withCpl c s) := hm
    have hsame := (sameChecks_withCpl h c).reported (instrForm i) (instrOperand i) (targetOf i s)
    cases hr : reported s (instrForm i) (instrOperand i) (targetOf i s) with
    | none =>
      rw [exec_of_reported_none hm hr, exec_of_reported_none hm' (hsame.trans hr)]
      exact complete_withCpl c s _ _ _
    | some r =>
      rw [exec_of_reported_some hm hr, exec_of_reported_some hm' (hsame.trans hr)]
      exact raise_withCpl c s _ _ _ r
  · rw [exec_of_not_modeOk hm]
    exact exec_of_not_modeOk (s := withCpl c s) hm

end Sys2Proof.Machine

/-! The statements of the family. -/

namespace Sys2Proof.Proofs

open Machine

/-- Settles O31: the four conditions are those of the #UD check, the first of the default order. -/
theorem udConditions : Obligations.UdConditions := by
  intro i s h
  have hud : udCondition s (instrOperand i) = true := udCondition_iff.mpr h
  exact ⟨exec_ne_next_of_udCondition hud, fun hm ho => exec_of_udCondition hm ho hud⟩

/-- Settles O33: CR0.TS is the condition of the #NM check, the second of the default order; no mask has a part in it. -/
theorem nmWhenTaskSwitched : Obligations.NmWhenTaskSwitched := by
  intro i s hts
  refine ⟨exec_ne_next_of_crTs hts, fun hm ho hx hc ho18 hlock => exec_of_crTs hm ho ?_ hts⟩
  rw [← Bool.not_eq_true, udCondition_iff]
  simp [hx, hc, ho18, hlock]

/-- Settles O34: each clause is the mode's extent check, and the exception is the mode's. -/
theorem extentViolationRaises : Obligations.ExtentViolationRaises := by
  intro i s w hm ho he hl hw
  have hfault (hf : extentOk s (targetOf i s) w.1 = false) := exec_of_extentViolation hm ho he hl hw hf
  refine ⟨fun hreal hlt => ?_, fun h64 hcan => ?_, fun hreal h64 hseg => ?_⟩
  · rw [hfault (by rw [extentOk_real hreal, decide_eq_false (by omega)]), extentException_real hreal]
  · have hreal : s.mode ≠ .realAddress := by simp [h64]
    rw [hfault (by rw [extentOk_bits64 h64, hcan]), extentException_of_ne hreal]
  · rw [hfault (by rw [extentOk_segment hreal h64, hseg]), extentException_of_ne hreal]

/-- Settles O35: without page faults the extent check alone can apply. -/
theorem unwrittenExtentMayRaise : Obligations.UnwrittenExtentMayRaise := by
  intro i s hm he hl ha _ hpage hq hp
  cases hr : reported s (instrForm i) (instrOperand i) (targetOf i s) with
  | none => exact .inl (exec_of_clear hm hr hq hp)
  | some r =>
    have hcheck := extentCheck_or_pageCheck_of_reported he hl ha hr
    rw [pageCheck_eq_none hpage, or_iff_left nofun] at hcheck
    obtain ⟨rfl, -⟩ := extentCheck_eq_some hcheck
    exact .inr (exec_of_reported hm hr (extentException_record s _))

/-- Settles O36: the alignment check, by whether AC_POLICY is asked. -/
theorem misalignmentRaisesGpOrAc : Obligations.MisalignmentRaisesGpOrAc := by
  intro i s hm ho he hl hext hmis
  have hfault {x : Exception} {code : Option ErrorCode} := exec_of_misaligned (x := x) (code := code) hm ho he hl hext
  refine ⟨fun hreal hac hcpl hpol => ?_, fun hreal hno => ?_, fun hreal => ?_⟩
  · exact hfault (alignmentCheck_ac hmis ⟨hreal, hac, hcpl, hpol⟩)
  · have hgp : ¬RaisesAc s (targetOf i s) := by
      rintro ⟨-, hac, hcpl, hpol⟩
      rcases hno with h | h | h
      · cases hac.symm.trans h
      · exact h hcpl
      · exact h hpol
    have h := alignmentCheck_gp hmis hgp
    rw [zeroCode, if_neg hreal] at h
    exact hfault h
  · have h := alignmentCheck_gp hmis fun ⟨hne, _⟩ => hne hreal
    rw [zeroCode, if_pos hreal] at h
    exact hfault h

/-- Settles O38: no check before the page check applies, and the faulting byte of W makes that one apply. -/
theorem pageFaultRaisesPf : Obligations.PageFaultRaisesPf := by
  intro i s w c hm ho he hl hext ha hreal hw hc hq
  obtain ⟨r, hr⟩ := pageCheck_of_store hw (pageBad_of_pageFault hreal hc)
  have hrep : reported s (instrForm i) (instrOperand i) (targetOf i s) = some r := by
    rw [reported_of_enabled ho he hl, extentCheck_eq_none hext,
      alignmentCheck_eq_none.mpr (alignedAddress_of_aligned ha), hr]
    rfl
  exact (exec_of_pageCheck hm hrep hr hq).2

/-- Settles O39: what is reported comes from a check that applies, and each check gives its cause. -/
theorem everyFaultHasItsCause : Obligations.EveryFaultHasItsCause := by
  intro i s f h
  obtain ⟨-, r, hr, rfl, -⟩ := exec_fault h
  refine ⟨_, _, _, rfl, ?_⟩
  obtain ⟨c, hc⟩ := reported_eq_some hr
  cases c with
  | ud =>
    obtain ⟨hud, rfl⟩ := check_ud_eq_some hc
    exact ⟨rfl, udCondition_iff.mp hud⟩
  | nm =>
    obtain ⟨hts, rfl⟩ := check_nm_eq_some hc
    exact ⟨rfl, hts⟩
  | extent =>
    obtain ⟨rfl, hbad⟩ := extentCheck_eq_some hc
    by_cases hreal : s.mode = .realAddress
    · rw [extentException_real hreal]
      exact ⟨(if_pos hreal).symm, .inr ⟨.inl hreal, hbad⟩⟩
    · rw [extentException_of_ne hreal]
      by_cases hss : (targetOf i s).seg = .ss
      · rw [if_pos hss]
        exact ⟨rfl, hreal, hss, hbad⟩
      · rw [if_neg hss]
        exact ⟨(if_neg hreal).symm, .inr ⟨.inr hss, hbad⟩⟩
  | alignment =>
    obtain ⟨hmis, ⟨⟨hreal, hac, hcpl, -⟩, rfl⟩ | ⟨-, rfl⟩⟩ := alignmentCheck_eq_some hc
    · exact ⟨rfl, hreal, hac, hcpl, hmis⟩
    · exact ⟨rfl, .inl hmis⟩
  | page =>
    obtain ⟨hreal, k, hk, c, hpf, rfl⟩ := pageCheck_eq_some hc
    exact ⟨hreal, k, hk, c, rfl, hpf⟩

/-- Settles O40: a fault makes none but the stores that may happen before a page fault. -/
theorem memoryAtAFault : Obligations.MemoryAtAFault := by
  intro i s x code t h
  refine ⟨mem_of_exec_exception h, ?_⟩
  obtain ⟨r, rfl⟩ := exec_exception h
  have hcases := read_faultState_cases s (instrForm i) (targetOf i s) r
  refine ⟨fun hno a => (hcases a).resolve_right ?_, fun a => (hcases a).imp_right ?_⟩
  · rintro ⟨w, -, hstored, -⟩
    cases hno.symm.trans (storedAtFault_eq_true hstored).1
  · rintro ⟨w, hw, hstored, ha, hread⟩
    exact ⟨w, hw, ha, (storedAtFault_eq_true hstored).2, hread⟩

/-- Settles O41: the CPL has a part in #AC alone. -/
theorem notPrivileged : Obligations.NotPrivileged := by
  intro i s c hac
  have hcpl {o : Outcome} (h : exec i s = o) : exec i (withCpl c s) = mapOutcome (withCpl c) o :=
    h ▸ exec_withCpl i hac c
  exact ⟨fun _ => hcpl, fun _ _ _ => hcpl, fun _ => hcpl⟩

/-- Settles O53: without extent violations the page check alone can apply, and the byte it reports is not one of W. -/
theorem unwrittenPageFaultMayRaise : Obligations.UnwrittenPageFaultMayRaise := by
  intro i s hm he hl ha hext hpage hq hp
  cases hr : reported s (instrForm i) (instrOperand i) (targetOf i s) with
  | none => exact .inl (exec_of_clear hm hr hq hp)
  | some r =>
    have hcheck := extentCheck_or_pageCheck_of_reported he hl ha hr
    rw [extentCheck_eq_none hext, or_iff_right nofun] at hcheck
    obtain ⟨hreal, code, t, k, hx, hk, hc, hcr2⟩ := exec_of_pageCheck hm hr hcheck hq
    refine .inr ⟨code, t, k, hx, hreal, hk, fun hmem => ?_, hc, hcr2⟩
    obtain ⟨w, hw, rfl⟩ := List.mem_map.mp hmem
    cases (hpage w hw).symm.trans (pageBad_of_pageFault hreal hc)

end Sys2Proof.Proofs
end

section
/-! PROOFS. The family of resets and hazards (70_reset_and_hazards.md): what an execution keeps besides the registers, where a run
ends, and that a program runs to its end. -/

namespace Sys2Proof.Machine

/-! The constants, the oracles and CR2 (70_reset_and_hazards.md R146). -/

/-- Completing or faulting, an execution keeps the implementation's constants and the oracles (00_scope.md R4). -/
theorem constants_of_exec {i : Instr} {s t : State}
    (h : exec i s = .next t ∨ ∃ x code, exec i s = .fault (.exception x code t)) :
    t.params = s.params ∧ t.pageFaults = s.pageFaults ∧ t.regions = s.regions := by
  rcases h with h | ⟨x, code, h⟩
  · obtain ⟨-, -, -, -, rfl⟩ := exec_next h
    exact ⟨completed_params s _ _ _, completed_pageFaults s _ _ _, completed_regions s _ _ _⟩
  · obtain ⟨r, rfl⟩ := exec_exception h
    exact ⟨faultState_params s _ _ r, faultState_pageFaults s _ _ r, faultState_regions s _ _ r⟩

theorem cr2_of_exec_next {i : Instr} {s t : State} (h : exec i s = .next t) : t.cr2 = s.cr2 := by
  obtain ⟨-, -, -, -, rfl⟩ := exec_next h
  exact completed_cr2 s _ _ _

/-- A fault other than #PF records no address, so nothing but the draw counter changes (60_exceptions.md R123). -/
theorem eq_tick_of_exec_exception {i : Instr} {s t : State} {x : Exception} {code : Option ErrorCode}
    (h : exec i s = .fault (.exception x code t)) (hx : x ≠ .pf) : t = tick s := by
  obtain ⟨-, r, hr, hf, -⟩ := exec_fault h
  obtain ⟨rfl, -, rfl⟩ := Fault.exception.inj hf
  obtain ⟨c, hc⟩ := reported_eq_some hr
  have hnone : r.record = none := by_contra fun hrec => hx ((check_record hc).mp hrec)
  exact faultState_of_none s _ _ r hnone

/-! How a run stands (70_reset_and_hazards.md R145). -/

/-- How a run stands right after a step with this outcome, away from the program's end. -/
def resultOf : Outcome → RunResult
  | .next t => .running t
  | .fault f => .faulted f
  | .refused q => .refused q

theorem final_ne_resultOf (t : State) (o : Outcome) : .final t ≠ resultOf o := by
  cases o <;> nofun

theorem running_ne_resultOf (t : State) {o : Outcome} (ho : ∀ u, o ≠ .next u) : .running t ≠ resultOf o := by
  cases o with
  | next u => exact absurd rfl (ho u)
  | fault f => nofun
  | refused q => nofun

theorem resultOf_injective : Function.Injective resultOf := by
  intro o o' h
  cases o <;> cases o' <;> cases h <;> rfl

theorem Program.run_zero_of_ne {p : Program} {s : State} (h : s.pc ≠ p.stop) : p.run 0 s = .running s := if_neg h

/-- A run whose step does not go on ends as that step does. -/
theorem Program.run_of_not_next {p : Program} {s : State} (h : s.pc ≠ p.stop) (hs : ∀ t, step s ≠ .next t) (fuel : Nat) :
    p.run (fuel + 1) s = resultOf (step s) := by
  rw [Program.run, if_neg h]
  cases ho : step s with
  | next t => exact absurd ho (hs t)
  | fault f => rfl
  | refused q => rfl

/-- The three cases of a run with steps left: it stands at the program's end, goes on with a step, or ends with one. -/
theorem Program.run_cases (p : Program) (s : State) :
    s.pc = p.stop ∨ (s.pc ≠ p.stop ∧ ∃ t, step s = .next t) ∨ (s.pc ≠ p.stop ∧ ∀ t, step s ≠ .next t) := by
  by_cases hp : s.pc = p.stop
  · exact .inl hp
  · by_cases hs : ∃ t, step s = .next t
    · exact .inr (.inl ⟨hp, hs⟩)
    · exact .inr (.inr ⟨hp, not_exists.mp hs⟩)

/-- A run goes by its program's end only. -/
theorem Program.run_congr {p q : Program} (h : p.stop = q.stop) (fuel : Nat) (s : State) : p.run fuel s = q.run fuel s := by
  induction fuel generalizing s with
  | zero => rw [Program.run, Program.run, h]
  | succ fuel ih => simp only [Program.run, h, ih]

/-- A final state stands at the program's end, and more steps lead to the same one. -/
theorem Program.stop_of_final {p : Program} {fuel : Nat} {s t : State} (h : p.run fuel s = .final t) :
    t.pc = p.stop ∧ ∀ more, p.run (fuel + more) s = .final t := by
  induction fuel generalizing s with
  | zero =>
    by_cases hp : s.pc = p.stop
    · rw [run_of_stop hp] at h
      cases h
      exact ⟨hp, fun more => run_of_stop hp _⟩
    · rw [run_zero_of_ne hp] at h
      cases h
  | succ fuel ih =>
    rcases p.run_cases s with hp | ⟨hp, u, hs⟩ | ⟨hp, hs⟩
    · rw [run_of_stop hp] at h
      cases h
      exact ⟨hp, fun more => run_of_stop hp _⟩
    · rw [run_of_next hp hs] at h
      obtain ⟨ht, hmore⟩ := ih h
      refine ⟨ht, fun more => ?_⟩
      rw [Nat.add_right_comm, run_of_next hp hs]
      exact hmore more
    · rw [run_of_not_next hp hs] at h
      exact absurd h.symm (final_ne_resultOf t _)

/-- A run that has not ended goes on with the next state of a step, which is final at the program's end. -/
theorem Program.run_succ_of_running {p : Program} {fuel : Nat} {s t u : State} (h : p.run fuel s = .running t)
    (hs : step t = .next u) : p.run (fuel + 1) s = if u.pc = p.stop then .final u else .running u := by
  rw [run_add h, run_of_next (ne_stop_of_running h) hs]
  rfl

/-- A run ends with an outcome that is no next state exactly when, before the steps allowed are used up, it stands in a state whose
step has that outcome. -/
theorem Program.run_eq_resultOf_iff {p : Program} {fuel : Nat} {s : State} {o : Outcome} (ho : ∀ t, o ≠ .next t) :
    p.run fuel s = resultOf o ↔ ∃ n < fuel, ∃ u : State, p.run n s = .running u ∧ step u = o := by
  constructor
  · intro h
    induction fuel generalizing s with
    | zero =>
      by_cases hp : s.pc = p.stop
      · exact absurd ((run_of_stop hp 0).symm.trans h) (final_ne_resultOf s o)
      · exact absurd ((run_zero_of_ne hp).symm.trans h) (running_ne_resultOf s ho)
    | succ fuel ih =>
      rcases p.run_cases s with hp | ⟨hp, t, hs⟩ | ⟨hp, hs⟩
      · exact absurd ((run_of_stop hp _).symm.trans h) (final_ne_resultOf s o)
      · rw [run_of_next hp hs] at h
        obtain ⟨n, hn, u, hu, hstep⟩ := ih h
        exact ⟨n + 1, Nat.succ_lt_succ hn, u, (run_of_next hp hs n).trans hu, hstep⟩
      · rw [run_of_not_next hp hs] at h
        exact ⟨0, Nat.succ_pos fuel, s, run_zero_of_ne hp, resultOf_injective h⟩
  · rintro ⟨n, hn, u, hu, rfl⟩
    obtain ⟨k, rfl⟩ := Nat.exists_eq_add_of_lt hn
    rw [Nat.add_assoc, run_add hu, run_of_not_next (ne_stop_of_running hu) ho]

/-! One instruction after the other (70_reset_and_hazards.md R142, R145). -/

/-- The instruction pointer has at most 64 bits (10_state.md R12). -/
theorem two_pow_pcWidth_le (m : Mode) : 2 ^ pcWidth m ≤ 2 ^ 64 :=
  Nat.pow_le_pow_right (by omega) (by cases m <;> simp [pcWidth])

theorem overwritten_eq_false {s : State} {n : Nat} :
    overwritten s n = false ↔ ∀ k < n, s.areasWritten.any (·.has (codeAddress s k)) = false := by
  simp [overwritten]

theorem mem_codeBytes {s : State} {n a : Nat} : a ∈ codeBytes s n ↔ ∃ k < n, codeAddress s k = a := by
  simp [codeBytes]

/-- The rest of a program, whose first instruction is `i`. -/
def restAfter (base : Word) (i : Instr) (is : List Instr) : Program := ⟨base + BitVec.ofNat 64 (instrLength i), is⟩

theorem bytes_cons (base : Word) (i : Instr) (is : List Instr) :
    (⟨base, i :: is⟩ : Program).bytes = encode i ++ (restAfter base i is).bytes := rfl

theorem length_bytes_cons (base : Word) (i : Instr) (is : List Instr) :
    (⟨base, i :: is⟩ : Program).bytes.length = instrLength i + (restAfter base i is).bytes.length := by
  rw [bytes_cons, List.length_append, length_encode]

/-- The rest of a program ends where the program does. -/
theorem stop_restAfter (base : Word) (i : Instr) (is : List Instr) :
    (restAfter base i is).stop = (⟨base, i :: is⟩ : Program).stop := by
  rw [Program.stop, Program.stop, length_bytes_cons, BitVec.ofNat_add, ← BitVec.add_assoc]
  rfl

section
variable {base : Word} {i : Instr} {is : List Instr} {s : State}

/-- A program starts at its first instruction, well-formed and with its code in place. -/
theorem Program.StartsIn.codeWellFormed (h : Program.StartsIn ⟨base, i :: is⟩ s) : CodeWellFormed s i := by
  obtain ⟨-, hwf, hfit, hover, hread⟩ := h
  rw [length_bytes_cons] at hfit hover hread
  refine ⟨hwf i List.mem_cons_self, ?_, ?_, fun k hk => ?_⟩
  · unfold PcFits
    omega
  · exact overwritten_eq_false.mpr fun k hk => overwritten_eq_false.mp hover k (by omega)
  · rw [hread k (by omega), bytes_cons, List.getElem?_append_left (by rwa [length_encode])]

/-- A program that has an instruction does not start at its end: its bytes do not wrap. -/
theorem Program.StartsIn.pc_ne_stop (h : Program.StartsIn ⟨base, i :: is⟩ s) : s.pc ≠ Program.stop ⟨base, i :: is⟩ := by
  obtain ⟨hpc, -, hfit, -, -⟩ := h
  have hlen := instrLength_ge i
  have hwidth := two_pow_pcWidth_le s.mode
  rw [length_bytes_cons] at hfit
  rw [hpc, Program.stop, length_bytes_cons]
  intro he
  have hzero := congrArg BitVec.toNat (BitVec.self_eq_add_right.mp he)
  rw [BitVec.toNat_ofNat, Nat.mod_eq_of_lt (by omega), BitVec.toNat_zero] at hzero
  omega

/-- The rest of a program lies in the program's code. -/
theorem addresses_restAfter (hfit : PcFits s (instrLength i)) (form : Form) (t : Target) :
    (restAfter base i is).addresses (completed s form t (instrLength i)) ⊆ Program.addresses ⟨base, i :: is⟩ s := by
  intro a ha
  obtain ⟨k, hk, rfl⟩ := mem_codeBytes.mp ha
  refine mem_codeBytes.mpr ⟨instrLength i + k, ?_, (codeAddress_completed hfit k).symm⟩
  rw [length_bytes_cons]
  omega

/-- An operand off the program leaves the rest of it in place, so the rest starts where its first instruction ends. -/
theorem startsIn_restAfter (h : Program.StartsIn ⟨base, i :: is⟩ s)
    (hoff : OffProgram (Program.addresses ⟨base, i :: is⟩ s) s (targetOf i s)) :
    (restAfter base i is).StartsIn (completed s (instrForm i) (targetOf i s) (instrLength i)) := by
  obtain ⟨-, hpc, -, -⟩ := h.codeWellFormed
  obtain ⟨rfl, hwf, hfit, hover, hread⟩ := h
  have hmiss {k : Nat} (hk : k < (restAfter s.pc i is).bytes.length) :
      inOperand s (targetOf i s) (codeAddress s (instrLength i + k)) = false :=
    hoff _ (mem_codeBytes.mpr ⟨_, by rw [length_bytes_cons]; omega, rfl⟩)
  rw [length_bytes_cons] at hfit hover hread
  refine ⟨completed_pc s _ _ _, fun j hj => hwf j (List.mem_cons_of_mem i hj), ?_, ?_, fun k hk => ?_⟩
  · rw [toNat_pc_completed hpc, completed_mode]
    omega
  · refine overwritten_eq_false.mpr fun k hk => ?_
    rw [areasWritten_completed, codeAddress_completed hpc, hmiss hk, overwritten_eq_false.mp hover _ (by omega)]
    rfl
  · rw [codeAddress_completed hpc, read_completed_outside (hmiss hk), hread _ (by omega), bytes_cons,
      List.getElem?_append_right (by rw [length_encode]; omega), length_encode, Nat.add_sub_cancel_left]

end

/-- A program whose code lies in `code`, off which every operand lies, runs to its end: its first instruction is fetched and
completes, and the rest of it runs from there. -/
theorem run_of_launchAll {base : Word} {is : List Instr} {s : State} {code : List Nat} (hstart : Program.StartsIn ⟨base, is⟩ s)
    (hcode : Program.addresses ⟨base, is⟩ s ⊆ code) (hl : LaunchAll code is s) :
    ∃ t, Program.run ⟨base, is⟩ is.length s = .final t ∧ execAll is s = .next t := by
  induction is generalizing base s with
  | nil =>
    obtain ⟨hpc, -⟩ := hstart
    have hstop : s.pc = Program.stop ⟨base, []⟩ := hpc.trans (BitVec.add_zero base).symm
    exact ⟨s, Program.run_of_stop hstop _, rfl⟩
  | cons i is ih =>
    obtain ⟨hi, hoff, hrest⟩ := hl
    have hexec := exec_of_launch hi
    have hstep := (Proofs.stepRunsInstructionAtPc s i hstart.codeWellFormed).trans hexec
    obtain ⟨-, hfit, -, -⟩ := hstart.codeWellFormed
    obtain ⟨t, hrun, hall⟩ := ih (startsIn_restAfter hstart fun a ha => hoff a (hcode ha))
      (List.Subset.trans (addresses_restAfter hfit _ _) hcode) (hrest _ hexec)
    refine ⟨t, ?_, ?_⟩
    · rw [List.length_cons, Program.run_of_next hstart.pc_ne_stop hstep, ← Program.run_congr (stop_restAfter base i is)]
      exact hrun
    · rw [execAll, hexec]
      exact hall

end Sys2Proof.Machine

/-! The statements of the family. -/

namespace Sys2Proof.Proofs

open Machine

/-- Settles O30: both outcomes keep the constants and the oracles; only the record of a page fault is stored in CR2. -/
theorem constantsAndCr2Frame : Obligations.ConstantsAndCr2Frame := by
  intro i s t h
  obtain ⟨hparams, hfaults, hregions⟩ := constants_of_exec h
  refine ⟨hparams, hfaults, hregions, cr2_of_exec_next, fun x code hf hx => ?_⟩
  rw [eq_tick_of_exec_exception hf hx, tick_cr2]

/-- Settles O56: a run ends at the program's end, or as the first step that does not go on. -/
theorem runsEndAsDefined : Obligations.RunsEndAsDefined := by
  intro p fuel s
  refine ⟨fun hp => Program.run_of_stop hp fuel, Program.run_zero_of_ne, fun _ => Program.stop_of_final, fun t h => ?_,
    fun f => ?_, fun q => ?_⟩
  · exact ⟨Program.ne_stop_of_running h, fun u => Program.run_succ_of_running h⟩
  · exact Program.run_eq_resultOf_iff (o := .fault f) (by simp)
  · exact Program.run_eq_resultOf_iff (o := .refused q) (by simp)

/-- Settles O57: by induction on the program, whose every completed instruction leaves the rest of it in place. -/
theorem programRunsToItsEnd : Obligations.ProgramRunsToItsEnd := fun _ _ hstart hl =>
  run_of_launchAll hstart (List.Subset.refl _) hl

end Sys2Proof.Proofs
end

section
/-! PROOFS. The state after reset (10_state.md R30): its values, and that it meets the invariant. -/

namespace Sys2Proof.Machine

/-! What makes the parts of the invariant hold in a state fresh from reset. -/

/-- Memory that lists no address is in canonical form (20_memory.md R40, log 6). -/
theorem Memory.wf_nil : Memory.wf [] := ⟨List.Pairwise.nil, nofun⟩

/-- XINUSE promises something of a component only where its bit is 0, so with every component in use it is sound (10_state.md R20). -/
theorem xinuseSound_of_allInUse {s : State} (h : ∀ i < 63, s.xinuse.getLsbD i = true) : XinuseSound s := by
  have hset {i : Nat} (hi : i < 63) {p : Prop} (hclear : s.xinuse.getLsbD i = false) : p :=
    absurd (h i hi) (Bool.eq_false_iff.mp hclear)
  refine ⟨hset (by decide), hset (by decide), fun i hi => hset ?_⟩
  have := List.mem_range'_1.mp hi
  omega

/-- In real-address mode the CPL is 0, whatever its field holds (10_state.md R26). -/
theorem cpl_of_realAddress {s : State} (h : s.mode = .realAddress) : cpl s = 0 := by
  simp [cpl, h]

/-! The values that decide the bits read from them (log 1, log 4). -/

/-- XINUSE at reset is 2^63 - 1: every component is in use (log 4). -/
theorem getLsbD_xinuse_reset : ∀ i < 63, State.reset.xinuse.getLsbD i = true := by
  decide

/-- XCR0 at reset is 1: bit 0 set and bit 63 clear, as the standard XCR0_LEGAL asks (10_state.md R14). -/
theorem legalXCR0_reset : LegalXCR0 State.reset := by
  change legalXcr0 .standard 1 = true
  decide

/-- pc at reset is FFF0H, inside the 16 bits of real-address mode (10_state.md R12). -/
theorem toNat_pc_reset_lt : State.reset.pc.toNat < 2 ^ pcWidth State.reset.mode := by
  change (0xFFF0#64).toNat < 2 ^ 16
  decide

/-- CR0 at reset is 60000010H, whose bit 3 is 0 (10_state.md R15). -/
theorem crTs_reset : crTs State.reset = false := by
  change (0x60000010#64).getLsbD 3 = false
  decide

/-- CR4 at reset is 0, so bit 18 is 0 (10_state.md R16). -/
theorem crOsxsave_reset : crOsxsave State.reset = false := BitVec.getLsbD_zero

end Sys2Proof.Machine

/-! The statements of the family. -/

namespace Sys2Proof.Proofs

open Machine

/-- Settles O48: memory is empty, pc fits, XCR0 is legal, and XINUSE is sound because every component is in use. -/
theorem resetHasInv : Obligations.ResetHasInv :=
  ⟨Memory.wf_nil, toNat_pc_reset_lt, legalXCR0_reset, xinuseSound_of_allInUse getLsbD_xinuse_reset⟩

/-- Settles O49: every conjunct is a field of the reset state but the two control bits and the CPL, which real-address mode fixes. -/
theorem resetValues : Obligations.ResetValues := by
  have hmode : State.reset.mode = .realAddress := rfl
  have hcpl : cpl State.reset = 0 := cpl_of_realAddress hmode
  exact ⟨rfl, rfl, crTs_reset, crOsxsave_reset, rfl, rfl, rfl, hmode, hcpl, rfl, rfl, rfl, rfl, rfl⟩

end Sys2Proof.Proofs
end
